-- ==== Sys2Proof/Word.lean ====
section
/-! DEFINITION. The word types of the block (spec 00_scope.md R6 to R8, 30_encoding.md R81).

A register value or an address is a plain 32-bit word. The spec's `u(v)` is `BitVec.toNat v`, its `s(v)` is
`BitVec.toInt v`, and its `trunc32(n)` is `BitVec.ofInt 32 n` (`BitVec.ofNat 32 n` for a natural number). Signedness belongs
to each operation, never to a word (R8). -/

namespace Sys2Proof

/-- A 32-bit word: a register value, an address or an instruction word (R6, R8). -/
abbrev Word := BitVec 32

/-- The 16-bit half of a word, and the I-type immediate field (R81). -/
abbrev Half := BitVec 16

/-- A byte of memory (20_memory.md R51). -/
abbrev Byte := BitVec 8

/-- A general-register index: a 5-bit field, so an index above 31 cannot be written (10_state.md R30). -/
abbrev Reg := BitVec 5

/-- A shift amount field (R81). -/
abbrev Shamt := BitVec 5

/-- The J-type target field (R81). -/
abbrev Target := BitVec 26

end Sys2Proof
end

