-- ==== Sys2Proof/Machine/Flags.lean ====
section
/-! DEFINITION. The conditions instructions test. The block has no flags or condition codes (spec 10_state.md R40): a
comparison writes 0 or 1 to a register or halts the core, and the overflow predicates decide an exception. -/

namespace Sys2Proof.Machine

/-- An exact signed result outside [-2^31, 2^31-1] (00_scope.md R14). -/
def outsideInt32 (n : Int) : Bool := n < -2147483648 || 2147483647 < n

/-- `AddOverflows(a, b)` (R14). -/
def addOverflows (a b : Word) : Bool := outsideInt32 (a.toInt + b.toInt)

/-- `SubOverflows(a, b)` (R14). -/
def subOverflows (a b : Word) : Bool := outsideInt32 (a.toInt - b.toInt)

/-- `s(a) < s(b)` (43_alu_register.md R133, 44_trap.md R142). -/
def lessSigned (a b : Word) : Bool := a.toInt < b.toInt

/-- `u(a) < u(b)` (R134, R143). -/
def lessUnsigned (a b : Word) : Bool := a.toNat < b.toNat

/-- `s(a) >= s(b)` (R140). -/
def geSigned (a b : Word) : Bool := b.toInt ≤ a.toInt

/-- `u(a) >= u(b)` (R141). -/
def geUnsigned (a b : Word) : Bool := b.toNat ≤ a.toNat

/-- `(c ? 1 : 0)` (R133, R134). -/
def boolWord (c : Bool) : Word := if c then 1#32 else 0#32

/-- The one dividend and divisor whose signed quotient overflows (42_hilo_muldiv.md R121). -/
def divOverflows (a b : Word) : Bool := a.toInt == -2147483648 && b.toInt == -1

end Sys2Proof.Machine
end

