-- ==== Sys2Proof/Config.lean ====
section
/-! DEFINITION. The implementation parameters of the block: every row marked "parameter" in the table of spec
00_scope.md R6, with its stated default.

A model "takes every row marked parameter as a configuration argument" (R6). The step function of this package takes no
such argument, so a state carries its configuration (`State.cfg`), which no step changes: a statement over every state is a
statement over every configuration (log entry 2). -/

namespace Sys2Proof

/-- DIV_OVERFLOW (R6, 42_hilo_muldiv.md R121): what `div` of 0x80000000 by 0xFFFFFFFF does. -/
inductive DivOverflow where
  /-- the quotient is taken modulo 2^32 (the default) -/
  | wrap
  /-- the fatal condition DivideOverflow -/
  | fatal
  deriving DecidableEq, Repr

/-- The parameters of R6, each field under the spec's name with its stated default. -/
structure Config where
  /-- TEXT_BASE -/
  textBase : Word := 0x00400000#32
  /-- DATA_BASE, when no ELF supplies the `.data` section's address -/
  dataBase : Word := 0x10000000#32
  /-- HEAP_BASE -/
  heapBase : Word := 0x10040000#32
  /-- STACK_BASE, the lower boundary of the stack for resolution -/
  stackBase : Word := 0x40000000#32
  /-- STACK_TOP_BYTE, the address of stack index 0 -/
  stackTopByte : Word := 0x7FFFFFFF#32
  /-- PC_RESET -/
  pcReset : Word := 0x00400000#32
  /-- GP_RESET -/
  gpReset : Word := 0x10008000#32
  /-- SP_RESET -/
  spReset : Word := 0x7FFFFFFC#32
  /-- DIV_OVERFLOW -/
  divOverflow : DivOverflow := .wrap
  deriving DecidableEq, Repr

/-- The configuration with every parameter at its default (R6). -/
def Config.default : Config := {}

end Sys2Proof
end

