-- ==== Sys2Proof/Syntax.lean ====
section
/-! DEFINITION. The instruction set as syntax: one constructor for each of the 46 rows of spec/opcode_table.json, in the
table's order, with the operands of 30_encoding.md R95 in the order the assembler writes them.

A field that R91 calls ignored is no operand. The two selector fields of R92 are operands: the `rs` field of `srl` and
the `shamt` field of `srlv`. -/

namespace Sys2Proof

/-- An instruction of the dispatch table (00_scope.md R2, 30_encoding.md R88 and R89). -/
inductive Instr where
  -- shifts
  | sll (rd rt : Reg) (shamt : Shamt)
  | srl (rd rt : Reg) (shamt : Shamt) (rs : Reg)
  | sra (rd rt : Reg) (shamt : Shamt)
  | sllv (rd rt rs : Reg)
  | srlv (rd rt rs : Reg) (shamt : Shamt)
  | srav (rd rt rs : Reg)
  -- jumps through a register
  | jr (rs : Reg)
  | jalr (rd rs : Reg)
  -- conditional moves
  | movz (rd rs rt : Reg)
  | movn (rd rs rt : Reg)
  -- system (`brk` is the table's `break`)
  | syscall
  | brk
  -- HI/LO, multiply, divide
  | mfhi (rd : Reg)
  | mthi (rs : Reg)
  | mflo (rd : Reg)
  | mtlo (rs : Reg)
  | mult (rs rt : Reg)
  | multu (rs rt : Reg)
  | div (rs rt : Reg)
  | divu (rs rt : Reg)
  -- register arithmetic, logic, compare
  | add (rd rs rt : Reg)
  | addu (rd rs rt : Reg)
  | sub (rd rs rt : Reg)
  | subu (rd rs rt : Reg)
  | and (rd rs rt : Reg)
  | or (rd rs rt : Reg)
  | xor (rd rs rt : Reg)
  | nor (rd rs rt : Reg)
  | slt (rd rs rt : Reg)
  | sltu (rd rs rt : Reg)
  -- conditional traps
  | tge (rs rt : Reg)
  | tgeu (rs rt : Reg)
  | tlt (rs rt : Reg)
  | tltu (rs rt : Reg)
  | teq (rs rt : Reg)
  | tne (rs rt : Reg)
  -- jump and branches
  | j (target : Target)
  | beq (rs rt : Reg) (imm : Half)
  | bne (rs rt : Reg) (imm : Half)
  -- immediate arithmetic and logic
  | addi (rt rs : Reg) (imm : Half)
  | addiu (rt rs : Reg) (imm : Half)
  | andi (rt rs : Reg) (imm : Half)
  | lui (rt : Reg) (imm : Half)
  -- branch likely, treated as `beq`
  | beql (rs rt : Reg) (imm : Half)
  -- load and store: `op rt, offset(rs)`
  | lw (rt : Reg) (imm : Half) (rs : Reg)
  | sw (rt : Reg) (imm : Half) (rs : Reg)
  deriving DecidableEq, Repr

end Sys2Proof
end

