-- ==== Sys2Proof/WellFormed.lean ====
section
/-! DEFINITION. What is well formed.

An instruction is well formed by its type: every operand is a bit vector of exactly its field's width, so that an index
above 31, a shift amount above 31 or an immediate of more than 16 bits cannot be written (10_state.md R30). Nothing is left
to check on a term of `Instr`; a word that is no instruction is refused by the decoder.

What has to be checked is the configuration: "A configuration whose bases are not distinct is ill-formed and a model refuses
it before the first step" (20_memory.md R52). -/

namespace Sys2Proof

/-- The four segment bases are pairwise distinct (20_memory.md R52). -/
def basesDistinct (text data heap stack : Word) : Bool :=
  text != data && text != heap && text != stack && data != heap && data != stack && heap != stack

/-- A configuration is well formed when its four bases are distinct (R52). -/
def Config.wellFormed (c : Config) : Bool :=
  basesDistinct c.textBase c.dataBase c.heapBase c.stackBase

end Sys2Proof
end

