-- ==== Sys2Proof/Decode.lean ====
section
/-! DEFINITION. Fields, decoder and encoder (spec 30_encoding.md), and the byte-order helpers they and the memory
accessors share (20_memory.md R59 to R61). -/

namespace Sys2Proof

/-! ### Byte order: big-endian everywhere (R61) -/

/-- The low `n` bytes of a word, most significant first: byte `k` is bits `8(n-k)-1 : 8(n-k-1)` (R60). -/
def splitBytes : Nat → Word → List Byte
  | 0, _ => []
  | n + 1, v => v.extractLsb' (8 * n) 8 :: splitBytes n v

/-- Bytes, most significant first, as one zero-extended word (R59). -/
def assembleBytes (bs : List Byte) : Word :=
  bs.foldl (fun acc b => (acc <<< 8) ||| b.setWidth 32) 0#32

/-! ### Fields (R81) -/

/-- Bits 31:26. -/
def fieldOpcode (w : Word) : BitVec 6 := w.extractLsb' 26 6
/-- Bits 25:21. -/
def fieldRs (w : Word) : Reg := w.extractLsb' 21 5
/-- Bits 20:16. -/
def fieldRt (w : Word) : Reg := w.extractLsb' 16 5
/-- Bits 15:11. -/
def fieldRd (w : Word) : Reg := w.extractLsb' 11 5
/-- Bits 10:6. -/
def fieldShamt (w : Word) : Shamt := w.extractLsb' 6 5
/-- Bits 5:0. -/
def fieldFunct (w : Word) : BitVec 6 := w.extractLsb' 0 6
/-- Bits 15:0. -/
def fieldImm (w : Word) : Half := w.extractLsb' 0 16
/-- Bits 25:0, which the source calls `address`. -/
def fieldTarget (w : Word) : Target := w.extractLsb' 0 26

/-! ### Decoder -/

/-- Why a decoder rejects what it is given. -/
inductive DecodeError where
  /-- the word's opcode, or its funct under opcode 0, is in no row of R88 and R89 (R90) -/
  | unknownInstruction (w : Word)
  /-- fewer than the four bytes of a word (R80); raised for a list of bytes only, never by a fetch -/
  | truncated
  deriving DecidableEq, Repr

/-- The SPECIAL (opcode 0) sub-dispatch on funct (R89). Fields an instruction does not use are not looked at (R91). -/
def decodeSpecial (w : Word) : Option Instr :=
  match fieldFunct w with
  | 0x00#6 => some (.sll (fieldRd w) (fieldRt w) (fieldShamt w))
  | 0x02#6 => some (.srl (fieldRd w) (fieldRt w) (fieldShamt w) (fieldRs w))
  | 0x03#6 => some (.sra (fieldRd w) (fieldRt w) (fieldShamt w))
  | 0x04#6 => some (.sllv (fieldRd w) (fieldRt w) (fieldRs w))
  | 0x06#6 => some (.srlv (fieldRd w) (fieldRt w) (fieldRs w) (fieldShamt w))
  | 0x07#6 => some (.srav (fieldRd w) (fieldRt w) (fieldRs w))
  | 0x08#6 => some (.jr (fieldRs w))
  | 0x09#6 => some (.jalr (fieldRd w) (fieldRs w))
  | 0x0A#6 => some (.movz (fieldRd w) (fieldRs w) (fieldRt w))
  | 0x0B#6 => some (.movn (fieldRd w) (fieldRs w) (fieldRt w))
  | 0x0C#6 => some .syscall
  | 0x0D#6 => some .brk
  | 0x10#6 => some (.mfhi (fieldRd w))
  | 0x11#6 => some (.mthi (fieldRs w))
  | 0x12#6 => some (.mflo (fieldRd w))
  | 0x13#6 => some (.mtlo (fieldRs w))
  | 0x18#6 => some (.mult (fieldRs w) (fieldRt w))
  | 0x19#6 => some (.multu (fieldRs w) (fieldRt w))
  | 0x1A#6 => some (.div (fieldRs w) (fieldRt w))
  | 0x1B#6 => some (.divu (fieldRs w) (fieldRt w))
  | 0x20#6 => some (.add (fieldRd w) (fieldRs w) (fieldRt w))
  | 0x21#6 => some (.addu (fieldRd w) (fieldRs w) (fieldRt w))
  | 0x22#6 => some (.sub (fieldRd w) (fieldRs w) (fieldRt w))
  | 0x23#6 => some (.subu (fieldRd w) (fieldRs w) (fieldRt w))
  | 0x24#6 => some (.and (fieldRd w) (fieldRs w) (fieldRt w))
  | 0x25#6 => some (.or (fieldRd w) (fieldRs w) (fieldRt w))
  | 0x26#6 => some (.xor (fieldRd w) (fieldRs w) (fieldRt w))
  | 0x27#6 => some (.nor (fieldRd w) (fieldRs w) (fieldRt w))
  | 0x2A#6 => some (.slt (fieldRd w) (fieldRs w) (fieldRt w))
  | 0x2B#6 => some (.sltu (fieldRd w) (fieldRs w) (fieldRt w))
  | 0x30#6 => some (.tge (fieldRs w) (fieldRt w))
  | 0x31#6 => some (.tgeu (fieldRs w) (fieldRt w))
  | 0x32#6 => some (.tlt (fieldRs w) (fieldRt w))
  | 0x33#6 => some (.tltu (fieldRs w) (fieldRt w))
  | 0x34#6 => some (.teq (fieldRs w) (fieldRt w))
  | 0x36#6 => some (.tne (fieldRs w) (fieldRt w))
  | _ => none

/-- The primary dispatch on opcode (R88). -/
def decodePrimary (w : Word) : Option Instr :=
  match fieldOpcode w with
  | 0x00#6 => decodeSpecial w
  | 0x02#6 => some (.j (fieldTarget w))
  | 0x04#6 => some (.beq (fieldRs w) (fieldRt w) (fieldImm w))
  | 0x05#6 => some (.bne (fieldRs w) (fieldRt w) (fieldImm w))
  | 0x08#6 => some (.addi (fieldRt w) (fieldRs w) (fieldImm w))
  | 0x09#6 => some (.addiu (fieldRt w) (fieldRs w) (fieldImm w))
  | 0x0C#6 => some (.andi (fieldRt w) (fieldRs w) (fieldImm w))
  | 0x0F#6 => some (.lui (fieldRt w) (fieldImm w))
  | 0x14#6 => some (.beql (fieldRs w) (fieldRt w) (fieldImm w))
  | 0x23#6 => some (.lw (fieldRt w) (fieldImm w) (fieldRs w))
  | 0x2B#6 => some (.sw (fieldRt w) (fieldImm w) (fieldRs w))
  | _ => none

/-- Decode a word: total, an unlisted opcode or funct is rejected by name with the word (R90, R93). -/
def decode (w : Word) : Except DecodeError Instr :=
  match decodePrimary w with
  | some i => .ok i
  | none => .error (.unknownInstruction w)

/-- Decode the first instruction of a list of bytes, as memory holds it from low to high addresses (R80, R61), and give
back the bytes after it. Total on any list. -/
def decodeBytes : List Byte → Except DecodeError (Instr × List Byte)
  | b0 :: b1 :: b2 :: b3 :: rest =>
    match decode (assembleBytes [b0, b1, b2, b3]) with
    | .ok i => .ok (i, rest)
    | .error e => .error e
  | _ => .error .truncated

/-! ### Encoder -/

/-- R-type word (R82). -/
def encodeR (rs rt rd : Reg) (shamt : Shamt) (funct : BitVec 6) : Word :=
  0#6 ++ rs ++ rt ++ rd ++ shamt ++ funct

/-- I-type word (R83). -/
def encodeI (opcode : BitVec 6) (rs rt : Reg) (imm : Half) : Word :=
  opcode ++ rs ++ rt ++ imm

/-- J-type word (R84). -/
def encodeJ (opcode : BitVec 6) (target : Target) : Word :=
  opcode ++ target

/-- The word of an instruction, ignored fields zero (R88, R89, R91). -/
def encode : Instr → Word
  | .sll rd rt shamt => encodeR 0#5 rt rd shamt 0x00#6
  | .srl rd rt shamt rs => encodeR rs rt rd shamt 0x02#6
  | .sra rd rt shamt => encodeR 0#5 rt rd shamt 0x03#6
  | .sllv rd rt rs => encodeR rs rt rd 0#5 0x04#6
  | .srlv rd rt rs shamt => encodeR rs rt rd shamt 0x06#6
  | .srav rd rt rs => encodeR rs rt rd 0#5 0x07#6
  | .jr rs => encodeR rs 0#5 0#5 0#5 0x08#6
  | .jalr rd rs => encodeR rs 0#5 rd 0#5 0x09#6
  | .movz rd rs rt => encodeR rs rt rd 0#5 0x0A#6
  | .movn rd rs rt => encodeR rs rt rd 0#5 0x0B#6
  | .syscall => encodeR 0#5 0#5 0#5 0#5 0x0C#6
  | .brk => encodeR 0#5 0#5 0#5 0#5 0x0D#6
  | .mfhi rd => encodeR 0#5 0#5 rd 0#5 0x10#6
  | .mthi rs => encodeR rs 0#5 0#5 0#5 0x11#6
  | .mflo rd => encodeR 0#5 0#5 rd 0#5 0x12#6
  | .mtlo rs => encodeR rs 0#5 0#5 0#5 0x13#6
  | .mult rs rt => encodeR rs rt 0#5 0#5 0x18#6
  | .multu rs rt => encodeR rs rt 0#5 0#5 0x19#6
  | .div rs rt => encodeR rs rt 0#5 0#5 0x1A#6
  | .divu rs rt => encodeR rs rt 0#5 0#5 0x1B#6
  | .add rd rs rt => encodeR rs rt rd 0#5 0x20#6
  | .addu rd rs rt => encodeR rs rt rd 0#5 0x21#6
  | .sub rd rs rt => encodeR rs rt rd 0#5 0x22#6
  | .subu rd rs rt => encodeR rs rt rd 0#5 0x23#6
  | .and rd rs rt => encodeR rs rt rd 0#5 0x24#6
  | .or rd rs rt => encodeR rs rt rd 0#5 0x25#6
  | .xor rd rs rt => encodeR rs rt rd 0#5 0x26#6
  | .nor rd rs rt => encodeR rs rt rd 0#5 0x27#6
  | .slt rd rs rt => encodeR rs rt rd 0#5 0x2A#6
  | .sltu rd rs rt => encodeR rs rt rd 0#5 0x2B#6
  | .tge rs rt => encodeR rs rt 0#5 0#5 0x30#6
  | .tgeu rs rt => encodeR rs rt 0#5 0#5 0x31#6
  | .tlt rs rt => encodeR rs rt 0#5 0#5 0x32#6
  | .tltu rs rt => encodeR rs rt 0#5 0#5 0x33#6
  | .teq rs rt => encodeR rs rt 0#5 0#5 0x34#6
  | .tne rs rt => encodeR rs rt 0#5 0#5 0x36#6
  | .j target => encodeJ 0x02#6 target
  | .beq rs rt imm => encodeI 0x04#6 rs rt imm
  | .bne rs rt imm => encodeI 0x05#6 rs rt imm
  | .addi rt rs imm => encodeI 0x08#6 rs rt imm
  | .addiu rt rs imm => encodeI 0x09#6 rs rt imm
  | .andi rt rs imm => encodeI 0x0C#6 rs rt imm
  | .lui rt imm => encodeI 0x0F#6 0#5 rt imm
  | .beql rs rt imm => encodeI 0x14#6 rs rt imm
  | .lw rt imm rs => encodeI 0x23#6 rs rt imm
  | .sw rt imm rs => encodeI 0x2B#6 rs rt imm

/-- The four bytes of an instruction as memory holds them, low address first (R80, R61). -/
def encodeBytes (i : Instr) : List Byte := splitBytes 4 (encode i)

/-- The bits of a word that its instruction uses: opcode, funct where the opcode is 0, and the fields that R91 does not
list as ignored. -/
def usedBits : Instr → Word
  | .sll .. => 0xFC1FFFFF#32
  | .srl .. => 0xFFFFFFFF#32
  | .sra .. => 0xFC1FFFFF#32
  | .sllv .. => 0xFFFFF83F#32
  | .srlv .. => 0xFFFFFFFF#32
  | .srav .. => 0xFFFFF83F#32
  | .jr .. => 0xFFE0003F#32
  | .jalr .. => 0xFFE0F83F#32
  | .movz .. => 0xFFFFF83F#32
  | .movn .. => 0xFFFFF83F#32
  | .syscall => 0xFC00003F#32
  | .brk => 0xFC00003F#32
  | .mfhi .. => 0xFC00F83F#32
  | .mthi .. => 0xFFE0003F#32
  | .mflo .. => 0xFC00F83F#32
  | .mtlo .. => 0xFFE0003F#32
  | .mult .. => 0xFFFF003F#32
  | .multu .. => 0xFFFF003F#32
  | .div .. => 0xFFFF003F#32
  | .divu .. => 0xFFFF003F#32
  | .add .. => 0xFFFFF83F#32
  | .addu .. => 0xFFFFF83F#32
  | .sub .. => 0xFFFFF83F#32
  | .subu .. => 0xFFFFF83F#32
  | .and .. => 0xFFFFF83F#32
  | .or .. => 0xFFFFF83F#32
  | .xor .. => 0xFFFFF83F#32
  | .nor .. => 0xFFFFF83F#32
  | .slt .. => 0xFFFFF83F#32
  | .sltu .. => 0xFFFFF83F#32
  | .tge .. => 0xFFFF003F#32
  | .tgeu .. => 0xFFFF003F#32
  | .tlt .. => 0xFFFF003F#32
  | .tltu .. => 0xFFFF003F#32
  | .teq .. => 0xFFFF003F#32
  | .tne .. => 0xFFFF003F#32
  | .j .. => 0xFFFFFFFF#32
  | .beq .. => 0xFFFFFFFF#32
  | .bne .. => 0xFFFFFFFF#32
  | .addi .. => 0xFFFFFFFF#32
  | .addiu .. => 0xFFFFFFFF#32
  | .andi .. => 0xFFFFFFFF#32
  | .lui .. => 0xFC1FFFFF#32
  | .beql .. => 0xFFFFFFFF#32
  | .lw .. => 0xFFFFFFFF#32
  | .sw .. => 0xFFFFFFFF#32

/-! ### The opcode table's numbering -/

/-- The instruction word whose bits are `w`, `nbits` of them given by a table row and every bit above them 0. -/
def tableWord (nbits w : Nat) : Word := BitVec.ofNat 32 (w % 2 ^ nbits)

/-- The instruction the decoder reads from a word numbered as spec/opcode_table.json numbers it: the word is laid out as
four big-endian bytes and given to `decodeBytes`. -/
def decodeTableWord (nbits w : Nat) : Option Instr :=
  match decodeBytes (splitBytes 4 (tableWord nbits w)) with
  | .ok (i, _) => some i
  | .error _ => none

end Sys2Proof
end

