-- ==== Sys2Proof/Machine/Operands.lean ====
section
/-! DEFINITION. Operand forms: immediate extension, shift amounts, branch, jump and data addresses, and the value
operations of the instruction rules (spec 00_scope.md R9, R10; 30_encoding.md R86, R87). -/

namespace Sys2Proof.Machine

/-- `sext_16`: the word whose signed value is that of the immediate (R10). -/
def signExtend16 (imm : Half) : Word := imm.signExtend 32

/-- `zext_16`: the immediate with bits 31 to 16 zero (R10). -/
def zeroExtend16 (imm : Half) : Word := imm.setWidth 32

/-- A variable shift's amount: the low five bits of the register (R87). -/
def shiftAmount (v : Word) : Nat := (v &&& 0x1F#32).toNat

/-- `v << n` (R9). -/
def shiftLeft (v : Word) (n : Nat) : Word := v <<< n

/-- `v >>u n` (R9). -/
def shiftRightLogical (v : Word) (n : Nat) : Word := v >>> n

/-- `v >>s n` (R9). -/
def shiftRightArith (v : Word) (n : Nat) : Word := v.sshiftRight n

/-- `ror(v, n)` (R9). -/
def rotateRight (v : Word) (n : Nat) : Word :=
  if n = 0 then v else (v >>> n) ||| (v <<< (32 - n))

/-- The word whose upper half is `half` and whose lower half is that of `old` (10_state.md R29). -/
def replaceHigh (half : Half) (old : Word) : Word :=
  (zeroExtend16 half <<< 16) ||| (old &&& 0x0000FFFF#32)

/-- The address of the next instruction in sequence, modulo 2^32 (10_state.md R34, R35). -/
def nextPc (pc : Word) : Word := pc + 4#32

/-- A branch target: `pc + 4 + (sext_16(imm) << 2)`, modulo 2^32 (R87, 45_jump_branch.md R153). -/
def branchTarget (pc : Word) (imm : Half) : Word := pc + 4#32 + (signExtend16 imm <<< 2)

/-- A jump target: `(pc & 0xF0000000) | (zext_26(address) << 2)`, `pc` being the jump's own address (R87,
45_jump_branch.md R152). -/
def jumpTarget (pc : Word) (target : Target) : Word :=
  (pc &&& 0xF0000000#32) ||| ((target.setWidth 32) <<< 2)

/-- A data address: base register plus sign-extended displacement, modulo 2^32 (47_load_store.md, opening). -/
def effectiveAddress (base : Word) (imm : Half) : Word := base + signExtend16 imm

/-- The 64-bit signed product as (HI, LO) (42_hilo_muldiv.md R119). DEDUCED: where R123's law on the two HI halves disagrees with
the pseudocode of R119 and R120, the pseudocode is followed (log entry 25). -/
def mulSigned (a b : Word) : Word × Word :=
  let t : BitVec 64 := BitVec.ofInt 64 (a.toInt * b.toInt)
  (t.extractLsb' 32 32, t.extractLsb' 0 32)

/-- The 64-bit unsigned product as (HI, LO) (R120; log entry 25 as for `mulSigned`). -/
def mulUnsigned (a b : Word) : Word × Word :=
  let p := a.toNat * b.toNat
  (BitVec.ofNat 32 (p / 2 ^ 32), BitVec.ofNat 32 p)

/-- Signed division as (HI, LO): remainder and quotient truncated toward zero, both 0 for a zero divisor (R121). The
overflowing case takes the general rule modulo 2^32 here; whether it is reached is DIV_OVERFLOW's matter. -/
def divSigned (a b : Word) : Word × Word :=
  if b = 0#32 then (0#32, 0#32)
  else
    let q := a.toInt.tdiv b.toInt
    (BitVec.ofInt 32 (a.toInt - q * b.toInt), BitVec.ofInt 32 q)

/-- Unsigned division as (HI, LO): remainder and quotient, both 0 for a zero divisor (R122). -/
def divUnsigned (a b : Word) : Word × Word :=
  if b = 0#32 then (0#32, 0#32)
  else (BitVec.ofNat 32 (a.toNat % b.toNat), BitVec.ofNat 32 (a.toNat / b.toNat))

end Sys2Proof.Machine
end

