-- ==== Sys2Proof/Machine/State.lean ====
section
/-! DEFINITION. The state of the block as plain data (spec 10_state.md, 20_memory.md R51), the reasons a step can stop
(60_exceptions.md R185), and the state right after power-on (10_state.md R43, 70_reset_and_hazards.md R200). -/

namespace Sys2Proof.Machine

/-- The four segments (20_memory.md R51). -/
inductive Segment where
  | text
  | data
  | heap
  | stack
  deriving DecidableEq, Repr

/-- A growable byte buffer (20_memory.md R51): `len` bytes exist, at indices 0 to `len - 1`. A `Host.Cell` here is an
(index, byte) pair. An index below `len` that `cells` does not list holds 0, the value zero-fill growth gives it (R58); an
index at or past `len` does not exist (R57). Bytes are named by their index in a buffer and not by address, because one
address can name a byte of two buffers (R56; log entry 3). -/
structure Buffer where
  len : Nat := 0
  cells : List Host.Cell := []
  deriving DecidableEq, Repr

/-- The memory: the four segment bases and the four buffers (10_state.md R41). -/
structure Memory where
  /-- `text_address` -/
  textBase : Word
  /-- `data_address` -/
  dataBase : Word
  /-- `heap_address` -/
  heapBase : Word
  /-- `stack_address` -/
  stackBase : Word
  text : Buffer := {}
  data : Buffer := {}
  heap : Buffer := {}
  stack : Buffer := {}
  deriving DecidableEq, Repr

/-- The terminal condition of the core, a closed enumeration (10_state.md R38). -/
inductive Exception where
  | none
  | breakpoint
  | integerOverflow
  | trap
  deriving DecidableEq, Repr

/-- The fatal conditions of 60_exceptions.md R185, each with its info. A fatal condition ends the run with no successor
state (R186), so nothing is claimed of the state after it: safe (log entry 5). -/
inductive Fault where
  /-- raised by a fetch with `pc[1:0] ≠ 0`; info `pc` (20_memory.md R62): safe, the spec's reading of "unspecified/fatal" -/
  | misalignedFetch (pc : Word)
  /-- raised by an access (fetch, lw, sw, host) whose first byte lies below the lowest base; info the address (R54): safe -/
  | invalidAddress (a : Word)
  /-- raised by an access to the stack with a byte above STACK_TOP_BYTE; info that byte's address, an integer (R55): safe -/
  | stackAboveTop (b : Nat)
  /-- raised by a read (fetch, lw, host) of a byte at or past its buffer's length; info the access's address (R57): safe -/
  | readOutOfBounds (a : Word)
  /-- raised by the decode of a word in no row of R88 and R89; info the word (R90): safe -/
  | unknownInstruction (w : Word)
  /-- raised by `syscall` with `v0 ≠ 10`; info `v0` (41_system.md R110): safe -/
  | unknownSyscall (v0 : Word)
  /-- raised by `div` of 0x80000000 by 0xFFFFFFFF when DIV_OVERFLOW = fatal; info `pc` (42_hilo_muldiv.md R121): safe -/
  | divideOverflow (pc : Word)
  deriving DecidableEq, Repr

/-- What the model refuses before it runs (93_implementation_defined.md, treatment `refuse`), and an arm of `exec`
without a meaning. -/
inductive Refusal where
  /-- an instruction of the table that has no meaning in this model yet: safe (no arm raises it now) -/
  | notModelled (mnemonic : String)
  /-- the segment bases are not distinct (20_memory.md R52, U15); raised by `step`, by power-on and by the ELF load: safe -/
  | basesNotDistinct
  /-- an ELF file that fails validation or whose headers reach outside the file (70_reset_and_hazards.md R206, U10); raised
  by the ELF load only, the block is never started: safe -/
  | malformedElf
  /-- an ELF segment whose destination is the heap or the stack; info its physical address (R209, U17); raised by the ELF
  load only, the block is never started: safe -/
  | unsupportedSegment (paddr : Word)
  deriving DecidableEq, Repr

/-- The complete state of the block (10_state.md, opening paragraph and R43), with the parameters it was built for. -/
structure State where
  /-- the parameters (00_scope.md R6); no step changes them -/
  cfg : Config
  /-- the 32 general registers; slot 0 is never read (R25, R27) -/
  regs : Vector Word 32
  /-- a byte address; during a step, that of the instruction being executed (R33) -/
  pc : Word
  /-- `HI` (R36) -/
  hi : Word
  /-- `LO` (R36) -/
  lo : Word
  /-- R37 -/
  halted : Bool
  /-- R38 -/
  exception : Exception
  /-- the jump flag, which lives for one step only (R39) -/
  jump : Bool
  mem : Memory
  deriving DecidableEq, Repr

/-- The state at power-on under a configuration: every field at its value of 10_state.md R43, all four buffers empty
(70_reset_and_hazards.md R200). -/
def State.powerOn (c : Config) : State where
  cfg := c
  regs := ((Vector.replicate 32 0#32).set 28 c.gpReset).set 29 c.spReset
  pc := c.pcReset
  hi := 0#32
  lo := 0#32
  halted := false
  exception := .none
  jump := false
  mem := {
    textBase := c.textBase
    dataBase := c.dataBase
    heapBase := c.heapBase
    stackBase := c.stackBase }

/-- The machine right after reset: power-on with every parameter at its default (R43, R200). -/
def State.reset : State := State.powerOn Config.default

end Sys2Proof.Machine
end

