-- ==== Sys2Proof/Machine/Ops.lean ====
section
/-! DEFINITION. The named operations over the state that instructions, the step and the host share: register ports,
program counter and jump flag, taking an exception, the segmented memory and its accessors, fetch. -/

namespace Sys2Proof.Machine

/-! ### General registers (spec 10_state.md R27 to R29) -/

/-- Read port: index 0 always reads 0 (R27). -/
def State.readReg (s : State) (r : Reg) : Word :=
  if r = 0#5 then 0#32 else s.regs[r.toNat]

/-- Write port: a write to index 0 is a no-op (R28). -/
def State.writeReg (s : State) (r : Reg) (v : Word) : State :=
  if r = 0#5 then s else { s with regs := s.regs.set r.toNat v }

/-- Write-high port: replaces the upper 16 bits, keeps the lower 16; a no-op for index 0 (R29). -/
def State.writeHigh (s : State) (r : Reg) (half : Half) : State :=
  s.writeReg r (replaceHigh half (s.readReg r))

/-! ### HI and LO (R36) -/

/-- Write `HI` and `LO` from a (HI, LO) pair. -/
def State.writeHiLo (s : State) (p : Word × Word) : State := { s with hi := p.1, lo := p.2 }

/-! ### Program counter and jump flag (R34, R39; 60_exceptions.md R180) -/

/-- The jump flag is cleared at the start of every step. -/
def State.beginStep (s : State) : State := { s with jump := false }

/-- `pc <- target` inside an instruction: sets the program counter for the next step and the jump flag (00_scope.md R13). -/
def State.jumpTo (s : State) (target : Word) : State := { s with pc := target, jump := true }

/-- The post-dispatch update: `pc` advances by 4 unless the step jumped; the flag is not carried to the next step. -/
def State.postDispatch (s : State) : State :=
  { s with pc := if s.jump then s.pc else nextPc s.pc, jump := false }

/-! ### Exceptions -/

/-- Taking a modeled exception, and the `syscall` exit (exception value None): what the instruction has written stays,
`halted` is set and `exception` records the value; nothing is saved, no mode changes and no control is transferred. `pc`
still takes the post-dispatch advance (60_exceptions.md R183, R188). -/
def State.takeException (s : State) (e : Exception) : State :=
  { s with halted := true, exception := e }

/-- `if c then raise e` as the last line of an instruction's pseudocode. -/
def State.raiseIf (s : State) (c : Bool) (e : Exception) : State :=
  if c then s.takeException e else s

/-- The only way out of the halted state, there being no return from an exception (R189): the host's reset. Every
register, `pc`, `HI`, `LO`, `halted` and `exception` take their reset values; bases and buffers keep their contents
(70_reset_and_hazards.md R201). -/
def State.hostReset (s : State) : State := { State.powerOn s.cfg with mem := s.mem }

/-- The numeric code of an exception value (10_state.md R38, the spec's decision D5). -/
def Exception.code : Exception → Nat
  | .none => 0
  | .breakpoint => 1
  | .integerOverflow => 2
  | .trap => 3

/-! ### Buffers (20_memory.md R57, R58) -/

/-- The byte an index holds in a cell list, 0 where it is not listed. -/
def lookupCell : List Host.Cell → Nat → Byte
  | [], _ => 0#8
  | (k, v) :: rest, i => if k = i then v else lookupCell rest i

/-- Set one byte in a rising cell list; a zero is not listed. -/
def insertCell : List Host.Cell → Nat → Byte → List Host.Cell
  | [], i, v => if v = 0#8 then [] else [(i, v)]
  | (k, x) :: rest, i, v =>
    if k < i then (k, x) :: insertCell rest i v
    else if k = i then (if v = 0#8 then rest else (i, v) :: rest)
    else (if v = 0#8 then (k, x) :: rest else (i, v) :: (k, x) :: rest)

/-- A cell list is in canonical form above `lo` and below `len`: indices strictly rising, no zero byte listed. -/
def cellsWf (len : Nat) : Nat → List Host.Cell → Bool
  | _, [] => true
  | lo, (k, v) :: rest => decide (lo ≤ k) && decide (k < len) && v != 0#8 && cellsWf len (k + 1) rest

/-- A buffer is in canonical form. -/
def Buffer.wf (b : Buffer) : Bool := cellsWf b.len 0 b.cells

/-- The byte at an index, or none where it does not exist (R57). -/
def Buffer.get (b : Buffer) (i : Nat) : Option Byte :=
  if i < b.len then some (lookupCell b.cells i) else none

/-- Grow, zero-filled, to at least `n` bytes; a buffer never shrinks (R58). -/
def Buffer.grow (b : Buffer) (n : Nat) : Buffer := { b with len := max b.len n }

/-- Write one byte, growing the buffer first when the index is past its end (R58). -/
def Buffer.set (b : Buffer) (i : Nat) (v : Byte) : Buffer :=
  { len := max b.len (i + 1), cells := insertCell b.cells i v }

/-- The bytes of a buffer in index order. -/
def Buffer.bytes (b : Buffer) : List Byte := (List.range b.len).map (lookupCell b.cells)

/-! ### Segments and translation (20_memory.md R52 to R56) -/

/-- A segment's base address. -/
def Memory.base (m : Memory) : Segment → Word
  | .text => m.textBase
  | .data => m.dataBase
  | .heap => m.heapBase
  | .stack => m.stackBase

/-- A segment's buffer. -/
def Memory.buffer (m : Memory) : Segment → Buffer
  | .text => m.text
  | .data => m.data
  | .heap => m.heap
  | .stack => m.stack

/-- Replace a segment's buffer. -/
def Memory.setBuffer (m : Memory) (seg : Segment) (b : Buffer) : Memory :=
  match seg with
  | .text => { m with text := b }
  | .data => { m with data := b }
  | .heap => { m with heap := b }
  | .stack => { m with stack := b }

/-- The four bases are distinct (R52). -/
def Memory.basesDistinct (m : Memory) : Bool :=
  Sys2Proof.basesDistinct m.textBase m.dataBase m.heapBase m.stackBase

/-- The memory is in its canonical form: each buffer is. -/
def Memory.wf (m : Memory) : Bool := m.text.wf && m.data.wf && m.heap.wf && m.stack.wf

/-- Insert a (base, segment) pair into a list sorted by base ascending. -/
def insertBase (p : Word × Segment) : List (Word × Segment) → List (Word × Segment)
  | [] => [p]
  | q :: qs => if p.1.toNat ≤ q.1.toNat then p :: q :: qs else q :: insertBase p qs

/-- The four (base, segment) pairs sorted by base ascending (R53). -/
def Memory.sortedBases (m : Memory) : List (Word × Segment) :=
  insertBase (m.textBase, .text) (insertBase (m.dataBase, .data)
    (insertBase (m.heapBase, .heap) [(m.stackBase, .stack)]))

/-- Walk sorted bases to the last one not above `a`; `found` is the segment of the last base passed. -/
def lastBaseAtMost (a : Word) : Option Segment → List (Word × Segment) → Option Segment
  | found, [] => found
  | found, (b, seg) :: rest =>
    if b.toNat ≤ a.toNat then lastBaseAtMost a (some seg) rest else found

/-- `resolve_segment`: the segment whose interval `[base_i, next_base)` holds the address, the highest segment above the
highest base, InvalidAddress below the lowest (R53, R54). -/
def Memory.resolve (m : Memory) (a : Word) : Except Fault Segment :=
  match lastBaseAtMost a none m.sortedBases with
  | some seg => .ok seg
  | none => .error (.invalidAddress a)

/-- `index`: the place of the byte at (integer) address `b` in a segment's buffer; the stack counts down from
STACK_TOP_BYTE and has nothing above it (R55). -/
def Memory.index (m : Memory) (top : Word) (seg : Segment) (b : Nat) : Except Fault Nat :=
  match seg with
  | .text => .ok (b - m.textBase.toNat)
  | .data => .ok (b - m.dataBase.toNat)
  | .heap => .ok (b - m.heapBase.toNat)
  | .stack => if b ≤ top.toNat then .ok (top.toNat - b) else .error (.stackAboveTop b)

/-! ### Accessors (20_memory.md R59, R60, R63) -/

/-- The widths of an access: 1, 2 or 4 bytes. -/
inductive Width where
  | byte
  | half
  | word
  deriving DecidableEq, Repr

/-- The number of bytes of a width. -/
def Width.bytes : Width → Nat
  | .byte => 1
  | .half => 2
  | .word => 4

/-- Byte `k` of an access at `a` that resolved to `seg` (R55 to R57). -/
def Memory.readByte (m : Memory) (top : Word) (seg : Segment) (a : Word) (k : Nat) : Except Fault Byte :=
  match m.index top seg (a.toNat + k) with
  | .error f => .error f
  | .ok i =>
    match (m.buffer seg).get i with
    | some v => .ok v
    | none => .error (.readOutOfBounds a)

/-- Bytes `k` to `k + n - 1` of an access, in order (R59). -/
def Memory.readBytes (m : Memory) (top : Word) (seg : Segment) (a : Word) : Nat → Nat → Except Fault (List Byte)
  | _, 0 => .ok []
  | k, n + 1 =>
    match m.readByte top seg a k with
    | .error f => .error f
    | .ok v =>
      match m.readBytes top seg a (k + 1) n with
      | .error f => .error f
      | .ok vs => .ok (v :: vs)

/-- `MemRead(a, n)`: the segment is resolved once, the bytes are assembled big-endian and zero-extended (R59). -/
def Memory.read (m : Memory) (top : Word) (w : Width) (a : Word) : Except Fault Word :=
  match m.resolve a with
  | .error f => .error f
  | .ok seg =>
    match m.readBytes top seg a 0 w.bytes with
    | .error f => .error f
    | .ok bs => .ok (assembleBytes bs)

/-- Store bytes as bytes `k`, `k + 1`, … of an access, in order (R60). -/
def Memory.writeBytes (top : Word) (seg : Segment) (a : Word) : Nat → List Byte → Memory → Except Fault Memory
  | _, [], m => .ok m
  | k, v :: vs, m =>
    match m.index top seg (a.toNat + k) with
    | .error f => .error f
    | .ok i => Memory.writeBytes top seg a (k + 1) vs (m.setBuffer seg ((m.buffer seg).set i v))

/-- `MemWrite(a, n, v)`: the low `8n` bits of `v`, big-endian (R60). -/
def Memory.write (m : Memory) (top : Word) (w : Width) (a : Word) (v : Word) : Except Fault Memory :=
  match m.resolve a with
  | .error f => .error f
  | .ok seg => Memory.writeBytes top seg a 0 (splitBytes w.bytes v) m

/-- A read through the state's accessor (`read_byte`, `read_half`, `read_word`). -/
def State.readMem (s : State) (w : Width) (a : Word) : Except Fault Word :=
  s.mem.read s.cfg.stackTopByte w a

/-- A write through the state's accessor (`write_byte`, `write_half`, `write_word`). -/
def State.writeMem (s : State) (w : Width) (a : Word) (v : Word) : Except Fault State :=
  match s.mem.write s.cfg.stackTopByte w a v with
  | .error f => .error f
  | .ok m => .ok { s with mem := m }

/-! ### Fetch and decode (60_exceptions.md R180) -/

/-- Fetch the word at `pc`, which must be word-aligned (20_memory.md R62), through the ordinary accessor. -/
def State.fetch (s : State) : Except Fault Word :=
  if s.pc &&& 3#32 = 0#32 then s.readMem .word s.pc else .error (.misalignedFetch s.pc)

/-- The instruction a step executes, or the fatal condition of its fetch or decode, in the order of R187. -/
def State.fetchDecode (s : State) : Except Fault Instr :=
  match s.fetch with
  | .error f => .error f
  | .ok w =>
    match decode w with
    | .ok i => .ok i
    | .error _ => .error (.unknownInstruction w)

/-- The end of a step: the post-dispatch update where the instruction left a next state (R180). -/
def finishStep : Host.Outcome State Fault Refusal → Host.Outcome State Fault Refusal
  | .next s => .next s.postDispatch
  | .fault f => .fault f
  | .refused r => .refused r

end Sys2Proof.Machine
end

