-- ==== Sys2Proof/Machine/AluImm.lean ====
section
/-! DEFINITION. Meanings of the immediate arithmetic and logic instructions (spec 46_alu_immediate.md R160 to R163). -/

namespace Sys2Proof.Machine

/-- `x[rt] <- x[rs] + sext_16(imm)` modulo 2^32, then IntegerOverflow when the signed sum overflows (R160). -/
def execAddi (rt rs : Reg) (imm : Half) (s : State) : Host.Outcome State Fault Refusal :=
  .next ((s.writeReg rt (s.readReg rs + signExtend16 imm)).raiseIf
    (addOverflows (s.readReg rs) (signExtend16 imm)) .integerOverflow)

/-- `x[rt] <- x[rs] + sext_16(imm)` modulo 2^32, no exception (R161). -/
def execAddiu (rt rs : Reg) (imm : Half) (s : State) : Host.Outcome State Fault Refusal :=
  .next (s.writeReg rt (s.readReg rs + signExtend16 imm))

/-- `x[rt] <- x[rs] & zext_16(imm)` (R162). -/
def execAndi (rt rs : Reg) (imm : Half) (s : State) : Host.Outcome State Fault Refusal :=
  .next (s.writeReg rt (s.readReg rs &&& zeroExtend16 imm))

/-- `xhigh[rt] <- imm`: the low half keeps its old value (R163). -/
def execLui (rt : Reg) (imm : Half) (s : State) : Host.Outcome State Fault Refusal :=
  .next (s.writeHigh rt imm)

end Sys2Proof.Machine
end

