-- ==== Sys2Proof/Machine/AluReg.lean ====
section
/-! DEFINITION. Meanings of the register arithmetic, logic and compare instructions (spec 43_alu_register.md R125 to R134). -/

namespace Sys2Proof.Machine

/-- `x[rd] <- x[rs] + x[rt]` modulo 2^32, then IntegerOverflow when the signed sum overflows; the test uses the operands read
before the write (R125). -/
def execAdd (rd rs rt : Reg) (s : State) : Host.Outcome State Fault Refusal :=
  .next ((s.writeReg rd (s.readReg rs + s.readReg rt)).raiseIf
    (addOverflows (s.readReg rs) (s.readReg rt)) .integerOverflow)

/-- `x[rd] <- x[rs] + x[rt]` modulo 2^32, no exception (R126). -/
def execAddu (rd rs rt : Reg) (s : State) : Host.Outcome State Fault Refusal :=
  .next (s.writeReg rd (s.readReg rs + s.readReg rt))

/-- `x[rd] <- x[rs] - x[rt]` modulo 2^32, then IntegerOverflow when the signed difference overflows (R127). -/
def execSub (rd rs rt : Reg) (s : State) : Host.Outcome State Fault Refusal :=
  .next ((s.writeReg rd (s.readReg rs - s.readReg rt)).raiseIf
    (subOverflows (s.readReg rs) (s.readReg rt)) .integerOverflow)

/-- `x[rd] <- x[rs] - x[rt]` modulo 2^32, no exception (R128). -/
def execSubu (rd rs rt : Reg) (s : State) : Host.Outcome State Fault Refusal :=
  .next (s.writeReg rd (s.readReg rs - s.readReg rt))

/-- `x[rd] <- x[rs] & x[rt]` (R129). -/
def execAnd (rd rs rt : Reg) (s : State) : Host.Outcome State Fault Refusal :=
  .next (s.writeReg rd (s.readReg rs &&& s.readReg rt))

/-- `x[rd] <- x[rs] | x[rt]` (R130). -/
def execOr (rd rs rt : Reg) (s : State) : Host.Outcome State Fault Refusal :=
  .next (s.writeReg rd (s.readReg rs ||| s.readReg rt))

/-- `x[rd] <- x[rs] ^ x[rt]` (R131). -/
def execXor (rd rs rt : Reg) (s : State) : Host.Outcome State Fault Refusal :=
  .next (s.writeReg rd (s.readReg rs ^^^ s.readReg rt))

/-- `x[rd] <- ~(x[rs] | x[rt])` (R132). -/
def execNor (rd rs rt : Reg) (s : State) : Host.Outcome State Fault Refusal :=
  .next (s.writeReg rd (~~~(s.readReg rs ||| s.readReg rt)))

/-- `x[rd] <- (s(x[rs]) < s(x[rt]) ? 1 : 0)` (R133). -/
def execSlt (rd rs rt : Reg) (s : State) : Host.Outcome State Fault Refusal :=
  .next (s.writeReg rd (boolWord (lessSigned (s.readReg rs) (s.readReg rt))))

/-- `x[rd] <- (u(x[rs]) < u(x[rt]) ? 1 : 0)` (R134). -/
def execSltu (rd rs rt : Reg) (s : State) : Host.Outcome State Fault Refusal :=
  .next (s.writeReg rd (boolWord (lessUnsigned (s.readReg rs) (s.readReg rt))))

end Sys2Proof.Machine
end

