-- ==== Sys2Proof/Machine/HiLo.lean ====
section
/-! DEFINITION. Meanings of the HI/LO moves, multiply and divide (spec 42_hilo_muldiv.md R115 to R122). -/

namespace Sys2Proof.Machine

/-- `x[rd] <- HI` (R115). -/
def execMfhi (rd : Reg) (s : State) : Host.Outcome State Fault Refusal :=
  .next (s.writeReg rd s.hi)

/-- `HI <- x[rs]` (R116). -/
def execMthi (rs : Reg) (s : State) : Host.Outcome State Fault Refusal :=
  .next (s.writeHiLo (s.readReg rs, s.lo))

/-- `x[rd] <- LO` (R117). -/
def execMflo (rd : Reg) (s : State) : Host.Outcome State Fault Refusal :=
  .next (s.writeReg rd s.lo)

/-- `LO <- x[rs]` (R118). -/
def execMtlo (rs : Reg) (s : State) : Host.Outcome State Fault Refusal :=
  .next (s.writeHiLo (s.hi, s.readReg rs))

/-- The signed 64-bit product in `HI`, `LO` (R119). -/
def execMult (rs rt : Reg) (s : State) : Host.Outcome State Fault Refusal :=
  .next (s.writeHiLo (mulSigned (s.readReg rs) (s.readReg rt)))

/-- The unsigned 64-bit product in `HI`, `LO` (R120). -/
def execMultu (rs rt : Reg) (s : State) : Host.Outcome State Fault Refusal :=
  .next (s.writeHiLo (mulUnsigned (s.readReg rs) (s.readReg rt)))

/-- Signed division: quotient in `LO`, remainder in `HI`, both 0 for a zero divisor; the overflowing pair is fatal only under
DIV_OVERFLOW = fatal (R121). -/
def execDiv (rs rt : Reg) (s : State) : Host.Outcome State Fault Refusal :=
  if divOverflows (s.readReg rs) (s.readReg rt) && s.cfg.divOverflow == .fatal then .fault (.divideOverflow s.pc)
  else .next (s.writeHiLo (divSigned (s.readReg rs) (s.readReg rt)))

/-- Unsigned division: quotient in `LO`, remainder in `HI`, both 0 for a zero divisor (R122). -/
def execDivu (rs rt : Reg) (s : State) : Host.Outcome State Fault Refusal :=
  .next (s.writeHiLo (divUnsigned (s.readReg rs) (s.readReg rt)))

end Sys2Proof.Machine
end

