-- ==== Sys2Proof/Machine/JumpBranch.lean ====
section
/-! DEFINITION. Meanings of the jumps and branches (spec 45_jump_branch.md R150 to R155). `pc` is the address of the jump or branch
itself (10_state.md R33); there are no delay slots and no target is checked for alignment at the jump. -/

namespace Sys2Proof.Machine

/-- `pc <- x[rs]` (R150). -/
def execJr (rs : Reg) (s : State) : Host.Outcome State Fault Refusal :=
  .next (s.jumpTo (s.readReg rs))

/-- `x[rd] <- pc + 4`, then `pc <- x[rs]` with `x[rs]` read before the link is written (R151). -/
def execJalr (rd rs : Reg) (s : State) : Host.Outcome State Fault Refusal :=
  .next ((s.writeReg rd (nextPc s.pc)).jumpTo (s.readReg rs))

/-- `pc <- (pc & 0xF0000000) | (zext_26(address) << 2)` (R152). -/
def execJ (target : Target) (s : State) : Host.Outcome State Fault Refusal :=
  .next (s.jumpTo (jumpTarget s.pc target))

/-- `if x[rs] = x[rt] then pc <- pc + 4 + (sext_16(imm) << 2)` (R153). -/
def execBeq (rs rt : Reg) (imm : Half) (s : State) : Host.Outcome State Fault Refusal :=
  .next (if s.readReg rs = s.readReg rt then s.jumpTo (branchTarget s.pc imm) else s)

/-- `if x[rs] ≠ x[rt] then pc <- pc + 4 + (sext_16(imm) << 2)` (R154). -/
def execBne (rs rt : Reg) (imm : Half) (s : State) : Host.Outcome State Fault Refusal :=
  .next (if s.readReg rs = s.readReg rt then s else s.jumpTo (branchTarget s.pc imm))

/-- Treated as `beq`: nothing is annulled when the branch is not taken (R155). -/
def execBeql (rs rt : Reg) (imm : Half) (s : State) : Host.Outcome State Fault Refusal :=
  .next (if s.readReg rs = s.readReg rt then s.jumpTo (branchTarget s.pc imm) else s)

end Sys2Proof.Machine
end

