-- ==== Sys2Proof/Machine/LoadStore.lean ====
section
/-! DEFINITION. Meanings of the load and the store (spec 47_load_store.md R170, R171). -/

namespace Sys2Proof.Machine

/-- `x[rt] <- MemRead(x[rs] + sext_16(imm), 4)`; the access happens, and may be fatal, for `rt = 0` too (R170). -/
def execLw (rt : Reg) (imm : Half) (rs : Reg) (s : State) : Host.Outcome State Fault Refusal :=
  match s.readMem .word (effectiveAddress (s.readReg rs) imm) with
  | .ok v => .next (s.writeReg rt v)
  | .error f => .fault f

/-- `MemWrite(x[rs] + sext_16(imm), 4, x[rt])` (R171). -/
def execSw (rt : Reg) (imm : Half) (rs : Reg) (s : State) : Host.Outcome State Fault Refusal :=
  match s.writeMem .word (effectiveAddress (s.readReg rs) imm) (s.readReg rt) with
  | .ok t => .next t
  | .error f => .fault f

end Sys2Proof.Machine
end

