-- ==== Sys2Proof/Machine/ShiftMove.lean ====
section
/-! DEFINITION. Meanings of the shifts, rotates and conditional moves (spec 40_shift_move.md R100 to R107). -/

namespace Sys2Proof.Machine

/-- `x[rd] <- x[rt] << shamt` (R100). -/
def execSll (rd rt : Reg) (shamt : Shamt) (s : State) : Host.Outcome State Fault Refusal :=
  .next (s.writeReg rd (shiftLeft (s.readReg rt) shamt.toNat))

/-- Logical right shift when the `rs` field is 0, rotate right for every other value of the field (R101, R92). -/
def execSrl (rd rt : Reg) (shamt : Shamt) (rs : Reg) (s : State) : Host.Outcome State Fault Refusal :=
  .next (s.writeReg rd
    (if rs = 0#5 then shiftRightLogical (s.readReg rt) shamt.toNat
      else rotateRight (s.readReg rt) shamt.toNat))

/-- `x[rd] <- x[rt] >>s shamt` (R102). -/
def execSra (rd rt : Reg) (shamt : Shamt) (s : State) : Host.Outcome State Fault Refusal :=
  .next (s.writeReg rd (shiftRightArith (s.readReg rt) shamt.toNat))

/-- `x[rd] <- x[rt] << (x[rs] & 0x1f)` (R103). -/
def execSllv (rd rt rs : Reg) (s : State) : Host.Outcome State Fault Refusal :=
  .next (s.writeReg rd (shiftLeft (s.readReg rt) (shiftAmount (s.readReg rs))))

/-- Rotate right by `x[rs] & 0x1f` when the `shamt` field is exactly 1, logical right shift for every other value (R104,
R92). -/
def execSrlv (rd rt rs : Reg) (shamt : Shamt) (s : State) : Host.Outcome State Fault Refusal :=
  .next (s.writeReg rd
    (if shamt = 1#5 then rotateRight (s.readReg rt) (shiftAmount (s.readReg rs))
      else shiftRightLogical (s.readReg rt) (shiftAmount (s.readReg rs))))

/-- `x[rd] <- x[rt] >>s (x[rs] & 0x1f)` (R105). -/
def execSrav (rd rt rs : Reg) (s : State) : Host.Outcome State Fault Refusal :=
  .next (s.writeReg rd (shiftRightArith (s.readReg rt) (shiftAmount (s.readReg rs))))

/-- `if x[rt] = 0 then x[rd] <- x[rs]` (R106). -/
def execMovz (rd rs rt : Reg) (s : State) : Host.Outcome State Fault Refusal :=
  .next (if s.readReg rt = 0#32 then s.writeReg rd (s.readReg rs) else s)

/-- `if x[rt] ≠ 0 then x[rd] <- x[rs]` (R107). -/
def execMovn (rd rs rt : Reg) (s : State) : Host.Outcome State Fault Refusal :=
  .next (if s.readReg rt = 0#32 then s else s.writeReg rd (s.readReg rs))

end Sys2Proof.Machine
end

