-- ==== Sys2Proof/Machine/System.lean ====
section
/-! DEFINITION. Meanings of the system instructions (spec 41_system.md R110, R111). -/

namespace Sys2Proof.Machine

/-- The register `syscall` reads its service code from: `v0`, index 2 (10_state.md R26). -/
abbrev regV0 : Reg := 2#5

/-- SYSCALL_EXIT_CODE (00_scope.md R6: not marked as a parameter). -/
abbrev syscallExitCode : Word := 10#32

/-- Service 10 halts with the exception value None; any other code is the fatal condition UnknownSyscall (R110). -/
def execSyscall (s : State) : Host.Outcome State Fault Refusal :=
  if s.readReg regV0 = syscallExitCode then .next (s.takeException .none)
  else .fault (.unknownSyscall (s.readReg regV0))

/-- `raise Breakpoint()` (R111). -/
def execBrk (s : State) : Host.Outcome State Fault Refusal :=
  .next (s.takeException .breakpoint)

end Sys2Proof.Machine
end

