-- ==== Sys2Proof/Machine/Trap.lean ====
section
/-! DEFINITION. Meanings of the conditional trap instructions (spec 44_trap.md R140 to R145). -/

namespace Sys2Proof.Machine

/-- `if s(x[rs]) >= s(x[rt]) then raise Trap()` (R140). -/
def execTge (rs rt : Reg) (s : State) : Host.Outcome State Fault Refusal :=
  .next (s.raiseIf (geSigned (s.readReg rs) (s.readReg rt)) .trap)

/-- `if u(x[rs]) >= u(x[rt]) then raise Trap()` (R141). -/
def execTgeu (rs rt : Reg) (s : State) : Host.Outcome State Fault Refusal :=
  .next (s.raiseIf (geUnsigned (s.readReg rs) (s.readReg rt)) .trap)

/-- `if s(x[rs]) < s(x[rt]) then raise Trap()` (R142). -/
def execTlt (rs rt : Reg) (s : State) : Host.Outcome State Fault Refusal :=
  .next (s.raiseIf (lessSigned (s.readReg rs) (s.readReg rt)) .trap)

/-- `if u(x[rs]) < u(x[rt]) then raise Trap()` (R143). -/
def execTltu (rs rt : Reg) (s : State) : Host.Outcome State Fault Refusal :=
  .next (s.raiseIf (lessUnsigned (s.readReg rs) (s.readReg rt)) .trap)

/-- `if x[rs] = x[rt] then raise Trap()` (R144). -/
def execTeq (rs rt : Reg) (s : State) : Host.Outcome State Fault Refusal :=
  .next (s.raiseIf (s.readReg rs == s.readReg rt) .trap)

/-- `if x[rs] ≠ x[rt] then raise Trap()` (R145). -/
def execTne (rs rt : Reg) (s : State) : Host.Outcome State Fault Refusal :=
  .next (s.raiseIf (s.readReg rs != s.readReg rt) .trap)

end Sys2Proof.Machine
end

