-- ==== Sys2Proof/Machine/Step.lean ====
section
/-! DEFINITION. One step of the machine (spec 60_exceptions.md R180, R184, R187), and the fixed name by which the host
places an instruction where the next step fetches it. -/

namespace Sys2Proof.Machine

/-- One step: nothing while halted (R184); a configuration whose bases are not distinct is refused before it runs
(20_memory.md R52; log entry 1); otherwise the jump flag is cleared, the word at `pc` is fetched and decoded, the
instruction is executed and `pc` takes its post-dispatch update. -/
def step (s : State) : Host.Outcome State Fault Refusal :=
  if s.halted then .next s
  else if s.mem.basesDistinct then
    match s.beginStep.fetchDecode with
    | .error f => .fault f
    | .ok i => finishStep (exec i s.beginStep)
  else .refused .basesNotDistinct

/-- The state with an instruction word, numbered as spec/opcode_table.json numbers it, stored big-endian at `pc`, through
the ordinary accessor; it stands for the host's load (70_reset_and_hazards.md R203; log entry 4). -/
def State.withFetchWord (s : State) (nbits w : Nat) : State :=
  match s.writeMem .word s.pc (tableWord nbits w) with
  | .ok t => t
  | .error _ => s

end Sys2Proof.Machine
end

