-- ==== Sys2Proof/Machine/Elf.lean ====
section
/-! DEFINITION. The ELF load, the host's boot interface: the state it leaves in the block, and when it refuses to start it
(spec 70_reset_and_hazards.md R204 to R209). A read outside the file is a malformed file (93_implementation_defined.md
U10). File offsets are natural numbers (log entry 10). -/

namespace Sys2Proof.Machine

/-- `n` bytes of a file from an offset, none if the file does not hold them. -/
def fileBytes (file : List Byte) (off n : Nat) : Option (List Byte) :=
  let bs := (file.drop off).take n
  if bs.length = n then some bs else none

/-- A big-endian field of `n` ≤ 4 bytes of a file (R204). -/
def fileField (file : List Byte) (off n : Nat) : Option Word := (fileBytes file off n).map assembleBytes

/-- The fields of the ELF header (R204). -/
structure ElfHeader where
  ident : List Byte
  cls : Word
  endianness : Word
  headerVersion : Word
  osAbi : Word
  type : Word
  machine : Word
  version : Word
  entry : Word
  phoff : Word
  shoff : Word
  ehsize : Word
  phentsize : Word
  phnum : Word
  shentsize : Word
  shnum : Word
  shstrndx : Word
  deriving DecidableEq, Repr

/-- Read the header at its fixed offsets (R204). -/
def parseElfHeader (file : List Byte) : Option ElfHeader := do
  return {
    ident := ← fileBytes file 0 4
    cls := ← fileField file 4 1
    endianness := ← fileField file 5 1
    headerVersion := ← fileField file 6 1
    osAbi := ← fileField file 7 1
    type := ← fileField file 16 2
    machine := ← fileField file 18 2
    version := ← fileField file 20 4
    entry := ← fileField file 24 4
    phoff := ← fileField file 28 4
    shoff := ← fileField file 32 4
    ehsize := ← fileField file 40 2
    phentsize := ← fileField file 42 2
    phnum := ← fileField file 44 2
    shentsize := ← fileField file 46 2
    shnum := ← fileField file 48 2
    shstrndx := ← fileField file 50 2 }

/-- The validation of R206, every condition of it. -/
def ElfHeader.valid (h : ElfHeader) : Bool :=
  h.ident == [0x7F#8, 0x45#8, 0x4C#8, 0x46#8] && h.cls == 1#32 && h.endianness == 2#32 && h.headerVersion == 1#32 &&
  h.osAbi == 0#32 && h.type == 2#32 && h.machine == 8#32 && h.version == 1#32 && h.phoff == 0x34#32 &&
  h.ehsize == 52#32 && h.phentsize == 0x20#32 && h.shentsize == 0x28#32

/-- The fields of a program header (R205). -/
structure ProgramHeader where
  type : Word
  offset : Word
  vaddr : Word
  paddr : Word
  filesz : Word
  memsz : Word
  flags : Word
  align : Word
  deriving DecidableEq, Repr

/-- Read a program header at a file offset (R205). -/
def parseProgramHeader (file : List Byte) (off : Nat) : Option ProgramHeader := do
  return {
    type := ← fileField file off 4
    offset := ← fileField file (off + 4) 4
    vaddr := ← fileField file (off + 8) 4
    paddr := ← fileField file (off + 12) 4
    filesz := ← fileField file (off + 16) 4
    memsz := ← fileField file (off + 20) 4
    flags := ← fileField file (off + 24) 4
    align := ← fileField file (off + 28) 4 }

/-- The fields of a section header (R205). -/
structure SectionHeader where
  name : Word
  type : Word
  flags : Word
  addr : Word
  offset : Word
  size : Word
  link : Word
  info : Word
  addralign : Word
  entsize : Word
  deriving DecidableEq, Repr

/-- Read a section header at a file offset (R205). -/
def parseSectionHeader (file : List Byte) (off : Nat) : Option SectionHeader := do
  return {
    name := ← fileField file off 4
    type := ← fileField file (off + 4) 4
    flags := ← fileField file (off + 8) 4
    addr := ← fileField file (off + 12) 4
    offset := ← fileField file (off + 16) 4
    size := ← fileField file (off + 20) 4
    link := ← fileField file (off + 24) 4
    info := ← fileField file (off + 28) 4
    addralign := ← fileField file (off + 32) 4
    entsize := ← fileField file (off + 36) 4 }

/-- A NUL-terminated string, none if the bytes end before a NUL. -/
def readCString : List Byte → Option (List Byte)
  | [] => none
  | b :: bs => if b = 0#8 then some [] else (readCString bs).map (b :: ·)

/-- The bytes of the name `.data`. -/
def dataSectionName : List Byte := [0x2E#8, 0x64#8, 0x61#8, 0x74#8, 0x61#8]

/-- Scan section headers for the first one named `.data`; the outer none is a name that cannot be read (R207). -/
def findDataSection (file : List Byte) (strings : Nat) : List SectionHeader → Option (Option Word)
  | [] => some none
  | h :: hs =>
    match readCString (file.drop (strings + h.name.toNat)) with
    | none => none
    | some name => if name = dataSectionName then some (some h.addr) else findDataSection file strings hs

/-- What the loader takes from a file it accepts. -/
structure ElfImage where
  entry : Word
  /-- the address of `.data`, none if no section has that name (R207) -/
  dataAddress : Option Word
  programs : List ProgramHeader
  deriving DecidableEq, Repr

/-- The address of `.data` among the section headers (R207). -/
def elfDataAddress (file : List Byte) (h : ElfHeader) (sections : List SectionHeader) : Option (Option Word) :=
  match sections with
  | [] => some none
  | _ :: _ => do
    let strings ← sections[h.shstrndx.toNat]?
    findDataSection file strings.offset.toNat sections

/-- Header, validation, program headers, section headers and data address, in that order; none is a malformed file (R204 to
R207). -/
def parseElf (file : List Byte) : Option ElfImage := do
  let h ← parseElfHeader file
  if h.valid then
    let programs ← (List.range h.phnum.toNat).mapM fun i =>
      parseProgramHeader file (h.phoff.toNat + i * h.phentsize.toNat)
    let sections ← (List.range h.shnum.toNat).mapM fun i =>
      parseSectionHeader file (h.shoff.toNat + i * h.shentsize.toNat)
    let dataAddress ← elfDataAddress file h sections
    return { entry := h.entry, dataAddress := dataAddress, programs := programs }
  else none

/-- Write bytes at consecutive indices of a buffer. -/
def Buffer.setMany : Nat → List Byte → Buffer → Buffer
  | _, [], b => b
  | i, v :: vs, b => Buffer.setMany (i + 1) vs (b.set i v)

/-- Copy one PT_LOAD segment into the text or data buffer at an offset: grow to `off + p_memsz`, then copy `p_filesz`
bytes, each write growing the buffer where it is past its end (R208, 20_memory.md R63, R58). -/
def copyInto (file : List Byte) (h : ProgramHeader) (seg : Segment) (m : Memory) :
    Host.Outcome Memory Fault Refusal :=
  let off := h.paddr.toNat - (m.base seg).toNat
  let b := (m.buffer seg).grow (off + h.memsz.toNat)
  match fileBytes file h.offset.toNat h.filesz.toNat with
  | none => .refused .malformedElf
  | some bs => .next (m.setBuffer seg (Buffer.setMany off bs b))

/-- One program header: skipped unless PT_LOAD, copied into text or data, refused for the heap or the stack, fatal below
the lowest base (R208, R209). -/
def copySegment (file : List Byte) (h : ProgramHeader) (m : Memory) : Host.Outcome Memory Fault Refusal :=
  if h.type = 1#32 then
    match m.resolve h.paddr with
    | .error f => .fault f
    | .ok .text => copyInto file h .text m
    | .ok .data => copyInto file h .data m
    | .ok .heap => .refused (.unsupportedSegment h.paddr)
    | .ok .stack => .refused (.unsupportedSegment h.paddr)
  else .next m

/-- Every program header, in header order (R208). -/
def copySegments (file : List Byte) : List ProgramHeader → Memory → Host.Outcome Memory Fault Refusal
  | [], m => .next m
  | h :: hs, m =>
    match copySegment file h m with
    | .next m' => copySegments file hs m'
    | .fault f => .fault f
    | .refused r => .refused r

/-- The data base an image leaves: that of its `.data` section, else the one before (R207). -/
def Memory.withDataAddress (m : Memory) : Option Word → Memory
  | some a => { m with dataBase := a }
  | none => m

/-- The ELF load: the data base is set before any segment is copied, bases that are then not distinct are refused, and `pc`
is seeded with the entry; nothing else of the core changes (R207 to R210, 20_memory.md R52). -/
def State.elfLoad (s : State) (file : List Byte) : Host.Outcome State Fault Refusal :=
  match parseElf file with
  | none => .refused .malformedElf
  | some image =>
    let m := s.mem.withDataAddress image.dataAddress
    if m.basesDistinct then
      match copySegments file image.programs m with
      | .next m' => .next { s with mem := m', pc := image.entry }
      | .fault f => .fault f
      | .refused r => .refused r
    else .refused .basesNotDistinct

end Sys2Proof.Machine
end

