-- ==== Sys2Proof/Machine/Load.lean ====
section
/-! DEFINITION. Power-on and the raw load: what the host does before the first step (spec 70_reset_and_hazards.md R200,
R202, R203, R210). -/

namespace Sys2Proof.Machine

/-- Power-on under a configuration; one whose bases are not distinct is refused (R200, 20_memory.md R52). -/
def powerOn (c : Config) : Host.Outcome State Fault Refusal :=
  if c.wellFormed then .next (State.powerOn c) else .refused .basesNotDistinct

/-- The host seeds `pc` with the entry point (R202). -/
def State.seedPc (s : State) (entry : Word) : State := { s with pc := entry }

/-- Write bytes one per address from `a` on, each with `MemWrite(a, 1, byte)`. -/
def storeBytes : Word → List Byte → State → Except Fault State
  | _, [], s => .ok s
  | a, b :: bs, s =>
    match s.writeMem .byte a (b.setWidth 32) with
    | .error f => .error f
    | .ok t => storeBytes (a + 1#32) bs t

/-- Raw load: a flat byte vector from the text base on; `pc` keeps its value (R203). -/
def State.rawLoad (s : State) (bytes : List Byte) : Host.Outcome State Fault Refusal :=
  match storeBytes s.mem.textBase bytes s with
  | .ok t => .next t
  | .error f => .fault f

end Sys2Proof.Machine
end

