-- ==== Sys2Proof/Machine/Observe.lean ====
section
/-! DEFINITION. The observation surface (spec 10_state.md R42, R26): what the host sees of a state. `pc`, `halted`,
`exception` and the segment bases are fields of State; the accessors are `State.readMem` and `State.writeMem`. -/

namespace Sys2Proof.Machine

/-- The names of the general registers in index order (R26). -/
def regNames : List String :=
  ["zero", "at", "v0", "v1", "a0", "a1", "a2", "a3", "t0", "t1", "t2", "t3", "t4", "t5", "t6", "t7",
   "s0", "s1", "s2", "s3", "s4", "s5", "s6", "s7", "t8", "t9", "k0", "k1", "gp", "sp", "fp", "ra"]

/-- The register enumeration: 35 (name, value) pairs, the general registers in index order, then `pc`, `hi`, `lo` (R42). -/
def State.observeRegs (s : State) : List (String × Word) :=
  (regNames.zipIdx.map fun p => (p.1, s.readReg (BitVec.ofNat 5 p.2))) ++
    [("pc", s.pc), ("hi", s.hi), ("lo", s.lo)]

/-- A segment's base address and raw buffer (R42). -/
def State.observeSegment (s : State) (seg : Segment) : Word × List Byte :=
  (s.mem.base seg, (s.mem.buffer seg).bytes)

end Sys2Proof.Machine
end

