-- ==== Sys2Proof/Machine/Run.lean ====
section
/-! DEFINITION. `run` (spec 60_exceptions.md R195): it loops `step` until the core is halted, and also ends at a fatal condition. The
block sets no bound on the number of steps (70_reset_and_hazards.md R221), so the unbounded run is a relation, `RunEndsWith`, and
`RunsForever` where it never returns; `run` is the run cut off by a step budget, from which both are made (log entry 23). -/

namespace Sys2Proof.Machine

/-- The run cut off after `k` steps: it ends when the core is halted, at a fatal condition, at a refusal, or when the budget is
used up, and then answers the running state it has reached. -/
def run : Nat → State → Host.Outcome State Fault Refusal
  | 0, s => .next s
  | k + 1, s =>
    if s.halted then .next s
    else
      match step s with
      | .next t => run k t
      | .fault f => .fault f
      | .refused r => .refused r

/-- The outcome ends a run: a halted core, a fatal condition, a refusal; a running core does not (R195). -/
def endsRun : Host.Outcome State Fault Refusal → Bool
  | .next s => s.halted
  | .fault _ => true
  | .refused _ => true

/-- The run from `s`, bounded only by `halted` and by a fatal condition, ends with `o` (R195). -/
def RunEndsWith (s : State) (o : Host.Outcome State Fault Refusal) : Prop := ∃ k, run k s = o ∧ endsRun o = true

/-- The run from `s` never returns: a real behaviour of the block (R195, R221). -/
def RunsForever (s : State) : Prop := ∀ k, endsRun (run k s) = false

end Sys2Proof.Machine
end

