-- ==== Sys2Proof/Safety.lean ====
section
/-! DEFINITION. What counts as a safe run, in the terms the statements use. -/

namespace Sys2Proof.Machine

/-- The invariant every step keeps: the memory is in canonical form over distinct bases (20_memory.md R52), the
jump flag is down between steps (10_state.md R34, R39; that it is down there too is log entry 7), an exception is recorded
only by a halted core (R38), and the stored slot of register 0 holds 0 (R43). -/
structure State.Inv (s : State) : Prop where
  memWf : s.mem.wf = true
  basesDistinct : s.mem.basesDistinct = true
  jumpDown : s.jump = false
  exceptionOnlyHalted : s.halted = false → s.exception = .none
  zeroSlot : s.regs[0] = 0#32

/-! ### What the spec's tables say of an instruction, in the terms the statements use -/

/-- The general register an instruction may write (the "writes" column of 10_state.md R32). -/
def destReg : Instr → Option Reg
  | .sll rd .. => some rd
  | .srl rd .. => some rd
  | .sra rd .. => some rd
  | .sllv rd .. => some rd
  | .srlv rd .. => some rd
  | .srav rd .. => some rd
  | .jr .. => none
  | .jalr rd _ => some rd
  | .movz rd .. => some rd
  | .movn rd .. => some rd
  | .syscall => none
  | .brk => none
  | .mfhi rd => some rd
  | .mthi _ => none
  | .mflo rd => some rd
  | .mtlo _ => none
  | .mult .. => none
  | .multu .. => none
  | .div .. => none
  | .divu .. => none
  | .add rd .. => some rd
  | .addu rd .. => some rd
  | .sub rd .. => some rd
  | .subu rd .. => some rd
  | .and rd .. => some rd
  | .or rd .. => some rd
  | .xor rd .. => some rd
  | .nor rd .. => some rd
  | .slt rd .. => some rd
  | .sltu rd .. => some rd
  | .tge .. => none
  | .tgeu .. => none
  | .tlt .. => none
  | .tltu .. => none
  | .teq .. => none
  | .tne .. => none
  | .j _ => none
  | .beq .. => none
  | .bne .. => none
  | .addi rt .. => some rt
  | .addiu rt .. => some rt
  | .andi rt .. => some rt
  | .lui rt _ => some rt
  | .beql .. => none
  | .lw rt .. => some rt
  | .sw .. => none

/-- The general registers an instruction reads (the "reads" column of 10_state.md R32). -/
def readRegs : Instr → List Reg
  | .sll _ rt _ => [rt]
  | .srl _ rt _ _ => [rt]
  | .sra _ rt _ => [rt]
  | .sllv _ rt rs => [rt, rs]
  | .srlv _ rt rs _ => [rt, rs]
  | .srav _ rt rs => [rt, rs]
  | .jr rs => [rs]
  | .jalr _ rs => [rs]
  | .movz _ rs rt => [rs, rt]
  | .movn _ rs rt => [rs, rt]
  | .syscall => [2#5]
  | .brk => []
  | .mfhi _ => []
  | .mthi rs => [rs]
  | .mflo _ => []
  | .mtlo rs => [rs]
  | .mult rs rt => [rs, rt]
  | .multu rs rt => [rs, rt]
  | .div rs rt => [rs, rt]
  | .divu rs rt => [rs, rt]
  | .add _ rs rt => [rs, rt]
  | .addu _ rs rt => [rs, rt]
  | .sub _ rs rt => [rs, rt]
  | .subu _ rs rt => [rs, rt]
  | .and _ rs rt => [rs, rt]
  | .or _ rs rt => [rs, rt]
  | .xor _ rs rt => [rs, rt]
  | .nor _ rs rt => [rs, rt]
  | .slt _ rs rt => [rs, rt]
  | .sltu _ rs rt => [rs, rt]
  | .tge rs rt => [rs, rt]
  | .tgeu rs rt => [rs, rt]
  | .tlt rs rt => [rs, rt]
  | .tltu rs rt => [rs, rt]
  | .teq rs rt => [rs, rt]
  | .tne rs rt => [rs, rt]
  | .j _ => []
  | .beq rs rt _ => [rs, rt]
  | .bne rs rt _ => [rs, rt]
  | .addi _ rs _ => [rs]
  | .addiu _ rs _ => [rs]
  | .andi _ rs _ => [rs]
  | .lui rt _ => [rt]
  | .beql rs rt _ => [rs, rt]
  | .lw _ _ rs => [rs]
  | .sw rt _ rs => [rs, rt]

/-- The kinds of state an instruction may change, for the frame statements. -/
inductive Shape where
  /-- its destination register only -/
  | register
  /-- its destination register, and `halted` and `exception` on overflow -/
  | overflow
  /-- `HI` and `LO` only -/
  | hilo
  /-- `halted` and `exception` only -/
  | halt
  /-- `pc` and the jump flag, and the link register of `jalr` -/
  | control
  /-- the bytes of the word it stores -/
  | store
  deriving DecidableEq, Repr

/-- The shape of each instruction (10_state.md R32). -/
def shapeOf : Instr → Shape
  | .sll .. => .register
  | .srl .. => .register
  | .sra .. => .register
  | .sllv .. => .register
  | .srlv .. => .register
  | .srav .. => .register
  | .jr .. => .control
  | .jalr .. => .control
  | .movz .. => .register
  | .movn .. => .register
  | .syscall => .halt
  | .brk => .halt
  | .mfhi .. => .register
  | .mthi .. => .hilo
  | .mflo .. => .register
  | .mtlo .. => .hilo
  | .mult .. => .hilo
  | .multu .. => .hilo
  | .div .. => .hilo
  | .divu .. => .hilo
  | .add .. => .overflow
  | .addu .. => .register
  | .sub .. => .overflow
  | .subu .. => .register
  | .and .. => .register
  | .or .. => .register
  | .xor .. => .register
  | .nor .. => .register
  | .slt .. => .register
  | .sltu .. => .register
  | .tge .. => .halt
  | .tgeu .. => .halt
  | .tlt .. => .halt
  | .tltu .. => .halt
  | .teq .. => .halt
  | .tne .. => .halt
  | .j .. => .control
  | .beq .. => .control
  | .bne .. => .control
  | .addi .. => .overflow
  | .addiu .. => .register
  | .andi .. => .register
  | .lui .. => .register
  | .beql .. => .control
  | .lw .. => .register
  | .sw .. => .store

/-- The exact integer lies in [-2^31, 2^31-1] (00_scope.md R14). -/
abbrev FitsInt32 (n : Int) : Prop := -2147483648 ≤ n ∧ n ≤ 2147483647

/-- The exception value an instruction halts the core with, none if it does not halt: the "raised by" and "condition" columns of
60_exceptions.md R182, with the `syscall` exit (41_system.md R110). -/
def haltCause (s : State) : Instr → Option Exception
  | .syscall => if s.readReg 2#5 = 10#32 then some .none else none
  | .brk => some .breakpoint
  | .add _ rs rt =>
    if FitsInt32 ((s.readReg rs).toInt + (s.readReg rt).toInt) then none else some .integerOverflow
  | .sub _ rs rt =>
    if FitsInt32 ((s.readReg rs).toInt - (s.readReg rt).toInt) then none else some .integerOverflow
  | .addi _ rs imm =>
    if FitsInt32 ((s.readReg rs).toInt + imm.toInt) then none else some .integerOverflow
  | .tge rs rt => if (s.readReg rt).toInt ≤ (s.readReg rs).toInt then some .trap else none
  | .tgeu rs rt => if (s.readReg rt).toNat ≤ (s.readReg rs).toNat then some .trap else none
  | .tlt rs rt => if (s.readReg rs).toInt < (s.readReg rt).toInt then some .trap else none
  | .tltu rs rt => if (s.readReg rs).toNat < (s.readReg rt).toNat then some .trap else none
  | .teq rs rt => if s.readReg rs = s.readReg rt then some .trap else none
  | .tne rs rt => if s.readReg rs = s.readReg rt then none else some .trap
  | _ => none

/-- The `pc` after a step that executes an instruction in `s`: the jump or branch target where it jumps, else the next
address (10_state.md R34, 45_jump_branch.md R150 to R155). -/
def pcAfter (s : State) : Instr → Word
  | .jr rs => s.readReg rs
  | .jalr _ rs => s.readReg rs
  | .j target => s.pc.extractLsb' 28 4 ++ target ++ 0#2
  | .beq rs rt imm =>
    if s.readReg rs = s.readReg rt then BitVec.ofInt 32 (s.pc.toNat + 4 + imm.toInt * 4) else s.pc + 4#32
  | .bne rs rt imm =>
    if s.readReg rs = s.readReg rt then s.pc + 4#32 else BitVec.ofInt 32 (s.pc.toNat + 4 + imm.toInt * 4)
  | .beql rs rt imm =>
    if s.readReg rs = s.readReg rt then BitVec.ofInt 32 (s.pc.toNat + 4 + imm.toInt * 4) else s.pc + 4#32
  | _ => s.pc + 4#32

/-- The state is about to execute `i`: it is running over distinct bases, and the fetch and decode of a step give `i`. -/
structure AboutToRun (s : State) (i : Instr) : Prop where
  running : s.halted = false
  distinct : s.mem.basesDistinct = true
  aligned : s.pc &&& 3#32 = 0#32
  decodes : ∃ w, s.readMem .word s.pc = .ok w ∧ decode w = .ok i

/-- Change the state of a next outcome and leave a fault or a refusal. -/
def mapNext (f : State → State) : Host.Outcome State Fault Refusal → Host.Outcome State Fault Refusal
  | .next s => .next (f s)
  | .fault e => .fault e
  | .refused r => .refused r

end Sys2Proof.Machine
end

