-- ==== Sys2Proof/Certificates/Slice0/Obligations.lean ====
section
/-! DEFINITION. The statements for the provers, one `def Obligations.<Name> : Prop` each. A docstring cites the rule it
formalises; where the spec itself marks a point as its own decision (92_eei_decisions.md D<n>) or this model chose (log entry
<n>), the docstring says so. `{ s with f := v }` says that every other field of the state is unchanged. -/

open Sys2Proof Sys2Proof.Machine

/-! ### Registers -/

/-- R27, R28: register 0 reads 0 and discards writes; any other register reads its slot, reads back what was written, and a
write changes no other register and nothing outside the register file. -/
def Obligations.RegisterPortsGuardZero : Prop :=
  ∀ (s : State) (v : Word),
    s.readReg 0#5 = 0#32 ∧ s.writeReg 0#5 v = s ∧
    ∀ r : Reg, r ≠ 0#5 →
      s.readReg r = s.regs[r.toNat] ∧
      (s.writeReg r v).readReg r = v ∧
      (∀ q : Reg, q ≠ r → (s.writeReg r v).readReg q = s.readReg q) ∧
      s.writeReg r v = { s with regs := (s.writeReg r v).regs }

/-! ### Segments and memory -/

/-- R53: an address belongs to the segment with the greatest base not above it, InvalidAddress is raised exactly below every
base, and with the default bases (the spec's decisions D12 to D14) the intervals are those of R53. -/
def Obligations.ResolveByGreatestBaseNotAbove : Prop :=
  (∀ (m : Memory) (a : Word) (seg : Segment), m.basesDistinct = true →
    (m.resolve a = .ok seg ↔
      (m.base seg).toNat ≤ a.toNat ∧
        ∀ seg', (m.base seg').toNat ≤ a.toNat → (m.base seg').toNat ≤ (m.base seg).toNat)) ∧
  (∀ (m : Memory) (a : Word),
    m.resolve a = .error (.invalidAddress a) ↔ ∀ seg, a.toNat < (m.base seg).toNat) ∧
  (∀ a : Word,
    (State.reset.mem.resolve a = .ok .text ↔ 0x00400000 ≤ a.toNat ∧ a.toNat < 0x10000000) ∧
    (State.reset.mem.resolve a = .ok .data ↔ 0x10000000 ≤ a.toNat ∧ a.toNat < 0x10040000) ∧
    (State.reset.mem.resolve a = .ok .heap ↔ 0x10040000 ≤ a.toNat ∧ a.toNat < 0x40000000) ∧
    (State.reset.mem.resolve a = .ok .stack ↔ 0x40000000 ≤ a.toNat))

/-- R54: every access (host read and write of any width, `lw`, `sw`, fetch) whose first byte lies below the lowest base is
the fatal condition InvalidAddress with that address. -/
def Obligations.AccessBelowLowestBaseIsFatal : Prop :=
  ∀ (s : State) (a : Word), (∀ seg, a.toNat < (s.mem.base seg).toNat) →
    (∀ w, s.readMem w a = .error (.invalidAddress a)) ∧
    (∀ w v, s.writeMem w a v = .error (.invalidAddress a)) ∧
    (∀ (rt rs : Reg) (imm : Half), effectiveAddress (s.readReg rs) imm = a →
      exec (.lw rt imm rs) s = .fault (.invalidAddress a) ∧
      exec (.sw rt imm rs) s = .fault (.invalidAddress a)) ∧
    (s.halted = false → s.mem.basesDistinct = true → s.pc = a → a &&& 3#32 = 0#32 →
      step s = .fault (.invalidAddress a))

/-- R57: reading the byte with index `i` returns the byte the buffer holds there when `i` is below its length, and is
ReadOutOfBounds with the access's address otherwise. (A read answers a value and no memory, so it changes no buffer.) -/
def Obligations.ByteReadAtIndexOrOutOfBounds : Prop :=
  ∀ (m : Memory) (top : Word) (seg : Segment) (a : Word) (k i : Nat),
    m.index top seg (a.toNat + k) = .ok i →
    (i < (m.buffer seg).len →
      (m.buffer seg).get i = some (lookupCell (m.buffer seg).cells i) ∧
      m.readByte top seg a k = .ok (lookupCell (m.buffer seg).cells i)) ∧
    ((m.buffer seg).len ≤ i → m.readByte top seg a k = .error (.readOutOfBounds a))

/-- R58 (its "no upper bound" is the spec's decision D24; the canonical form is the model's, log entry 3): a byte write
grows the buffer to at least `i + 1`, every new byte below `i` is 0, bytes that existed keep their value, and the canonical
form is kept. -/
def Obligations.ByteWriteGrowsWithZeroFill : Prop :=
  ∀ (b : Buffer) (i : Nat) (v : Byte), b.wf = true →
    (b.set i v).len = max b.len (i + 1) ∧
    (b.set i v).get i = some v ∧
    (∀ j, j ≠ i → j < b.len → (b.set i v).get j = b.get j) ∧
    (∀ j, b.len ≤ j → j < i → (b.set i v).get j = some 0#8) ∧
    (b.set i v).wf = true

/-- R73 as C5 of 90_conflicts.md limits it: where a write of 1, 2 or 4 bytes is not fatal, a read of that width at that
address gives back the low `8n` bits of the value, for every memory in the model's canonical form (log entry 3). -/
def Obligations.WriteThenReadRoundTrip : Prop :=
  ∀ (m m' : Memory) (top : Word) (w : Width) (a v : Word), m.wf = true →
    m.write top w a v = .ok m' →
    m'.read top w a = .ok ((v.setWidth (8 * w.bytes)).setWidth 32)

/-- R60, R73 with the stack rule R55 (the spec's decisions D11, D12): a write completes exactly when its address resolves
and, in the stack, its last byte is not above STACK_TOP_BYTE; below every base it is InvalidAddress, above the top
StackAboveTop with the first byte above it. A write is never ReadOutOfBounds. -/
def Obligations.WriteCompletesExactlyWhereStorable : Prop :=
  ∀ (m : Memory) (top : Word) (w : Width) (a v : Word),
    (∀ seg, m.resolve a = .ok seg → (seg = .stack → a.toNat + w.bytes ≤ top.toNat + 1) →
      ∃ m', m.write top w a v = .ok m') ∧
    (m.resolve a = .ok .stack → top.toNat + 1 < a.toNat + w.bytes →
      m.write top w a v = .error (.stackAboveTop (max a.toNat (top.toNat + 1)))) ∧
    ((∀ seg, a.toNat < (m.base seg).toNat) → m.write top w a v = .error (.invalidAddress a))

/-- R55 (the stack index and StackAboveTop are the spec's decision D11): the index of a byte is its distance above the base
in text, data and heap, and its distance below STACK_TOP_BYTE in the stack, above which it is StackAboveTop. R56 (the spec's
decision D10), R58, R60, and the last sentence of R73, over canonical memories (log entry 3): a write resolves once and
changes one buffer only; byte `k` stands at the index of address `a + k` in it, and any other index holds what it held, or 0
where it did not exist before; the buffer's new length is one more than the highest index written, or the old length where
that is greater. The bases stay. -/
def Obligations.WriteTouchesOnlyItsBytes : Prop :=
  (∀ (m : Memory) (top : Word) (seg : Segment) (b : Nat),
    (seg ≠ .stack → (m.base seg).toNat ≤ b → m.index top seg b = .ok (b - (m.base seg).toNat)) ∧
    (b ≤ top.toNat → m.index top .stack b = .ok (top.toNat - b)) ∧
    (top.toNat < b → m.index top .stack b = .error (.stackAboveTop b))) ∧
  ∀ (m m' : Memory) (top : Word) (w : Width) (a v : Word) (seg : Segment), m.wf = true →
    m.resolve a = .ok seg → m.write top w a v = .ok m' →
    (∀ seg', m'.base seg' = m.base seg') ∧
    (∀ seg', seg' ≠ seg → m'.buffer seg' = m.buffer seg') ∧
    (seg ≠ .stack → (m'.buffer seg).len = max (m.buffer seg).len (a.toNat + w.bytes - (m.base seg).toNat)) ∧
    (seg = .stack → (m'.buffer seg).len = max (m.buffer seg).len (top.toNat - a.toNat + 1)) ∧
    (∀ k, k < w.bytes → ∃ i, m.index top seg (a.toNat + k) = .ok i ∧
      (m'.buffer seg).get i = some (v.extractLsb' (8 * (w.bytes - 1 - k)) 8)) ∧
    (∀ i, (∀ k, k < w.bytes → m.index top seg (a.toNat + k) ≠ .ok i) →
      (m'.buffer seg).get i = (m.buffer seg).get i ∨
        ((m.buffer seg).get i = none ∧ (m'.buffer seg).get i = some 0#8))

/-- The host's loads (70_reset_and_hazards.md R203, R208) keep the model's canonical form of memory (log entry 3). -/
def Obligations.HostLoadsKeepCanonicalMemory : Prop :=
  ∀ (s t : State) (bytes : List Byte), s.mem.wf = true →
    (s.rawLoad bytes = .next t → t.mem.wf = true) ∧
    (s.elfLoad bytes = .next t → t.mem.wf = true)

/-! ### Encoding -/

/-- R80 to R84, R88, R89 (the numbers are the spec's decision D28): decoding an encoded instruction gives it back, as a word
and as the first four bytes of any byte list. -/
def Obligations.DecodeOfEncodeIsIdentity : Prop :=
  ∀ (i : Instr) (rest : List Byte),
    decode (encode i) = .ok i ∧ decodeBytes (encodeBytes i ++ rest) = .ok (i, rest)

/-- R91, R93 (D17, D28): a word that decodes is its instruction's encoding in every bit that the instruction uses, so no
used bit is dropped. -/
def Obligations.EncodeOfDecodeKeepsUsedBits : Prop :=
  ∀ (w : Word) (i : Instr), decode w = .ok i → encode i = w &&& usedBits i

/-- R91 (the spec's decision D17): words that differ only in bits their instruction does not use decode to the same
instruction. -/
def Obligations.DecodeIgnoresUnusedFields : Prop :=
  ∀ (w w' : Word) (i : Instr), decode w = .ok i → w &&& usedBits i = w' &&& usedBits i → decode w' = .ok i

/-- R90, R93 (the numbers are D28, the list of absent ones D18): exactly the words whose opcode is not in R88, or whose
opcode is 0 and whose funct is not in R89, are rejected, each with the word itself. -/
def Obligations.DecodeRejectsExactlyUnlistedWords : Prop :=
  ∀ w : Word,
    decode w = .error (.unknownInstruction w) ↔
      fieldOpcode w ∉ [0x00#6, 0x02#6, 0x04#6, 0x05#6, 0x08#6, 0x09#6, 0x0C#6, 0x0F#6, 0x14#6, 0x23#6, 0x2B#6] ∨
      (fieldOpcode w = 0x00#6 ∧ fieldFunct w ∉ [0x00#6, 0x02#6, 0x03#6, 0x04#6, 0x06#6, 0x07#6, 0x08#6, 0x09#6, 0x0A#6,
        0x0B#6, 0x0C#6, 0x0D#6, 0x10#6, 0x11#6, 0x12#6, 0x13#6, 0x18#6, 0x19#6, 0x1A#6, 0x1B#6, 0x20#6, 0x21#6, 0x22#6,
        0x23#6, 0x24#6, 0x25#6, 0x26#6, 0x27#6, 0x2A#6, 0x2B#6, 0x30#6, 0x31#6, 0x32#6, 0x33#6, 0x34#6, 0x36#6])

/-- The spec's worked encodings (R101, R104, R125, R151, R152, R153, R163, R170, R171, R110) decode to the instructions they
are given for, and an absent one (`ori`, R90) is rejected. -/
def Obligations.WorkedEncodingsDecode : Prop :=
  decode 0x012a4820#32 = .ok (.add 9#5 9#5 10#5) ∧
  decode 0x0000000c#32 = .ok .syscall ∧
  decode 0x00294102#32 = .ok (.srl 8#5 9#5 4#5 1#5) ∧
  decode 0x01494046#32 = .ok (.srlv 8#5 9#5 10#5 1#5) ∧
  decode 0x0320f809#32 = .ok (.jalr 31#5 25#5) ∧
  decode 0x08100010#32 = .ok (.j 0x0100010#26) ∧
  decode 0x11090003#32 = .ok (.beq 8#5 9#5 3#16) ∧
  decode 0x3c081234#32 = .ok (.lui 8#5 0x1234#16) ∧
  decode 0x8d2b0004#32 = .ok (.lw 11#5 4#16 9#5) ∧
  decode 0xad2a0004#32 = .ok (.sw 10#5 4#16 9#5) ∧
  decode 0x34080001#32 = .error (.unknownInstruction 0x34080001#32)

/-! ### The step -/

/-- R180 (that a halting step advances `pc` too is the spec's decision D3, log entry 11; that the flag is cleared again at
the end of the step is this model's choice, log entry 7): where the word at `pc` decodes to `i`, a step clears the jump
flag, executes `i`, and makes the post-dispatch update (`pc` advances by 4 unless `i` jumped, and the flag is cleared); a
fatal condition of `i` is the step's. (No instruction is refused: OnlyFourInstructionsCanBeFatal.) -/
def Obligations.StepRunsTheDecodedInstruction : Prop :=
  ∀ (s : State) (i : Instr), AboutToRun s i →
    (∀ t, exec i { s with jump := false } = .next t →
      step s = .next { t with pc := if t.jump then t.pc else t.pc + 4#32, jump := false }) ∧
    (∀ f, exec i { s with jump := false } = .fault f → step s = .fault f)

/-- R187 (marked derived there), R180: the order of a step's checks before execution: MisalignedFetch (the spec's decision
D7), then the fetch's fatal condition, then UnknownInstruction. -/
def Obligations.FetchChecksComeInOrder : Prop :=
  ∀ s : State, s.halted = false → s.mem.basesDistinct = true →
    (s.pc &&& 3#32 ≠ 0#32 → step s = .fault (.misalignedFetch s.pc)) ∧
    (s.pc &&& 3#32 = 0#32 →
      (∀ f, s.readMem .word s.pc = .error f → step s = .fault f) ∧
      (∀ w e, s.readMem .word s.pc = .ok w → decode w = .error e → step s = .fault (.unknownInstruction w)))

/-- R184 (the no-op is the spec's decision D2): however often it is stepped, a halted core does not change. -/
def Obligations.HaltedCoreNeverChanges : Prop :=
  ∀ (k : Nat) (s : State), s.halted = true →
    step s = .next s ∧ Host.Core.run Sys2Proof.core k s = .next s ∧ run k s = .next s

/-- R52 (the refusal is the spec's decision D25; that `step` makes it after its halted check is log entry 1): bases that are
not distinct are refused at power-on and by every step of a running core, and nothing else is refused by a step. -/
def Obligations.IndistinctBasesAreRefused : Prop :=
  (∀ c : Config, c.wellFormed = false → powerOn c = .refused .basesNotDistinct) ∧
  (∀ c : Config, c.wellFormed = true → powerOn c = .next (State.powerOn c)) ∧
  (∀ s : State, s.halted = false → s.mem.basesDistinct = false → step s = .refused .basesNotDistinct) ∧
  (∀ (s : State) (r : Refusal), step s = .refused r → s.halted = false ∧ s.mem.basesDistinct = false)

/-- R34 with R150 to R155 (modulo 2^32 is the spec's decision D9, the `pc` of `j` D21, the read order of `jalr` D1, the
advance of a halting step D3, log entry 11; that the flag is down after a step is this model's choice, log entry 7): after a
step that executed `i`, `pc` is the jump or branch target where `i` jumped and the next address otherwise, and the jump flag
is down. -/
def Obligations.PcAfterStepIsTargetOrNext : Prop :=
  ∀ (s t : State) (i : Instr), AboutToRun s i → step s = .next t →
    t.pc = pcAfter s i ∧ t.jump = false

/-- R185, R187: only `lw`, `sw`, `syscall` and `div` can be fatal after decode, each with the kinds R185 lists for it; and
no instruction is refused. -/
def Obligations.OnlyFourInstructionsCanBeFatal : Prop :=
  (∀ (i : Instr) (s : State) (r : Refusal), exec i s ≠ .refused r) ∧
  ∀ (i : Instr) (s : State) (f : Fault), exec i s = .fault f →
    (∃ rt imm rs, i = .lw rt imm rs ∧
      (f = .invalidAddress (effectiveAddress (s.readReg rs) imm) ∨
        f = .readOutOfBounds (effectiveAddress (s.readReg rs) imm) ∨ ∃ b, f = .stackAboveTop b)) ∨
    (∃ rt imm rs, i = .sw rt imm rs ∧
      (f = .invalidAddress (effectiveAddress (s.readReg rs) imm) ∨ ∃ b, f = .stackAboveTop b)) ∨
    (i = .syscall ∧ s.readReg 2#5 ≠ 10#32 ∧ f = .unknownSyscall (s.readReg 2#5)) ∨
    (∃ rs rt, i = .div rs rt ∧ s.cfg.divOverflow = .fatal ∧ s.readReg rs = 0x80000000#32 ∧
      s.readReg rt = 0xFFFFFFFF#32 ∧ f = .divideOverflow s.pc)

/-! ### Results of the instructions -/

/-- R100 to R105 (the destination field is the spec's decision D30, the selector conditions D22): the six shifts, with the
rotate of `srl` for every non-zero `rs` field and of `srlv` for `shamt = 1` only. -/
def Obligations.ShiftAndRotateResults : Prop :=
  ∀ (s : State) (rd rt rs : Reg) (shamt : Shamt),
    exec (.sll rd rt shamt) s = .next (s.writeReg rd (s.readReg rt <<< shamt.toNat)) ∧
    exec (.srl rd rt shamt 0#5) s = .next (s.writeReg rd (s.readReg rt >>> shamt.toNat)) ∧
    (rs ≠ 0#5 →
      exec (.srl rd rt shamt rs) s = .next (s.writeReg rd ((s.readReg rt).rotateRight shamt.toNat))) ∧
    exec (.sra rd rt shamt) s = .next (s.writeReg rd ((s.readReg rt).sshiftRight shamt.toNat)) ∧
    exec (.sllv rd rt rs) s = .next (s.writeReg rd (s.readReg rt <<< ((s.readReg rs).toNat % 32))) ∧
    exec (.srlv rd rt rs 1#5) s =
      .next (s.writeReg rd ((s.readReg rt).rotateRight ((s.readReg rs).toNat % 32))) ∧
    (shamt ≠ 1#5 →
      exec (.srlv rd rt rs shamt) s = .next (s.writeReg rd (s.readReg rt >>> ((s.readReg rs).toNat % 32)))) ∧
    exec (.srav rd rt rs) s = .next (s.writeReg rd ((s.readReg rt).sshiftRight ((s.readReg rs).toNat % 32)))

/-- R106, R107: `movz` copies `rs` into `rd` when `rt` is 0, `movn` when it is not; otherwise nothing changes. -/
def Obligations.ConditionalMovesCopyOnCondition : Prop :=
  ∀ (s : State) (rd rs rt : Reg),
    (s.readReg rt = 0#32 →
      exec (.movz rd rs rt) s = .next (s.writeReg rd (s.readReg rs)) ∧ exec (.movn rd rs rt) s = .next s) ∧
    (s.readReg rt ≠ 0#32 →
      exec (.movz rd rs rt) s = .next s ∧ exec (.movn rd rs rt) s = .next (s.writeReg rd (s.readReg rs)))

/-- R110, R111 with R183 (the exception value None of the exit is the spec's decision D4, the advance of `pc` on a halting
step D3; the jump flag down after a step is this model's choice, log entry 7): `syscall` with `v0 = 10` halts the core and
records None, any other code is the fatal condition UnknownSyscall with that code; `break` halts with Breakpoint; neither
changes anything else, and a step that halts leaves `pc` at the next address. -/
def Obligations.SyscallExitAndBreakHalt : Prop :=
  (∀ s : State,
    (s.readReg 2#5 = 10#32 → exec .syscall s = .next { s with halted := true, exception := .none }) ∧
    (s.readReg 2#5 ≠ 10#32 → exec .syscall s = .fault (.unknownSyscall (s.readReg 2#5))) ∧
    exec .brk s = .next { s with halted := true, exception := .breakpoint }) ∧
  (∀ s : State, AboutToRun s .syscall → s.readReg 2#5 = 10#32 →
    step s = .next { s with halted := true, exception := .none, pc := s.pc + 4#32, jump := false }) ∧
  (∀ s : State, AboutToRun s .brk →
    step s = .next { s with halted := true, exception := .breakpoint, pc := s.pc + 4#32, jump := false })

/-- R115 to R118 (the register fields are the spec's decision D30): the moves between a register and `HI` or `LO`. -/
def Obligations.HiLoMoves : Prop :=
  ∀ (s : State) (r : Reg),
    exec (.mfhi r) s = .next (s.writeReg r s.hi) ∧
    exec (.mflo r) s = .next (s.writeReg r s.lo) ∧
    exec (.mthi r) s = .next { s with hi := s.readReg r } ∧
    exec (.mtlo r) s = .next { s with lo := s.readReg r }

/-- R119, R120: `mult` and `multu` leave the exact signed and unsigned 64-bit product in `HI` (high half) and `LO` (low
half) and change nothing else. -/
def Obligations.MultiplyLeavesExactProduct : Prop :=
  ∀ (s : State) (rs rt : Reg),
    (∃ h l : Word, exec (.mult rs rt) s = .next { s with hi := h, lo := l } ∧
      (h ++ l : BitVec 64).toInt = (s.readReg rs).toInt * (s.readReg rt).toInt) ∧
    (∃ h l : Word, exec (.multu rs rt) s = .next { s with hi := h, lo := l } ∧
      (h ++ l : BitVec 64).toNat = (s.readReg rs).toNat * (s.readReg rt).toNat)

/-- R121, R123 (quotient in `LO`, remainder in `HI` and truncation are the spec's decision D20, the overflowing pair is D19,
DIV_OVERFLOW): signed division, with `HI = LO = 0` for a zero divisor. -/
def Obligations.SignedDivisionQuotientRemainder : Prop :=
  ∀ (s : State) (rs rt : Reg),
    (s.readReg rt = 0#32 → exec (.div rs rt) s = .next { s with hi := 0#32, lo := 0#32 }) ∧
    (s.readReg rt ≠ 0#32 → ¬ (s.readReg rs = 0x80000000#32 ∧ s.readReg rt = 0xFFFFFFFF#32) →
      ∃ h l : Word, exec (.div rs rt) s = .next { s with hi := h, lo := l } ∧
        (s.readReg rs).toInt = l.toInt * (s.readReg rt).toInt + h.toInt ∧
        h.toInt.natAbs < (s.readReg rt).toInt.natAbs ∧
        (h = 0#32 ∨ (h.toInt < 0 ↔ (s.readReg rs).toInt < 0))) ∧
    (s.readReg rs = 0x80000000#32 → s.readReg rt = 0xFFFFFFFF#32 →
      (s.cfg.divOverflow = .wrap →
        exec (.div rs rt) s = .next { s with hi := 0#32, lo := 0x80000000#32 }) ∧
      (s.cfg.divOverflow = .fatal → exec (.div rs rt) s = .fault (.divideOverflow s.pc)))

/-- R122, R123 (the placement is the spec's decision D20): unsigned division, with `HI = LO = 0` for a zero divisor. -/
def Obligations.UnsignedDivisionQuotientRemainder : Prop :=
  ∀ (s : State) (rs rt : Reg),
    (s.readReg rt = 0#32 → exec (.divu rs rt) s = .next { s with hi := 0#32, lo := 0#32 }) ∧
    (s.readReg rt ≠ 0#32 →
      ∃ h l : Word, exec (.divu rs rt) s = .next { s with hi := h, lo := l } ∧
        (s.readReg rs).toNat = l.toNat * (s.readReg rt).toNat + h.toNat ∧
        h.toNat < (s.readReg rt).toNat)

/-- R125, R127, R160: `add`, `sub` and `addi` write the wrapped result and run on when the exact signed result fits in 32
bits; when it does not, they write it too and halt with IntegerOverflow. (That `pc` then advances is
StepHaltsExactlyOnListedCauses.) -/
def Obligations.SignedArithmeticCommitsThenHaltsOnOverflow : Prop :=
  ∀ (s : State) (d rs rt : Reg) (imm : Half),
    let a := (s.readReg rs).toInt
    let b := (s.readReg rt).toInt
    (FitsInt32 (a + b) → exec (.add d rs rt) s = .next (s.writeReg d (BitVec.ofInt 32 (a + b)))) ∧
    (¬ FitsInt32 (a + b) → exec (.add d rs rt) s =
      .next { s.writeReg d (BitVec.ofInt 32 (a + b)) with halted := true, exception := .integerOverflow }) ∧
    (FitsInt32 (a - b) → exec (.sub d rs rt) s = .next (s.writeReg d (BitVec.ofInt 32 (a - b)))) ∧
    (¬ FitsInt32 (a - b) → exec (.sub d rs rt) s =
      .next { s.writeReg d (BitVec.ofInt 32 (a - b)) with halted := true, exception := .integerOverflow }) ∧
    (FitsInt32 (a + imm.toInt) →
      exec (.addi d rs imm) s = .next (s.writeReg d (BitVec.ofInt 32 (a + imm.toInt)))) ∧
    (¬ FitsInt32 (a + imm.toInt) → exec (.addi d rs imm) s =
      .next { s.writeReg d (BitVec.ofInt 32 (a + imm.toInt)) with halted := true, exception := .integerOverflow })

/-- R126, R128, R129 to R132, R161, R162 (the destination field is the spec's decision D30): wrap-around add and subtract,
and the bitwise operations, with `addiu` taking its immediate sign-extended and `andi` zero-extended; none of them halts. -/
def Obligations.WrappingAndBitwiseResults : Prop :=
  ∀ (s : State) (rd rs rt : Reg) (imm : Half),
    let a := s.readReg rs
    let b := s.readReg rt
    exec (.addu rd rs rt) s = .next (s.writeReg rd (BitVec.ofNat 32 (a.toNat + b.toNat))) ∧
    exec (.subu rd rs rt) s = .next (s.writeReg rd (BitVec.ofInt 32 ((a.toNat : Int) - b.toNat))) ∧
    exec (.and rd rs rt) s = .next (s.writeReg rd (a &&& b)) ∧
    exec (.or rd rs rt) s = .next (s.writeReg rd (a ||| b)) ∧
    exec (.xor rd rs rt) s = .next (s.writeReg rd (a ^^^ b)) ∧
    exec (.nor rd rs rt) s = .next (s.writeReg rd (~~~(a ||| b))) ∧
    exec (.addiu rd rs imm) s = .next (s.writeReg rd (BitVec.ofInt 32 (a.toNat + imm.toInt))) ∧
    exec (.andi rd rs imm) s = .next (s.writeReg rd (0#16 ++ (a.extractLsb' 0 16 &&& imm)))

/-- R133, R134 (the destination field is the spec's decision D30): `slt` and `sltu` write 1 when the first operand is less,
signed and unsigned, and 0 otherwise. -/
def Obligations.SetOnLessThanResults : Prop :=
  ∀ (s : State) (rd rs rt : Reg),
    exec (.slt rd rs rt) s =
      .next (s.writeReg rd (if (s.readReg rs).toInt < (s.readReg rt).toInt then 1#32 else 0#32)) ∧
    exec (.sltu rd rs rt) s =
      .next (s.writeReg rd (if (s.readReg rs).toNat < (s.readReg rt).toNat then 1#32 else 0#32))

/-- R140 to R145 (the comparison of each mnemonic is the spec's decision D29): a trap instruction whose comparison holds
halts with Trap and changes nothing else; one whose comparison fails changes nothing. -/
def Obligations.TrapsHaltOnTheirComparison : Prop :=
  ∀ (s : State) (rs rt : Reg),
    let a := s.readReg rs
    let b := s.readReg rt
    let trapped : State := { s with halted := true, exception := .trap }
    (b.toInt ≤ a.toInt → exec (.tge rs rt) s = .next trapped ∧ exec (.tlt rs rt) s = .next s) ∧
    (a.toInt < b.toInt → exec (.tge rs rt) s = .next s ∧ exec (.tlt rs rt) s = .next trapped) ∧
    (b.toNat ≤ a.toNat → exec (.tgeu rs rt) s = .next trapped ∧ exec (.tltu rs rt) s = .next s) ∧
    (a.toNat < b.toNat → exec (.tgeu rs rt) s = .next s ∧ exec (.tltu rs rt) s = .next trapped) ∧
    (a = b → exec (.teq rs rt) s = .next trapped ∧ exec (.tne rs rt) s = .next s) ∧
    (a ≠ b → exec (.teq rs rt) s = .next s ∧ exec (.tne rs rt) s = .next trapped)

/-- R150, R151, R152 (the read order of `jalr` is the spec's decision D1, the `pc` of `j` D21): a jump sets `pc` and the
jump flag; `jalr` first links the next address, and jumps to what `rs` held before the link. -/
def Obligations.JumpResults : Prop :=
  ∀ (s : State) (rd rs : Reg) (target : Target),
    exec (.jr rs) s = .next { s with pc := s.readReg rs, jump := true } ∧
    exec (.jalr rd rs) s = .next { s.writeReg rd (s.pc + 4#32) with pc := s.readReg rs, jump := true } ∧
    exec (.j target) s = .next { s with pc := s.pc.extractLsb' 28 4 ++ target ++ 0#2, jump := true }

/-- R153, R154, R155 (as C1 of 90_conflicts.md resolves them; modulo 2^32 is the spec's decision D9; the jump flag down
after a step is this model's choice, log entry 7): a step of `beq`, `bne` or `beql` sets `pc` to `pc + 4 + imm * 4` when its
condition holds and to `pc + 4` when it does not, annuls nothing and changes nothing else; the instruction itself always
completes. -/
def Obligations.BranchesTakeOrFallThrough : Prop :=
  ∀ (s : State) (rs rt : Reg) (imm : Half),
    let taken : State := { s with pc := BitVec.ofInt 32 (s.pc.toNat + 4 + imm.toInt * 4), jump := true }
    (s.readReg rs = s.readReg rt →
      exec (.beq rs rt imm) s = .next taken ∧ exec (.bne rs rt imm) s = .next s ∧
      exec (.beql rs rt imm) s = .next taken ∧
      (AboutToRun s (.beq rs rt imm) → step s = .next { taken with jump := false }) ∧
      (AboutToRun s (.bne rs rt imm) → step s = .next { s with pc := s.pc + 4#32, jump := false }) ∧
      (AboutToRun s (.beql rs rt imm) → step s = .next { taken with jump := false })) ∧
    (s.readReg rs ≠ s.readReg rt →
      exec (.beq rs rt imm) s = .next s ∧ exec (.bne rs rt imm) s = .next taken ∧
      exec (.beql rs rt imm) s = .next s ∧
      (AboutToRun s (.beq rs rt imm) → step s = .next { s with pc := s.pc + 4#32, jump := false }) ∧
      (AboutToRun s (.bne rs rt imm) → step s = .next { taken with jump := false }) ∧
      (AboutToRun s (.beql rs rt imm) → step s = .next { s with pc := s.pc + 4#32, jump := false }))

/-- R163: `lui` loads the immediate into the upper half of `rt`, keeps its lower half, and is a no-op for register 0. -/
def Obligations.LuiReplacesUpperHalf : Prop :=
  ∀ (s : State) (rt : Reg) (imm : Half),
    exec (.lui rt imm) s = .next (s.writeReg rt (imm ++ (s.readReg rt).extractLsb' 0 16)) ∧
    exec (.lui 0#5 imm) s = .next s

/-- R170, R86, R59 (the address modulo 2^32 is the spec's decision D9, no alignment requirement D8, the stack index D11, one
resolution D10): the effective address is `x[rs] + sext_16(imm)`, and where the four bytes of the word there exist, `lw`
completes and writes them to `rt`, the first one most significant. -/
def Obligations.LoadWordReadsFourBytes : Prop :=
  ∀ (s : State) (rt rs : Reg) (imm : Half),
    let a := effectiveAddress (s.readReg rs) imm
    a = BitVec.ofInt 32 ((s.readReg rs).toNat + imm.toInt) ∧
    ∀ (seg : Segment) (i0 i1 i2 i3 : Nat) (b0 b1 b2 b3 : Byte),
      let at? := fun k => s.mem.index s.cfg.stackTopByte seg (a.toNat + k)
      s.mem.resolve a = .ok seg →
      at? 0 = .ok i0 → at? 1 = .ok i1 → at? 2 = .ok i2 → at? 3 = .ok i3 →
      (s.mem.buffer seg).get i0 = some b0 → (s.mem.buffer seg).get i1 = some b1 →
      (s.mem.buffer seg).get i2 = some b2 → (s.mem.buffer seg).get i3 = some b3 →
      exec (.lw rt imm rs) s = .next (s.writeReg rt (b0 ++ b1 ++ b2 ++ b3))

/-- R170, R187 (the kinds are the spec's decision D6): a `lw` whose first unreadable byte is byte `k` is fatal for that
byte: StackAboveTop where it has no index, ReadOutOfBounds with the access's address where its index is past the buffer; for
`rt = 0` too. -/
def Obligations.LoadWordIsFatalAtFirstMissingByte : Prop :=
  ∀ (s : State) (rt rs : Reg) (imm : Half) (seg : Segment) (k : Nat),
    let a := effectiveAddress (s.readReg rs) imm
    let at? := fun k => s.mem.index s.cfg.stackTopByte seg (a.toNat + k)
    s.mem.resolve a = .ok seg → k < 4 →
    (∀ j, j < k → ∃ i, at? j = .ok i ∧ i < (s.mem.buffer seg).len) →
    (∀ i, at? k = .ok i → (s.mem.buffer seg).len ≤ i →
      exec (.lw rt imm rs) s = .fault (.readOutOfBounds a)) ∧
    (∀ f, at? k = .error f → f = .stackAboveTop (a.toNat + k) ∧ exec (.lw rt imm rs) s = .fault f)

/-- R171, R86, R58, R60 (the address modulo 2^32 is the spec's decision D9, no alignment requirement D8, the stack top D11,
one resolution D10), over canonical memories (log entry 3) where it says what is stored: the effective address is `x[rs] +
sext_16(imm)`; where it resolves and, in the stack, its last byte is not above STACK_TOP_BYTE, `sw` completes, stores the
four bytes of `rt` at the indices of that address, most significant first, leaves every other byte as it was (a byte that
did not exist may now be a 0 of the fill), and makes the buffer no longer than its highest index needs; no register, no base
and no other buffer changes. Where a byte of the word lies above STACK_TOP_BYTE, `sw` is StackAboveTop with the first such
byte's address. -/
def Obligations.StoreWordPlacesFourBytesAndNoOther : Prop :=
  ∀ (s : State) (rt rs : Reg) (imm : Half),
    let a := effectiveAddress (s.readReg rs) imm
    let top := s.cfg.stackTopByte
    a = BitVec.ofInt 32 ((s.readReg rs).toNat + imm.toInt) ∧
    (s.mem.resolve a = .ok .stack → top.toNat < a.toNat + 3 →
      exec (.sw rt imm rs) s = .fault (.stackAboveTop (max a.toNat (top.toNat + 1)))) ∧
    ∀ seg : Segment, s.mem.wf = true →
      s.mem.resolve a = .ok seg → (seg = .stack → a.toNat + 3 ≤ top.toNat) →
      ∃ m, exec (.sw rt imm rs) s = .next { s with mem := m } ∧
        (∀ seg', m.base seg' = s.mem.base seg') ∧
        (∀ seg', seg' ≠ seg → m.buffer seg' = s.mem.buffer seg') ∧
        (seg ≠ .stack → (m.buffer seg).len = max (s.mem.buffer seg).len (a.toNat + 4 - (s.mem.base seg).toNat)) ∧
        (seg = .stack → (m.buffer seg).len = max (s.mem.buffer seg).len (top.toNat - a.toNat + 1)) ∧
        (∀ k, k < 4 → ∃ i, s.mem.index top seg (a.toNat + k) = .ok i ∧
          (m.buffer seg).get i = some ((s.readReg rt).extractLsb' (8 * (3 - k)) 8)) ∧
        (∀ i, (∀ k, k < 4 → s.mem.index top seg (a.toNat + k) ≠ .ok i) →
          (m.buffer seg).get i = (s.mem.buffer seg).get i ∨
            ((s.mem.buffer seg).get i = none ∧ (m.buffer seg).get i = some 0#8))

/-- R171 (the source's scenario D) over canonical memories (log entry 3): after a `sw`, a `lw` of any register from the same
effective address completes with the value stored. -/
def Obligations.LoadAfterStoreGivesStoredWord : Prop :=
  ∀ (s t : State) (rt rs rt' rs' : Reg) (imm imm' : Half), s.mem.wf = true →
    exec (.sw rt imm rs) s = .next t →
    effectiveAddress (t.readReg rs') imm' = effectiveAddress (s.readReg rs) imm →
    exec (.lw rt' imm' rs') t = .next (t.writeReg rt' (s.readReg rt))

/-! ### Frames -/

/-- R32: the instructions that write one register only (sll, srl, sra, sllv, srlv, srav, movz, movn, mfhi, mflo, addu, subu,
and, or, xor, nor, slt, sltu, addiu, andi, lui, lw) change no register but their destination, and neither `pc`, `HI`, `LO`,
the status, the jump flag, the parameters nor any byte of memory. -/
def Obligations.RegisterWritersChangeOnlyTheirDestination : Prop :=
  ∀ (i : Instr) (s t : State), shapeOf i = .register → exec i s = .next t →
    t = { s with regs := t.regs } ∧
    (∀ r : Reg, destReg i ≠ some r → t.readReg r = s.readReg r) ∧
    (∀ (w : Width) (a : Word), t.readMem w a = s.readMem w a)

/-- R32, R183: `add`, `sub` and `addi` change no register but their destination, the status only by halting with
IntegerOverflow, and nothing else. -/
def Obligations.OverflowInstructionsChangeDestinationAndStatus : Prop :=
  ∀ (i : Instr) (s t : State), shapeOf i = .overflow → exec i s = .next t →
    t = { s with regs := t.regs, halted := t.halted, exception := t.exception } ∧
    (∀ r : Reg, destReg i ≠ some r → t.readReg r = s.readReg r) ∧
    ((t.halted = s.halted ∧ t.exception = s.exception) ∨ (t.halted = true ∧ t.exception = .integerOverflow)) ∧
    (∀ (w : Width) (a : Word), t.readMem w a = s.readMem w a)

/-- R32, R36: `mult`, `multu`, `div`, `divu`, `mthi` and `mtlo` change `HI` and `LO` only; `mthi` leaves `LO` and `mtlo`
leaves `HI`. -/
def Obligations.HiLoWritersChangeOnlyHiLo : Prop :=
  (∀ (i : Instr) (s t : State), shapeOf i = .hilo → exec i s = .next t →
    t = { s with hi := t.hi, lo := t.lo } ∧
    (∀ r : Reg, t.readReg r = s.readReg r) ∧
    (∀ (w : Width) (a : Word), t.readMem w a = s.readMem w a)) ∧
  (∀ (s t : State) (r : Reg), exec (.mthi r) s = .next t → t.lo = s.lo) ∧
  (∀ (s t : State) (r : Reg), exec (.mtlo r) s = .next t → t.hi = s.hi)

/-- R32, R183: `syscall`, `break` and the six traps write no register and no memory; they change `halted` and `exception`
only. -/
def Obligations.HaltingInstructionsChangeOnlyStatus : Prop :=
  ∀ (i : Instr) (s t : State), shapeOf i = .halt → exec i s = .next t →
    t = { s with halted := t.halted, exception := t.exception } ∧
    (∀ r : Reg, t.readReg r = s.readReg r) ∧
    (∀ (w : Width) (a : Word), t.readMem w a = s.readMem w a)

/-- R32: `jr`, `jalr`, `j`, `beq`, `bne` and `beql` change `pc` and the jump flag, `jalr` its link register too, and nothing
else. -/
def Obligations.ControlInstructionsChangeOnlyPcAndLink : Prop :=
  ∀ (i : Instr) (s t : State), shapeOf i = .control → exec i s = .next t →
    t = { s with pc := t.pc, jump := t.jump, regs := t.regs } ∧
    (∀ r : Reg, destReg i ≠ some r → t.readReg r = s.readReg r) ∧
    (∀ (w : Width) (a : Word), t.readMem w a = s.readMem w a)

/-- R32 (marked derived there): a register that an instruction neither reads nor writes, by the table of R32, makes no
difference to it: writing that register before or after the instruction comes to the same, fault or not. -/
def Obligations.UnreadRegistersMakeNoDifference : Prop :=
  ∀ (i : Instr) (s : State) (r : Reg) (v : Word), r ∉ readRegs i → destReg i ≠ some r →
    exec i (s.writeReg r v) = mapNext (fun t => t.writeReg r v) (exec i s)

/-- R36: `HI` and `LO` are read only by `mfhi` and `mflo`: for every other instruction their values make no difference, but
that what is not written of them is kept. -/
def Obligations.HiLoReadOnlyByMoves : Prop :=
  ∀ (i : Instr) (s : State) (h l : Word), (∀ rd, i ≠ .mfhi rd) → (∀ rd, i ≠ .mflo rd) →
    (shapeOf i ≠ .hilo →
      exec i { s with hi := h, lo := l } = mapNext (fun t => { t with hi := h, lo := l }) (exec i s)) ∧
    (∀ rs, i = .mthi rs → exec i { s with hi := h, lo := l } = mapNext (fun t => { t with lo := l }) (exec i s)) ∧
    (∀ rs, i = .mtlo rs → exec i { s with hi := h, lo := l } = mapNext (fun t => { t with hi := h }) (exec i s)) ∧
    (shapeOf i = .hilo → (∀ rs, i ≠ .mthi rs) → (∀ rs, i ≠ .mtlo rs) →
      exec i { s with hi := h, lo := l } = exec i s)

/-! ### Whole-machine rules -/

/-- R37, R38, R182, R183 (the advance of `pc` on a halting step is the spec's decision D3, None on exit D4): a step of a
running core halts it exactly on the causes of R182 and the `syscall` exit, records their value and advances `pc` by 4; any
other step leaves it running with `exception` as it was. -/
def Obligations.StepHaltsExactlyOnListedCauses : Prop :=
  ∀ (s t : State) (i : Instr), AboutToRun s i → step s = .next t →
    (∀ e, haltCause s i = some e → t.halted = true ∧ t.exception = e ∧ t.pc = s.pc + 4#32) ∧
    (haltCause s i = none → t.halted = false ∧ t.exception = s.exception)

/-- The invariant of Safety.lean (canonical memory, log entry 3; distinct bases; jump flag down between steps, log entry 7;
an exception only in a halted core; slot 0 zero) is kept by every step, from every state that has it. -/
def Obligations.EveryStepKeepsTheInvariant : Prop :=
  ∀ s t : State, s.Inv → step s = .next t → t.Inv

/-- The state after reset, the state at power-on under any configuration with distinct bases, and the state a host reset
leaves have that invariant (log entries 3 and 7). -/
def Obligations.ResetStatesHaveTheInvariant : Prop :=
  State.reset.Inv ∧
  (∀ c : Config, c.wellFormed = true → (State.powerOn c).Inv) ∧
  (∀ s : State, s.Inv → s.hostReset.Inv)

/-- R52 ("the bases are fixed once loading is done"), R58 (buffers never shrink), R6: no step changes the parameters or a
base, and none shrinks a buffer; halting is monotone (R37). -/
def Obligations.StepsKeepBasesAndNeverShrinkBuffers : Prop :=
  ∀ s t : State, step s = .next t →
    t.cfg = s.cfg ∧ (∀ seg, t.mem.base seg = s.mem.base seg) ∧
    (∀ seg, (s.mem.buffer seg).len ≤ (t.mem.buffer seg).len) ∧
    (s.halted = true → t.halted = true)

/-- R71 (marked derived there), over canonical memories (log entry 3): a store is seen by the next fetch from its address. -/
def Obligations.FetchSeesTheStoredWord : Prop :=
  ∀ (s t : State) (rt rs : Reg) (imm : Half), s.mem.wf = true →
    exec (.sw rt imm rs) s = .next t →
    effectiveAddress (s.readReg rs) imm &&& 3#32 = 0#32 →
    State.fetch { t with pc := effectiveAddress (s.readReg rs) imm } = .ok (s.readReg rt)

/-- R217 (marked derived there): `addiu rt, $zero, L` and then `lui rt, H` leave `H || L` in `rt`. -/
def Obligations.AddiuThenLuiBuildsConstant : Prop :=
  ∀ (s : State) (rt : Reg) (hi lo : Half), rt ≠ 0#5 →
    ∃ t u, exec (.addiu rt 0#5 lo) s = .next t ∧ exec (.lui rt hi) t = .next u ∧ u.readReg rt = hi ++ lo

/-- R218, R151 (the read order of `jalr` is the spec's decision D1, modulo 2^32 D9; the jump flag down after a step is this
model's choice, log entry 7): a step of `jalr rd, rs` goes to what `rs` held and links its address plus 4, and a later step
of `jr rd`, with `rd` unchanged, resumes there. -/
def Obligations.CallLinksAndReturnResumes : Prop :=
  ∀ (s u : State) (rd rs : Reg), rd ≠ 0#5 → AboutToRun s (.jalr rd rs) → AboutToRun u (.jr rd) →
    ∃ t, step s = .next t ∧ t.pc = s.readReg rs ∧ t.readReg rd = s.pc + 4#32 ∧
      (u.readReg rd = t.readReg rd → step u = .next { u with pc := s.pc + 4#32, jump := false })

/-! ### Reset, loading, observation -/

/-- R43, R200: what reset leaves. The values of `zero`, `gp`, `sp`, `pc`, `halted`, `exception` and the text base are the
source's; the other registers, `HI` and `LO` are 0 by the spec's decision D15, the other bases are D12 to D14,
STACK_TOP_BYTE D11, the empty buffers D16, DIV_OVERFLOW = wrap D19. -/
def Obligations.ResetValues : Prop :=
  State.reset.readReg 0#5 = 0#32 ∧ State.reset.readReg 28#5 = 0x10008000#32 ∧
  State.reset.readReg 29#5 = 0x7FFFFFFC#32 ∧ State.reset.pc = 0x00400000#32 ∧
  State.reset.halted = false ∧ State.reset.exception = .none ∧ State.reset.jump = false ∧
  State.reset.mem.base .text = 0x00400000#32 ∧
  (∀ r : Reg, r ≠ 28#5 → r ≠ 29#5 → State.reset.readReg r = 0#32) ∧
  State.reset.hi = 0#32 ∧ State.reset.lo = 0#32 ∧
  State.reset.mem.base .data = 0x10000000#32 ∧ State.reset.mem.base .heap = 0x10040000#32 ∧
  State.reset.mem.base .stack = 0x40000000#32 ∧ (∀ seg, (State.reset.mem.buffer seg).len = 0) ∧
  State.reset.cfg.stackTopByte = 0x7FFFFFFF#32 ∧ State.reset.cfg.divOverflow = .wrap

/-- R201 (the spec's decision D16, with D15): the host's reset puts the core in its reset state under its own parameters and
keeps every base and buffer. -/
def Obligations.HostResetKeepsMemory : Prop :=
  ∀ s : State,
    s.hostReset.mem = s.mem ∧ s.hostReset.cfg = s.cfg ∧
    s.hostReset.halted = false ∧ s.hostReset.exception = .none ∧ s.hostReset.jump = false ∧
    s.hostReset.pc = s.cfg.pcReset ∧ s.hostReset.hi = 0#32 ∧ s.hostReset.lo = 0#32 ∧
    s.hostReset.readReg 28#5 = s.cfg.gpReset ∧ s.hostReset.readReg 29#5 = s.cfg.spReset ∧
    (∀ r : Reg, r ≠ 28#5 → r ≠ 29#5 → s.hostReset.readReg r = 0#32)

/-- R203 (the data base that bounds the length is the spec's decision D13, log entry 13; the empty buffers at power-on D16,
log entry 21): a raw load after reset of bytes that fit below the data base completes, puts byte `k` at text index `k`,
makes the text buffer as long as the vector, and changes nothing else. -/
def Obligations.RawLoadFillsTheTextBuffer : Prop :=
  ∀ bytes : List Byte, bytes.length ≤ 0x0FC00000 →
    ∃ t, State.reset.rawLoad bytes = .next t ∧
      t = { State.reset with mem := { State.reset.mem with text := t.mem.text } } ∧
      t.mem.text.len = bytes.length ∧
      ∀ k (hk : k < bytes.length), t.mem.text.get k = some bytes[k]

/-- R206 (the refusal is 93_implementation_defined.md U10): a file whose header fails the validation is refused, and the
block is never started. -/
def Obligations.ElfValidationRefusesMismatch : Prop :=
  ∀ (s : State) (file : List Byte) (h : ElfHeader), parseElfHeader file = some h →
    ¬ (h.ident = [0x7F#8, 0x45#8, 0x4C#8, 0x46#8] ∧ h.cls = 1#32 ∧ h.endianness = 2#32 ∧ h.headerVersion = 1#32 ∧
      h.osAbi = 0#32 ∧ h.type = 2#32 ∧ h.machine = 8#32 ∧ h.version = 1#32 ∧ h.phoff = 0x34#32 ∧ h.ehsize = 52#32 ∧
      h.phentsize = 0x20#32 ∧ h.shentsize = 0x28#32) →
    s.elfLoad file = .refused .malformedElf

/-- R209, R202, R207 (no `.data` keeps the data base: the spec's decision D31): an ELF load that succeeds seeds `pc` with
the entry, may set the data base to the `.data` address, fills memory, and changes no general register, `HI`, `LO`,
`halted`, `exception` or other base. -/
def Obligations.ElfLoadChangesOnlyMemoryAndPc : Prop :=
  ∀ (s t : State) (file : List Byte), s.elfLoad file = .next t →
    ∃ image, parseElf file = some image ∧
      t = { s with pc := image.entry, mem := t.mem } ∧
      t.mem.base .data = image.dataAddress.getD (s.mem.base .data) ∧
      (∀ seg, seg ≠ .data → t.mem.base seg = s.mem.base seg) ∧
      t.mem.heap = s.mem.heap ∧ t.mem.stack = s.mem.stack

/-- R208 (a file that does not hold the bytes is refused, 93_implementation_defined.md U10; unbounded growth is the spec's
decision D24), what is stored over canonical memories (log entry 3): a program header of another type is skipped; a PT_LOAD
into text or data completes where the file holds its bytes; it grows that buffer to `offset + p_memsz`, and further where
`p_filesz` is greater, copies exactly the `p_filesz` file bytes, makes every other byte that did not exist 0, keeps every
other byte that did, and touches no base and no other buffer. -/
def Obligations.ElfSegmentCopyFillsAndZeroes : Prop :=
  ∀ (file : List Byte) (h : ProgramHeader) (m : Memory),
    (h.type ≠ 1#32 → copySegment file h m = .next m) ∧
    ∀ seg : Segment, h.type = 1#32 → m.resolve h.paddr = .ok seg →
      ((seg = .text ∨ seg = .data) → h.offset.toNat + h.filesz.toNat ≤ file.length →
        ∃ m', copySegment file h m = .next m') ∧
      ∀ m' : Memory, m.wf = true → copySegment file h m = .next m' →
        let off := h.paddr.toNat - (m.base seg).toNat
        (seg = .text ∨ seg = .data) ∧
        (∀ seg', m'.base seg' = m.base seg') ∧
        (∀ seg', seg' ≠ seg → m'.buffer seg' = m.buffer seg') ∧
        (m'.buffer seg).len = max (m.buffer seg).len (off + max h.memsz.toNat h.filesz.toNat) ∧
        (∀ k, k < h.filesz.toNat → (m'.buffer seg).get (off + k) = file[h.offset.toNat + k]?) ∧
        (∀ i, i < off ∨ off + h.filesz.toNat ≤ i → i < (m.buffer seg).len →
          (m'.buffer seg).get i = (m.buffer seg).get i) ∧
        (∀ i, i < off ∨ off + h.filesz.toNat ≤ i → (m.buffer seg).len ≤ i → i < (m'.buffer seg).len →
          (m'.buffer seg).get i = some 0#8)

/-- R42, R26 (the numbering is the spec's decision D27): the register enumeration has 35 pairs, the general registers in
index order under their names, then `pc`, `hi`, `lo`. -/
def Obligations.ObservationListsThirtyFivePairs : Prop :=
  ∀ s : State,
    s.observeRegs.map Prod.fst =
      ["zero", "at", "v0", "v1", "a0", "a1", "a2", "a3", "t0", "t1", "t2", "t3", "t4", "t5", "t6", "t7",
       "s0", "s1", "s2", "s3", "s4", "s5", "s6", "s7", "t8", "t9", "k0", "k1", "gp", "sp", "fp", "ra",
       "pc", "hi", "lo"] ∧
    (∀ r : Reg, (s.observeRegs.map Prod.snd)[r.toNat]? = some (s.readReg r)) ∧
    (s.observeRegs.map Prod.snd).drop 32 = [s.pc, s.hi, s.lo]

/-! ### Runs -/

/-- R195, R221, R184 (a refusal also ends a run: the spec's decision D25, log entry 1; the run is made of budgeted runs, log
entry 23): the run from a halted core ends there; the run from a running core goes the way of its step, and ends at a fatal
condition or a refusal; it ends in one way only, and never in a running core; it runs forever exactly where it does not end;
a branch to itself and a jump to itself run forever. -/
def Obligations.RunEndsHaltedOrFatalElseNever : Prop :=
  (∀ s : State, s.halted = true → ∀ o, RunEndsWith s o ↔ o = .next s) ∧
  (∀ s : State, s.halted = false →
    (∀ t, step s = .next t → (∀ o, RunEndsWith s o ↔ RunEndsWith t o) ∧ (RunsForever s ↔ RunsForever t)) ∧
    (∀ f, step s = .fault f → ∀ o, RunEndsWith s o ↔ o = .fault f) ∧
    (∀ r, step s = .refused r → ∀ o, RunEndsWith s o ↔ o = .refused r)) ∧
  (∀ (s : State) (o o'), RunEndsWith s o → RunEndsWith s o' → o = o') ∧
  (∀ s t : State, RunEndsWith s (.next t) → t.halted = true) ∧
  (∀ s : State, RunsForever s ↔ ∀ o, ¬ RunEndsWith s o) ∧
  (∀ (s : State) (rs rt : Reg), AboutToRun s (.beq rs rt 0xFFFF#16) → s.readReg rs = s.readReg rt → RunsForever s) ∧
  (∀ (s : State) (rs : Reg), AboutToRun s (.jr rs) → s.readReg rs = s.pc → RunsForever s)
end

