-- ==== Sys2Proof/Laws/Decode.lean ====
section
/-! SUPPORT. The fields of encoded words (spec 30_encoding.md R81 to R84): what each field extractor reads from each format. -/

namespace Sys2Proof

@[simp] theorem fieldOpcode_encodeR (rs rt rd : Reg) (sh : Shamt) (f : BitVec 6) :
    fieldOpcode (encodeR rs rt rd sh f) = 0#6 := by
  apply BitVec.eq_of_getLsbD_eq
  intro i hi
  simp only [fieldOpcode, encodeR, BitVec.getLsbD_extractLsb', BitVec.getLsbD_append, hi, decide_true, Bool.true_and]
  rw [if_neg (by omega), if_neg (by omega), if_neg (by omega), if_neg (by omega), if_neg (by omega)]
  congr 1
  omega

@[simp] theorem fieldRs_encodeR (rs rt rd : Reg) (sh : Shamt) (f : BitVec 6) :
    fieldRs (encodeR rs rt rd sh f) = rs := by
  apply BitVec.eq_of_getLsbD_eq
  intro i hi
  simp only [fieldRs, encodeR, BitVec.getLsbD_extractLsb', BitVec.getLsbD_append, hi, decide_true, Bool.true_and]
  rw [if_neg (by omega), if_neg (by omega), if_neg (by omega), if_neg (by omega), if_pos (by omega)]
  congr 1
  omega

@[simp] theorem fieldRt_encodeR (rs rt rd : Reg) (sh : Shamt) (f : BitVec 6) :
    fieldRt (encodeR rs rt rd sh f) = rt := by
  apply BitVec.eq_of_getLsbD_eq
  intro i hi
  simp only [fieldRt, encodeR, BitVec.getLsbD_extractLsb', BitVec.getLsbD_append, hi, decide_true, Bool.true_and]
  rw [if_neg (by omega), if_neg (by omega), if_neg (by omega), if_pos (by omega)]
  congr 1
  omega

@[simp] theorem fieldRd_encodeR (rs rt rd : Reg) (sh : Shamt) (f : BitVec 6) :
    fieldRd (encodeR rs rt rd sh f) = rd := by
  apply BitVec.eq_of_getLsbD_eq
  intro i hi
  simp only [fieldRd, encodeR, BitVec.getLsbD_extractLsb', BitVec.getLsbD_append, hi, decide_true, Bool.true_and]
  rw [if_neg (by omega), if_neg (by omega), if_pos (by omega)]
  congr 1
  omega

@[simp] theorem fieldShamt_encodeR (rs rt rd : Reg) (sh : Shamt) (f : BitVec 6) :
    fieldShamt (encodeR rs rt rd sh f) = sh := by
  apply BitVec.eq_of_getLsbD_eq
  intro i hi
  simp only [fieldShamt, encodeR, BitVec.getLsbD_extractLsb', BitVec.getLsbD_append, hi, decide_true, Bool.true_and]
  rw [if_neg (by omega), if_pos (by omega)]
  congr 1
  omega

@[simp] theorem fieldFunct_encodeR (rs rt rd : Reg) (sh : Shamt) (f : BitVec 6) :
    fieldFunct (encodeR rs rt rd sh f) = f := by
  apply BitVec.eq_of_getLsbD_eq
  intro i hi
  simp only [fieldFunct, encodeR, BitVec.getLsbD_extractLsb', BitVec.getLsbD_append, hi, decide_true, Bool.true_and]
  rw [if_pos (by omega)]
  congr 1
  omega

@[simp] theorem fieldOpcode_encodeI (op : BitVec 6) (rs rt : Reg) (imm : Half) :
    fieldOpcode (encodeI op rs rt imm) = op := by
  apply BitVec.eq_of_getLsbD_eq
  intro i hi
  simp only [fieldOpcode, encodeI, BitVec.getLsbD_extractLsb', BitVec.getLsbD_append, hi, decide_true, Bool.true_and]
  rw [if_neg (by omega), if_neg (by omega), if_neg (by omega)]
  congr 1
  omega

@[simp] theorem fieldRs_encodeI (op : BitVec 6) (rs rt : Reg) (imm : Half) :
    fieldRs (encodeI op rs rt imm) = rs := by
  apply BitVec.eq_of_getLsbD_eq
  intro i hi
  simp only [fieldRs, encodeI, BitVec.getLsbD_extractLsb', BitVec.getLsbD_append, hi, decide_true, Bool.true_and]
  rw [if_neg (by omega), if_neg (by omega), if_pos (by omega)]
  congr 1
  omega

@[simp] theorem fieldRt_encodeI (op : BitVec 6) (rs rt : Reg) (imm : Half) :
    fieldRt (encodeI op rs rt imm) = rt := by
  apply BitVec.eq_of_getLsbD_eq
  intro i hi
  simp only [fieldRt, encodeI, BitVec.getLsbD_extractLsb', BitVec.getLsbD_append, hi, decide_true, Bool.true_and]
  rw [if_neg (by omega), if_pos (by omega)]
  congr 1
  omega

@[simp] theorem fieldImm_encodeI (op : BitVec 6) (rs rt : Reg) (imm : Half) :
    fieldImm (encodeI op rs rt imm) = imm := by
  apply BitVec.eq_of_getLsbD_eq
  intro i hi
  simp only [fieldImm, encodeI, BitVec.getLsbD_extractLsb', BitVec.getLsbD_append, hi, decide_true, Bool.true_and]
  rw [if_pos (by omega)]
  congr 1
  omega

@[simp] theorem fieldOpcode_encodeJ (op : BitVec 6) (t : Target) :
    fieldOpcode (encodeJ op t) = op := by
  apply BitVec.eq_of_getLsbD_eq
  intro i hi
  simp only [fieldOpcode, encodeJ, BitVec.getLsbD_extractLsb', BitVec.getLsbD_append, hi, decide_true, Bool.true_and]
  rw [if_neg (by omega)]
  congr 1
  omega

@[simp] theorem fieldTarget_encodeJ (op : BitVec 6) (t : Target) :
    fieldTarget (encodeJ op t) = t := by
  apply BitVec.eq_of_getLsbD_eq
  intro i hi
  simp only [fieldTarget, encodeJ, BitVec.getLsbD_extractLsb', BitVec.getLsbD_append, hi, decide_true, Bool.true_and]
  rw [if_pos (by omega)]
  congr 1
  omega

/-- When a word decodes, and to what. -/
theorem decode_ok_iff (w : Word) (i : Instr) : decode w = .ok i ↔ decodePrimary w = some i := by
  unfold decode
  cases decodePrimary w <;> simp

/-- A rejected word is rejected by name, with the word itself. -/
theorem decode_error_iff (w : Word) (e : DecodeError) :
    decode w = .error e ↔ e = .unknownInstruction w ∧ decodePrimary w = none := by
  unfold decode
  cases decodePrimary w <;> simp [eq_comm]

/-! ### Fields of a masked word (R91) -/

theorem fieldOpcode_and (w m : Word) : fieldOpcode (w &&& m) = fieldOpcode w &&& fieldOpcode m := BitVec.extractLsb'_and
theorem fieldRs_and (w m : Word) : fieldRs (w &&& m) = fieldRs w &&& fieldRs m := BitVec.extractLsb'_and
theorem fieldRt_and (w m : Word) : fieldRt (w &&& m) = fieldRt w &&& fieldRt m := BitVec.extractLsb'_and
theorem fieldRd_and (w m : Word) : fieldRd (w &&& m) = fieldRd w &&& fieldRd m := BitVec.extractLsb'_and
theorem fieldShamt_and (w m : Word) : fieldShamt (w &&& m) = fieldShamt w &&& fieldShamt m := BitVec.extractLsb'_and
theorem fieldFunct_and (w m : Word) : fieldFunct (w &&& m) = fieldFunct w &&& fieldFunct m := BitVec.extractLsb'_and
theorem fieldImm_and (w m : Word) : fieldImm (w &&& m) = fieldImm w &&& fieldImm m := BitVec.extractLsb'_and
theorem fieldTarget_and (w m : Word) : fieldTarget (w &&& m) = fieldTarget w &&& fieldTarget m := BitVec.extractLsb'_and

@[simp] theorem and_full5 (x : BitVec 5) : x &&& 31#5 = x := BitVec.and_allOnes
@[simp] theorem and_full6 (x : BitVec 6) : x &&& 63#6 = x := BitVec.and_allOnes
@[simp] theorem and_full16 (x : BitVec 16) : x &&& 65535#16 = x := BitVec.and_allOnes
@[simp] theorem and_full26 (x : BitVec 26) : x &&& 67108863#26 = x := BitVec.and_allOnes

/-- Words that agree under a mask that covers the field agree in the field. -/
theorem fieldOpcode_of_masked {w w' m : Word} (h : w &&& m = w' &&& m) (hm : fieldOpcode m = 63#6) : fieldOpcode w' =
    fieldOpcode w := by
  have := congrArg fieldOpcode h
  simpa [fieldOpcode_and, hm] using this.symm

/-- Words that agree under a mask that covers the field agree in the field. -/
theorem fieldRs_of_masked {w w' m : Word} (h : w &&& m = w' &&& m) (hm : fieldRs m = 31#5) : fieldRs w' = fieldRs w
    := by
  have := congrArg fieldRs h
  simpa [fieldRs_and, hm] using this.symm

/-- Words that agree under a mask that covers the field agree in the field. -/
theorem fieldRt_of_masked {w w' m : Word} (h : w &&& m = w' &&& m) (hm : fieldRt m = 31#5) : fieldRt w' = fieldRt w
    := by
  have := congrArg fieldRt h
  simpa [fieldRt_and, hm] using this.symm

/-- Words that agree under a mask that covers the field agree in the field. -/
theorem fieldRd_of_masked {w w' m : Word} (h : w &&& m = w' &&& m) (hm : fieldRd m = 31#5) : fieldRd w' = fieldRd w
    := by
  have := congrArg fieldRd h
  simpa [fieldRd_and, hm] using this.symm

/-- Words that agree under a mask that covers the field agree in the field. -/
theorem fieldShamt_of_masked {w w' m : Word} (h : w &&& m = w' &&& m) (hm : fieldShamt m = 31#5) : fieldShamt w' =
    fieldShamt w := by
  have := congrArg fieldShamt h
  simpa [fieldShamt_and, hm] using this.symm

/-- Words that agree under a mask that covers the field agree in the field. -/
theorem fieldFunct_of_masked {w w' m : Word} (h : w &&& m = w' &&& m) (hm : fieldFunct m = 63#6) : fieldFunct w' =
    fieldFunct w := by
  have := congrArg fieldFunct h
  simpa [fieldFunct_and, hm] using this.symm

/-- Words that agree under a mask that covers the field agree in the field. -/
theorem fieldImm_of_masked {w w' m : Word} (h : w &&& m = w' &&& m) (hm : fieldImm m = 65535#16) : fieldImm w' =
    fieldImm w := by
  have := congrArg fieldImm h
  simpa [fieldImm_and, hm] using this.symm

/-- Words that agree under a mask that covers the field agree in the field. -/
theorem fieldTarget_of_masked {w w' m : Word} (h : w &&& m = w' &&& m) (hm : fieldTarget m =
    67108863#26) : fieldTarget w' = fieldTarget w := by
  have := congrArg fieldTarget h
  simpa [fieldTarget_and, hm] using this.symm

/-! ### A word is its fields (R82 to R84) -/

theorem fields_append (w : Word) : (fieldOpcode w ++ fieldRs w ++ fieldRt w ++ fieldRd w ++ fieldShamt w ++ fieldFunct w : BitVec 32) = w := by
  apply BitVec.eq_of_getLsbD_eq
  intro i hi
  simp only [fieldOpcode, fieldRs, fieldRt, fieldRd, fieldShamt, fieldFunct, BitVec.getLsbD_extractLsb',
      BitVec.getLsbD_append]
  by_cases h1 : i < 6
  · simp [h1]
  by_cases h2 : i < 11
  · simp [h1, show i - 6 < 5 by omega, show 6 + (i - 6) = i by omega]
  by_cases h3 : i < 16
  · simp [h1, show ¬ i - 6 < 5 by omega, show i - 6 - 5 < 5 by omega, show 11 + (i - 6 - 5) = i by omega]
  by_cases h4 : i < 21
  · simp [h1, show ¬ i - 6 < 5 by omega, show ¬ i - 6 - 5 < 5 by omega, show i - 6 - 5 - 5 < 5 by omega,
      show 16 + (i - 6 - 5 - 5) = i by omega]
  by_cases h5 : i < 26
  · simp [h1, show ¬ i - 6 < 5 by omega, show ¬ i - 6 - 5 < 5 by omega, show ¬ i - 6 - 5 - 5 < 5 by omega,
      show i - 6 - 5 - 5 - 5 < 5 by omega, show 21 + (i - 6 - 5 - 5 - 5) = i by omega]
  · simp [h1, show ¬ i - 6 < 5 by omega, show ¬ i - 6 - 5 < 5 by omega, show ¬ i - 6 - 5 - 5 < 5 by omega,
      show ¬ i - 6 - 5 - 5 - 5 < 5 by omega, show i - 6 - 5 - 5 - 5 - 5 < 6 by omega,
      show 26 + (i - 6 - 5 - 5 - 5 - 5) = i by omega]

theorem fieldsI_append (w : Word) : (fieldOpcode w ++ fieldRs w ++ fieldRt w ++ fieldImm w : BitVec 32) = w := by
  apply BitVec.eq_of_getLsbD_eq
  intro i hi
  simp only [fieldOpcode, fieldRs, fieldRt, fieldImm, BitVec.getLsbD_extractLsb', BitVec.getLsbD_append]
  by_cases h1 : i < 16
  · simp [h1]
  by_cases h4 : i < 21
  · simp [h1, show i - 16 < 5 by omega, show 16 + (i - 16) = i by omega]
  by_cases h5 : i < 26
  · simp [h1, show ¬ i - 16 < 5 by omega, show i - 16 - 5 < 5 by omega, show 21 + (i - 16 - 5) = i by omega]
  · simp [h1, show ¬ i - 16 < 5 by omega, show ¬ i - 16 - 5 < 5 by omega, show i - 16 - 5 - 5 < 6 by omega,
      show 26 + (i - 16 - 5 - 5) = i by omega]

theorem fieldsJ_append (w : Word) : (fieldOpcode w ++ fieldTarget w : BitVec 32) = w := by
  apply BitVec.eq_of_getLsbD_eq
  intro i hi
  simp only [fieldOpcode, fieldTarget, BitVec.getLsbD_extractLsb', BitVec.getLsbD_append]
  by_cases h1 : i < 26
  · simp [h1]
  · simp [h1, show i - 26 < 6 by omega, show 26 + (i - 26) = i by omega]

theorem word_eq_of_fields {v w : Word} (h1 : fieldOpcode v = fieldOpcode w) (h2 : fieldRs v = fieldRs w)
    (h3 : fieldRt v = fieldRt w)
   (h4 : fieldRd v = fieldRd w) (h5 : fieldShamt v = fieldShamt w) (h6 : fieldFunct v = fieldFunct w) : v = w := by
  rw [← fields_append v, ← fields_append w, h1, h2, h3, h4, h5, h6]

theorem word_eq_of_fieldsI {v w : Word} (h1 : fieldOpcode v = fieldOpcode w) (h2 : fieldRs v = fieldRs w)
    (h3 : fieldRt v = fieldRt w)
   (h4 : fieldImm v = fieldImm w) : v = w := by
  rw [← fieldsI_append v, ← fieldsI_append w, h1, h2, h3, h4]

theorem word_eq_of_fieldsJ {v w : Word} (h1 : fieldOpcode v = fieldOpcode w) (h2 : fieldTarget v =
    fieldTarget w) : v = w := by
  rw [← fieldsJ_append v, ← fieldsJ_append w, h1, h2]

end Sys2Proof
end

