-- ==== Sys2Proof/Laws/State.lean ====
section
/-! SUPPORT. One lemma per field per update of the state, and the register ports' laws, so that no later proof unfolds
a record update. -/

namespace Sys2Proof.Machine

/-! ### Write port -/

@[simp] theorem State.writeReg_cfg (s : State) (r : Reg) (v : Word) :
    (s.writeReg r v).cfg = s.cfg := by
  unfold State.writeReg; split <;> rfl
@[simp] theorem State.writeReg_pc (s : State) (r : Reg) (v : Word) :
    (s.writeReg r v).pc = s.pc := by
  unfold State.writeReg; split <;> rfl
@[simp] theorem State.writeReg_hi (s : State) (r : Reg) (v : Word) :
    (s.writeReg r v).hi = s.hi := by
  unfold State.writeReg; split <;> rfl
@[simp] theorem State.writeReg_lo (s : State) (r : Reg) (v : Word) :
    (s.writeReg r v).lo = s.lo := by
  unfold State.writeReg; split <;> rfl
@[simp] theorem State.writeReg_halted (s : State) (r : Reg) (v : Word) :
    (s.writeReg r v).halted = s.halted := by
  unfold State.writeReg; split <;> rfl
@[simp] theorem State.writeReg_exception (s : State) (r : Reg) (v : Word) :
    (s.writeReg r v).exception = s.exception := by
  unfold State.writeReg; split <;> rfl
@[simp] theorem State.writeReg_jump (s : State) (r : Reg) (v : Word) :
    (s.writeReg r v).jump = s.jump := by
  unfold State.writeReg; split <;> rfl
@[simp] theorem State.writeReg_mem (s : State) (r : Reg) (v : Word) :
    (s.writeReg r v).mem = s.mem := by
  unfold State.writeReg; split <;> rfl
@[simp] theorem State.writeHigh_cfg (s : State) (r : Reg) (h : Half) :
    (s.writeHigh r h).cfg = s.cfg := State.writeReg_cfg ..
@[simp] theorem State.writeHigh_pc (s : State) (r : Reg) (h : Half) :
    (s.writeHigh r h).pc = s.pc := State.writeReg_pc ..
@[simp] theorem State.writeHigh_hi (s : State) (r : Reg) (h : Half) :
    (s.writeHigh r h).hi = s.hi := State.writeReg_hi ..
@[simp] theorem State.writeHigh_lo (s : State) (r : Reg) (h : Half) :
    (s.writeHigh r h).lo = s.lo := State.writeReg_lo ..
@[simp] theorem State.writeHigh_halted (s : State) (r : Reg) (h : Half) :
    (s.writeHigh r h).halted = s.halted := State.writeReg_halted ..
@[simp] theorem State.writeHigh_exception (s : State) (r : Reg) (h : Half) :
    (s.writeHigh r h).exception = s.exception := State.writeReg_exception ..
@[simp] theorem State.writeHigh_jump (s : State) (r : Reg) (h : Half) :
    (s.writeHigh r h).jump = s.jump := State.writeReg_jump ..
@[simp] theorem State.writeHigh_mem (s : State) (r : Reg) (h : Half) :
    (s.writeHigh r h).mem = s.mem := State.writeReg_mem ..

/-! ### The other updates -/

@[simp] theorem State.writeHiLo_cfg (s : State) (p : Word × Word) :
    (s.writeHiLo p).cfg = s.cfg := rfl
@[simp] theorem State.writeHiLo_regs (s : State) (p : Word × Word) :
    (s.writeHiLo p).regs = s.regs := rfl
@[simp] theorem State.writeHiLo_pc (s : State) (p : Word × Word) :
    (s.writeHiLo p).pc = s.pc := rfl
@[simp] theorem State.writeHiLo_hi (s : State) (p : Word × Word) :
    (s.writeHiLo p).hi = p.1 := rfl
@[simp] theorem State.writeHiLo_lo (s : State) (p : Word × Word) :
    (s.writeHiLo p).lo = p.2 := rfl
@[simp] theorem State.writeHiLo_halted (s : State) (p : Word × Word) :
    (s.writeHiLo p).halted = s.halted := rfl
@[simp] theorem State.writeHiLo_exception (s : State) (p : Word × Word) :
    (s.writeHiLo p).exception = s.exception := rfl
@[simp] theorem State.writeHiLo_jump (s : State) (p : Word × Word) :
    (s.writeHiLo p).jump = s.jump := rfl
@[simp] theorem State.writeHiLo_mem (s : State) (p : Word × Word) :
    (s.writeHiLo p).mem = s.mem := rfl
@[simp] theorem State.writeHiLo_readReg (s : State) (p : Word × Word) (r : Reg) :
    (s.writeHiLo p).readReg r = s.readReg r := rfl

@[simp] theorem State.beginStep_cfg (s : State) :
    (s.beginStep).cfg = s.cfg := rfl
@[simp] theorem State.beginStep_regs (s : State) :
    (s.beginStep).regs = s.regs := rfl
@[simp] theorem State.beginStep_pc (s : State) :
    (s.beginStep).pc = s.pc := rfl
@[simp] theorem State.beginStep_hi (s : State) :
    (s.beginStep).hi = s.hi := rfl
@[simp] theorem State.beginStep_lo (s : State) :
    (s.beginStep).lo = s.lo := rfl
@[simp] theorem State.beginStep_halted (s : State) :
    (s.beginStep).halted = s.halted := rfl
@[simp] theorem State.beginStep_exception (s : State) :
    (s.beginStep).exception = s.exception := rfl
@[simp] theorem State.beginStep_jump (s : State) :
    (s.beginStep).jump = false := rfl
@[simp] theorem State.beginStep_mem (s : State) :
    (s.beginStep).mem = s.mem := rfl
@[simp] theorem State.beginStep_readReg (s : State) (r : Reg) :
    (s.beginStep).readReg r = s.readReg r := rfl

@[simp] theorem State.jumpTo_cfg (s : State) (t : Word) :
    (s.jumpTo t).cfg = s.cfg := rfl
@[simp] theorem State.jumpTo_regs (s : State) (t : Word) :
    (s.jumpTo t).regs = s.regs := rfl
@[simp] theorem State.jumpTo_pc (s : State) (t : Word) :
    (s.jumpTo t).pc = t := rfl
@[simp] theorem State.jumpTo_hi (s : State) (t : Word) :
    (s.jumpTo t).hi = s.hi := rfl
@[simp] theorem State.jumpTo_lo (s : State) (t : Word) :
    (s.jumpTo t).lo = s.lo := rfl
@[simp] theorem State.jumpTo_halted (s : State) (t : Word) :
    (s.jumpTo t).halted = s.halted := rfl
@[simp] theorem State.jumpTo_exception (s : State) (t : Word) :
    (s.jumpTo t).exception = s.exception := rfl
@[simp] theorem State.jumpTo_jump (s : State) (t : Word) :
    (s.jumpTo t).jump = true := rfl
@[simp] theorem State.jumpTo_mem (s : State) (t : Word) :
    (s.jumpTo t).mem = s.mem := rfl
@[simp] theorem State.jumpTo_readReg (s : State) (t : Word) (r : Reg) :
    (s.jumpTo t).readReg r = s.readReg r := rfl

@[simp] theorem State.postDispatch_cfg (s : State) :
    (s.postDispatch).cfg = s.cfg := rfl
@[simp] theorem State.postDispatch_regs (s : State) :
    (s.postDispatch).regs = s.regs := rfl
@[simp] theorem State.postDispatch_pc (s : State) :
    (s.postDispatch).pc = if s.jump then s.pc else nextPc s.pc := rfl
@[simp] theorem State.postDispatch_hi (s : State) :
    (s.postDispatch).hi = s.hi := rfl
@[simp] theorem State.postDispatch_lo (s : State) :
    (s.postDispatch).lo = s.lo := rfl
@[simp] theorem State.postDispatch_halted (s : State) :
    (s.postDispatch).halted = s.halted := rfl
@[simp] theorem State.postDispatch_exception (s : State) :
    (s.postDispatch).exception = s.exception := rfl
@[simp] theorem State.postDispatch_jump (s : State) :
    (s.postDispatch).jump = false := rfl
@[simp] theorem State.postDispatch_mem (s : State) :
    (s.postDispatch).mem = s.mem := rfl
@[simp] theorem State.postDispatch_readReg (s : State) (r : Reg) :
    (s.postDispatch).readReg r = s.readReg r := rfl

@[simp] theorem State.takeException_cfg (s : State) (e : Exception) :
    (s.takeException e).cfg = s.cfg := rfl
@[simp] theorem State.takeException_regs (s : State) (e : Exception) :
    (s.takeException e).regs = s.regs := rfl
@[simp] theorem State.takeException_pc (s : State) (e : Exception) :
    (s.takeException e).pc = s.pc := rfl
@[simp] theorem State.takeException_hi (s : State) (e : Exception) :
    (s.takeException e).hi = s.hi := rfl
@[simp] theorem State.takeException_lo (s : State) (e : Exception) :
    (s.takeException e).lo = s.lo := rfl
@[simp] theorem State.takeException_halted (s : State) (e : Exception) :
    (s.takeException e).halted = true := rfl
@[simp] theorem State.takeException_exception (s : State) (e : Exception) :
    (s.takeException e).exception = e := rfl
@[simp] theorem State.takeException_jump (s : State) (e : Exception) :
    (s.takeException e).jump = s.jump := rfl
@[simp] theorem State.takeException_mem (s : State) (e : Exception) :
    (s.takeException e).mem = s.mem := rfl
@[simp] theorem State.takeException_readReg (s : State) (e : Exception) (r : Reg) :
    (s.takeException e).readReg r = s.readReg r := rfl

@[simp] theorem State.raiseIf_cfg (s : State) (c : Bool) (e : Exception) :
    (s.raiseIf c e).cfg = s.cfg := by
  cases c <;> rfl
@[simp] theorem State.raiseIf_regs (s : State) (c : Bool) (e : Exception) :
    (s.raiseIf c e).regs = s.regs := by
  cases c <;> rfl
@[simp] theorem State.raiseIf_pc (s : State) (c : Bool) (e : Exception) :
    (s.raiseIf c e).pc = s.pc := by
  cases c <;> rfl
@[simp] theorem State.raiseIf_hi (s : State) (c : Bool) (e : Exception) :
    (s.raiseIf c e).hi = s.hi := by
  cases c <;> rfl
@[simp] theorem State.raiseIf_lo (s : State) (c : Bool) (e : Exception) :
    (s.raiseIf c e).lo = s.lo := by
  cases c <;> rfl
@[simp] theorem State.raiseIf_halted (s : State) (c : Bool) (e : Exception) :
    (s.raiseIf c e).halted = (c || s.halted) := by
  cases c <;> rfl
@[simp] theorem State.raiseIf_exception (s : State) (c : Bool) (e : Exception) :
    (s.raiseIf c e).exception = if c then e else s.exception := by
  cases c <;> rfl
@[simp] theorem State.raiseIf_jump (s : State) (c : Bool) (e : Exception) :
    (s.raiseIf c e).jump = s.jump := by
  cases c <;> rfl
@[simp] theorem State.raiseIf_mem (s : State) (c : Bool) (e : Exception) :
    (s.raiseIf c e).mem = s.mem := by
  cases c <;> rfl
@[simp] theorem State.raiseIf_readReg (s : State) (c : Bool) (e : Exception) (r : Reg) :
    (s.raiseIf c e).readReg r = s.readReg r := by
  cases c <;> rfl

@[simp] theorem State.raiseIf_true (s : State) (e : Exception) : s.raiseIf true e = s.takeException e := rfl

@[simp] theorem State.raiseIf_false (s : State) (e : Exception) : s.raiseIf false e = s := rfl

/-! ### Register ports (spec 10_state.md R27 to R29) -/

/-- Register 0 reads 0 in every state. -/
@[simp] theorem State.readReg_zero (s : State) : s.readReg 0#5 = 0#32 := rfl

/-- A write to register 0 is a no-op. -/
@[simp] theorem State.writeReg_zero (s : State) (v : Word) : s.writeReg 0#5 v = s := rfl

/-- A register other than 0 reads its slot. -/
theorem State.readReg_of_ne {r : Reg} (s : State) (h : r ≠ 0#5) : s.readReg r = s.regs[r.toNat] := by
  simp [State.readReg, h]

/-- A write to a register other than 0 sets its slot. -/
theorem State.writeReg_of_ne {r : Reg} (s : State) (v : Word) (h : r ≠ 0#5) :
    s.writeReg r v = { s with regs := s.regs.set r.toNat v } := by
  simp [State.writeReg, h]

/-- Everything the write port can do to a later read. -/
theorem State.readReg_writeReg (s : State) (r q : Reg) (v : Word) :
    (s.writeReg r v).readReg q = if q = r ∧ r ≠ 0#5 then v else s.readReg q := by
  by_cases hr : r = 0#5
  · simp [hr]
  · by_cases hq : q = 0#5
    · subst hq; simp [Ne.symm hr]
    · rw [State.writeReg_of_ne s v hr, State.readReg_of_ne _ hq, State.readReg_of_ne _ hq]
      simp only [Vector.getElem_set, hr, ne_eq, not_false_eq_true, and_true]
      by_cases h : q = r
      · simp [h]
      · have : r.toNat ≠ q.toNat := fun e => h (BitVec.eq_of_toNat_eq e.symm)
        simp [h, this]

/-- A register reads what was last written to it. -/
theorem State.readReg_writeReg_self (s : State) {r : Reg} (v : Word) (h : r ≠ 0#5) :
    (s.writeReg r v).readReg r = v := by
  simp [State.readReg_writeReg, h]

/-- A write leaves every other register alone. -/
theorem State.readReg_writeReg_of_ne (s : State) {r q : Reg} (v : Word) (h : q ≠ r) :
    (s.writeReg r v).readReg q = s.readReg q := by
  simp [State.readReg_writeReg, h]

/-- Writes to different registers commute. -/
theorem State.writeReg_comm (s : State) {r q : Reg} (v w : Word) (h : r ≠ q) :
    (s.writeReg r v).writeReg q w = (s.writeReg q w).writeReg r v := by
  by_cases hr : r = 0#5
  · simp [hr]
  · by_cases hq : q = 0#5
    · simp [hq]
    · have hne : r.toNat ≠ q.toNat := fun e => h (BitVec.eq_of_toNat_eq e)
      simp only [State.writeReg_of_ne _ _ hr, State.writeReg_of_ne _ _ hq]
      congr 1
      apply Vector.ext
      intro i hi
      simp only [Vector.getElem_set]
      split <;> split <;> simp_all

/-- A write changes nothing but the register file. -/
theorem State.writeReg_eq (s : State) (r : Reg) (v : Word) :
    s.writeReg r v = { s with regs := (s.writeReg r v).regs } := by
  unfold State.writeReg; split <;> rfl

/-- The stored slot of register 0 is never written. -/
@[simp] theorem State.writeReg_zeroSlot (s : State) (r : Reg) (v : Word) : (s.writeReg r v).regs[0] = s.regs[0] := by
  by_cases hr : r = 0#5
  · simp [hr]
  · have : r.toNat ≠ 0 := fun e => hr (BitVec.eq_of_toNat_eq (by simpa using e))
    simp [State.writeReg_of_ne _ _ hr, this]

@[simp] theorem State.writeHigh_zeroSlot (s : State) (r : Reg) (h : Half) :
    (s.writeHigh r h).regs[0] = s.regs[0] := State.writeReg_zeroSlot ..

/-- The write-high port in terms of the write port. -/
theorem State.writeHigh_eq (s : State) (r : Reg) (h : Half) :
    s.writeHigh r h = s.writeReg r (replaceHigh h (s.readReg r)) := rfl

/-- The replaced upper half and the kept lower half (R29). -/
theorem replaceHigh_eq_append (h : Half) (v : Word) : replaceHigh h v = h ++ v.extractLsb' 0 16 := by
  apply BitVec.eq_of_getLsbD_eq
  intro i hi
  have hmask : (0x0000FFFF#32) = (BitVec.allOnes 16).setWidth 32 := by decide
  simp only [replaceHigh, zeroExtend16, hmask, BitVec.getLsbD_or, BitVec.getLsbD_shiftLeft, BitVec.getLsbD_and,
    BitVec.getLsbD_setWidth, BitVec.getLsbD_append, BitVec.getLsbD_extractLsb', BitVec.getLsbD_allOnes]
  by_cases hl : i < 16
  · simp [hl, hi]
  · have : i - 16 < 32 := by omega
    simp [hl, hi, this]

/-! ### Memory through the state -/

/-- Everything a write through the state's accessor can do. -/
theorem State.writeMem_ok {s t : State} {w : Width} {a v : Word} (h : s.writeMem w a v = .ok t) :
    ∃ m, s.mem.write s.cfg.stackTopByte w a v = .ok m ∧ t = { s with mem := m } := by
  unfold State.writeMem at h
  split at h
  · cases h
  · next m hm => exact ⟨m, hm, by simpa using h.symm⟩

/-! ### A register write commutes with the other updates -/

theorem State.raiseIf_writeReg (s : State) (r : Reg) (v : Word) (c : Bool)
    (e : Exception) : (s.writeReg r v).raiseIf c e = (s.raiseIf c e).writeReg r v := by
  cases c
  · rfl
  · unfold State.raiseIf State.takeException State.writeReg
    simp only [if_true]
    split <;> rfl

theorem State.takeException_writeReg (s : State) (r : Reg) (v : Word)
    (e : Exception) : (s.writeReg r v).takeException e = (s.takeException e).writeReg r v :=
  State.raiseIf_writeReg s r v true e

theorem State.writeHiLo_writeReg (s : State) (r : Reg) (v : Word) (p : Word × Word) : (s.writeReg r v).writeHiLo p =
    (s.writeHiLo p).writeReg r v := by
    unfold State.writeHiLo State.writeReg
    split <;> rfl

theorem State.jumpTo_writeReg (s : State) (r : Reg) (v : Word) (p : Word) : (s.writeReg r v).jumpTo p =
    (s.jumpTo p).writeReg r v := by
    unfold State.jumpTo State.writeReg
    split <;> rfl

end Sys2Proof.Machine
end

