-- ==== Sys2Proof/Laws/Memory.lean ====
section
/-! SUPPORT. The laws of buffers and of the segmented memory: what each operation can do, said once (spec 20_memory.md R53
to R60, R73). -/

namespace Sys2Proof.Machine

/-! ### Cell lists -/

theorem cellsWf_mono {len len' lo lo' : Nat} {l : List Host.Cell} (h : cellsWf len lo l = true)
    (hlo : lo' ≤ lo) (hlen : len ≤ len') : cellsWf len' lo' l = true := by
  induction l generalizing lo lo' with
  | nil => rfl
  | cons c rest ih =>
    obtain ⟨k, v⟩ := c
    simp only [cellsWf, Bool.and_eq_true, decide_eq_true_eq] at h ⊢
    obtain ⟨⟨⟨h1, h2⟩, h3⟩, h4⟩ := h
    exact ⟨⟨⟨by omega, by omega⟩, h3⟩, ih h4 (Nat.le_refl _)⟩

theorem lookupCell_below {len lo i : Nat} {l : List Host.Cell} (h : cellsWf len lo l = true) (hi : i < lo) :
    lookupCell l i = 0#8 := by
  induction l generalizing lo with
  | nil => rfl
  | cons c rest ih =>
    obtain ⟨k, v⟩ := c
    simp only [cellsWf, Bool.and_eq_true, decide_eq_true_eq] at h
    have hk : k ≠ i := by omega
    simp only [lookupCell, hk, if_false]
    exact ih h.2 (by omega)

theorem lookupCell_above {len lo i : Nat} {l : List Host.Cell} (h : cellsWf len lo l = true) (hi : len ≤ i) :
    lookupCell l i = 0#8 := by
  induction l generalizing lo with
  | nil => rfl
  | cons c rest ih =>
    obtain ⟨k, v⟩ := c
    simp only [cellsWf, Bool.and_eq_true, decide_eq_true_eq] at h
    have hk : k ≠ i := by omega
    simp only [lookupCell, hk, if_false]
    exact ih h.2

/-- Setting a byte changes that byte and no other. -/
theorem lookupCell_insertCell {len lo : Nat} {l : List Host.Cell} (h : cellsWf len lo l = true) (i j : Nat) (v : Byte) :
    lookupCell (insertCell l i v) j = if j = i then v else lookupCell l j := by
  induction l generalizing lo with
  | nil =>
    simp only [insertCell]
    split
    · next hv => simp [lookupCell, hv]
    · simp [lookupCell, eq_comm]
  | cons c rest ih =>
    obtain ⟨k, x⟩ := c
    simp only [cellsWf, Bool.and_eq_true, decide_eq_true_eq] at h
    obtain ⟨-, h4⟩ := h
    simp only [insertCell]
    by_cases h1 : k < i
    · simp only [h1, if_true, lookupCell, ih h4]
      by_cases hj : k = j
      · have : j ≠ i := by omega
        simp [hj, this]
      · simp [hj]
    · by_cases h2 : k = i
      · subst h2
        simp only [Nat.lt_irrefl, if_false, if_true]
        by_cases hv : v = 0#8
        · simp only [hv, if_true, lookupCell]
          by_cases hj : j = k
          · simp [hj, lookupCell_below h4 (Nat.lt_succ_self k)]
          · simp [hj, Ne.symm hj]
        · by_cases hj : j = k
          · simp [hv, lookupCell, hj]
          · simp [hv, lookupCell, hj, Ne.symm hj]
      · simp only [h1, h2, if_false]
        by_cases hv : v = 0#8
        · simp only [hv, if_true, lookupCell]
          by_cases hj : j = i
          · have hkj : k ≠ j := by omega
            simp [hj, h2, lookupCell_below h4 (i := i) (by omega)]
          · simp [hj]
        · by_cases hj : j = i
          · simp [hv, lookupCell, hj]
          · simp [hv, lookupCell, hj, Ne.symm hj]

/-- Setting a byte keeps the canonical form. -/
theorem cellsWf_insertCell {len len' lo i : Nat} {l : List Host.Cell} (v : Byte) (h : cellsWf len lo l = true)
    (hlo : lo ≤ i) (hi : i < len') (hlen : len ≤ len') : cellsWf len' lo (insertCell l i v) = true := by
  induction l generalizing lo with
  | nil =>
    simp only [insertCell]
    split
    · rfl
    · next hv => simp [cellsWf, hlo, hi, hv]
  | cons c rest ih =>
    obtain ⟨k, x⟩ := c
    have hw := h
    simp only [cellsWf, Bool.and_eq_true, decide_eq_true_eq] at h
    obtain ⟨⟨⟨h1, h2⟩, h3⟩, h4⟩ := h
    simp only [insertCell]
    by_cases hk : k < i
    · simp only [hk, if_true, cellsWf, Bool.and_eq_true, decide_eq_true_eq]
      exact ⟨⟨⟨h1, by omega⟩, h3⟩, ih h4 (by omega)⟩
    · by_cases hk2 : k = i
      · subst hk2
        simp only [Nat.lt_irrefl, if_false, if_true]
        split
        · exact cellsWf_mono h4 (by omega) hlen
        · next hv =>
          simp only [cellsWf, Bool.and_eq_true, decide_eq_true_eq]
          exact ⟨⟨⟨hlo, hi⟩, by simpa using hv⟩, cellsWf_mono h4 (Nat.le_refl _) hlen⟩
      · simp only [hk, hk2, if_false]
        split
        · exact cellsWf_mono hw (Nat.le_refl _) hlen
        · next hv =>
          simp only [cellsWf, Bool.and_eq_true, decide_eq_true_eq]
          exact ⟨⟨⟨hlo, hi⟩, by simpa using hv⟩, ⟨⟨by omega, by omega⟩, h3⟩, cellsWf_mono h4 (Nat.le_refl _) hlen⟩

/-- Canonical cell lists that agree at every index are equal. -/
theorem cells_ext {len lo : Nat} {l l' : List Host.Cell} (h : cellsWf len lo l = true) (h' : cellsWf len lo l' = true)
    (heq : ∀ i, lookupCell l i = lookupCell l' i) : l = l' := by
  induction l generalizing lo l' with
  | nil =>
    cases l' with
    | nil => rfl
    | cons c rest =>
      obtain ⟨k, v⟩ := c
      simp only [cellsWf, Bool.and_eq_true, bne_iff_ne, ne_eq] at h'
      exact absurd (heq k).symm (by simpa [lookupCell] using h'.1.2)
  | cons c rest ih =>
    obtain ⟨k, v⟩ := c
    simp only [cellsWf, Bool.and_eq_true, decide_eq_true_eq, bne_iff_ne, ne_eq] at h
    cases l' with
    | nil => exact absurd (heq k) (by simpa [lookupCell] using h.1.2)
    | cons c' rest' =>
      obtain ⟨k', v'⟩ := c'
      simp only [cellsWf, Bool.and_eq_true, decide_eq_true_eq, bne_iff_ne, ne_eq] at h'
      have hk : k = k' := by
        rcases Nat.lt_trichotomy k k' with hlt | heq' | hgt
        · have e := heq k
          have : k' ≠ k := by omega
          simp only [lookupCell, if_true, this, if_false] at e
          rw [lookupCell_below h'.2 (by omega)] at e
          exact absurd e h.1.2
        · exact heq'
        · have e := heq k'
          have : k ≠ k' := by omega
          simp only [lookupCell, if_true, this, if_false] at e
          rw [lookupCell_below h.2 (by omega)] at e
          exact absurd e.symm h'.1.2
      subst hk
      have hv : v = v' := by simpa [lookupCell] using heq k
      subst hv
      have hrest : rest = rest' := by
        refine ih h.2 h'.2 fun i => ?_
        have e := heq i
        by_cases hi : k = i
        · subst hi
          rw [lookupCell_below h.2 (by omega), lookupCell_below h'.2 (by omega)]
        · simpa [lookupCell, hi] using e
      rw [hrest]

/-! ### Buffers -/

@[simp] theorem Buffer.set_len (b : Buffer) (i : Nat) (v : Byte) : (b.set i v).len = max b.len (i + 1) := rfl

@[simp] theorem Buffer.grow_len (b : Buffer) (n : Nat) : (b.grow n).len = max b.len n := rfl

@[simp] theorem Buffer.grow_cells (b : Buffer) (n : Nat) : (b.grow n).cells = b.cells := rfl

theorem Buffer.wf_set {b : Buffer} (h : b.wf = true) (i : Nat) (v : Byte) : (b.set i v).wf = true :=
  cellsWf_insertCell v h (Nat.zero_le _) (by simp) (by simp)

theorem Buffer.wf_grow {b : Buffer} (h : b.wf = true) (n : Nat) : (b.grow n).wf = true :=
  cellsWf_mono h (Nat.le_refl _) (by simp)

/-- A byte of a canonical buffer past its length reads as the fill value in its cells. -/
theorem Buffer.lookup_past {b : Buffer} (h : b.wf = true) {i : Nat} (hi : b.len ≤ i) : lookupCell b.cells i = 0#8 :=
  lookupCell_above h hi

/-- Everything a byte write can do to a byte read (R57, R58). -/
theorem Buffer.get_set {b : Buffer} (h : b.wf = true) (i j : Nat) (v : Byte) :
    (b.set i v).get j =
      if j = i then some v else if j < b.len then b.get j else if j < i then some 0#8 else none := by
  simp only [Buffer.get, Buffer.set, lookupCell_insertCell h]
  by_cases hj : j = i
  · subst hj
    have : j < max b.len (j + 1) := by omega
    simp [this]
  · by_cases hl : j < b.len
    · have : j < max b.len (i + 1) := by omega
      simp [hj, hl, this]
    · by_cases hi : j < i
      · have : j < max b.len (i + 1) := by omega
        simp [hj, hl, hi, this, Buffer.lookup_past h (Nat.le_of_not_lt hl)]
      · have : ¬ j < max b.len (i + 1) := by omega
        simp [hj, hl, hi, this]

theorem Buffer.get_set_self (b : Buffer) (h : b.wf = true) (i : Nat) (v : Byte) : (b.set i v).get i = some v := by
  simp [Buffer.get_set h]

/-- A byte exists exactly below the length. -/
theorem Buffer.get_eq_none_iff (b : Buffer) (i : Nat) : b.get i = none ↔ b.len ≤ i := by
  simp only [Buffer.get]
  split <;> simp <;> omega

/-- Canonical buffers of one length that agree at every index are equal data. -/
theorem Buffer.ext_of_wf {b b' : Buffer} (h : b.wf = true) (h' : b'.wf = true) (hlen : b.len = b'.len)
    (hget : ∀ i, b.get i = b'.get i) : b = b' := by
  obtain ⟨len, cells⟩ := b
  obtain ⟨len', cells'⟩ := b'
  simp only at hlen
  subst hlen
  congr 1
  refine cells_ext h h' fun i => ?_
  by_cases hi : i < len
  · simpa [Buffer.get, hi] using hget i
  · have hi : len ≤ i := Nat.le_of_not_lt hi
    rw [lookupCell_above h hi, lookupCell_above h' hi]

/-! ### Segments -/

@[simp] theorem Memory.buffer_setBuffer (m : Memory) (seg seg' : Segment) (b : Buffer) :
    (m.setBuffer seg b).buffer seg' = if seg' = seg then b else m.buffer seg' := by
  cases seg <;> cases seg' <;> rfl

@[simp] theorem Memory.base_setBuffer (m : Memory) (seg seg' : Segment) (b : Buffer) :
    (m.setBuffer seg b).base seg' = m.base seg' := by
  cases seg <;> cases seg' <;> rfl

@[simp] theorem Memory.basesDistinct_setBuffer (m : Memory) (seg : Segment) (b : Buffer) :
    (m.setBuffer seg b).basesDistinct = m.basesDistinct := by
  cases seg <;> rfl

@[simp] theorem Memory.resolve_setBuffer (m : Memory) (seg : Segment) (b : Buffer) (a : Word) :
    (m.setBuffer seg b).resolve a = m.resolve a := by
  cases seg <;> rfl

@[simp] theorem Memory.index_setBuffer (m : Memory) (seg seg' : Segment) (b : Buffer) (top : Word) (n : Nat) :
    (m.setBuffer seg b).index top seg' n = m.index top seg' n := by
  cases seg <;> cases seg' <;> rfl

theorem Memory.wf_iff (m : Memory) : m.wf = true ↔ ∀ seg, (m.buffer seg).wf = true := by
  constructor
  · intro h seg
    simp only [Memory.wf, Bool.and_eq_true] at h
    cases seg <;> simp [Memory.buffer, h]
  · intro h
    have h1 := h .text
    have h2 := h .data
    have h3 := h .heap
    have h4 := h .stack
    simp only [Memory.buffer] at h1 h2 h3 h4
    simp [Memory.wf, h1, h2, h3, h4]

theorem Memory.wf_setBuffer {m : Memory} (h : m.wf = true) (seg : Segment) {b : Buffer} (hb : b.wf = true) :
    (m.setBuffer seg b).wf = true := by
  rw [Memory.wf_iff] at h ⊢
  intro seg'
  rw [Memory.buffer_setBuffer]
  split
  · exact hb
  · exact h seg'

/-- Memories with the same bases and buffers are equal. -/
theorem Memory.ext_of_parts {m m' : Memory} (hb : ∀ seg, m.base seg = m'.base seg)
    (hc : ∀ seg, m.buffer seg = m'.buffer seg) : m = m' := by
  cases m; cases m'
  have b1 := hb .text
  have b2 := hb .data
  have b3 := hb .heap
  have b4 := hb .stack
  have c1 := hc .text
  have c2 := hc .data
  have c3 := hc .heap
  have c4 := hc .stack
  simp only [Memory.base, Memory.buffer] at b1 b2 b3 b4 c1 c2 c3 c4
  simp [*]

/-- Canonical memories with the same bases and lengths that read the same byte at every index are equal data. -/
theorem Memory.ext_of_wf {m m' : Memory} (h : m.wf = true) (h' : m'.wf = true) (hb : ∀ seg, m.base seg = m'.base seg)
    (hlen : ∀ seg, (m.buffer seg).len = (m'.buffer seg).len)
    (hget : ∀ seg i, (m.buffer seg).get i = (m'.buffer seg).get i) : m = m' :=
  Memory.ext_of_parts hb fun seg =>
    Buffer.ext_of_wf ((Memory.wf_iff m).mp h seg) ((Memory.wf_iff m').mp h' seg) (hlen seg) (hget seg)

/-- Byte writes at different indices commute (R73). -/
theorem Buffer.set_comm {b : Buffer} (h : b.wf = true) {i j : Nat} (v w : Byte) (hne : i ≠ j) :
    (b.set i v).set j w = (b.set j w).set i v := by
  refine Buffer.ext_of_wf (Buffer.wf_set (Buffer.wf_set h i v) j w) (Buffer.wf_set (Buffer.wf_set h j w) i v)
    (by simp only [Buffer.set_len]; omega) fun n => ?_
  simp only [Buffer.get_set (Buffer.wf_set h i v), Buffer.get_set (Buffer.wf_set h j w), Buffer.get_set h,
    Buffer.set_len]
  by_cases h1 : n = i
  · subst h1
    have : n < max b.len (n + 1) := by omega
    simp [hne, this]
  · by_cases h2 : n = j
    · subst h2
      have : n < max b.len (n + 1) := by omega
      simp [h1, this]
    · simp only [h1, h2, if_false]
      repeat' split
      all_goals first | rfl | omega

/-! ### Index (R55) -/

/-- When a byte has an index, and which. -/
theorem Memory.index_ok_iff (m : Memory) (top : Word) (seg : Segment) (n i : Nat) :
    m.index top seg n = .ok i ↔
      if seg = .stack then n ≤ top.toNat ∧ i = top.toNat - n else i = n - (m.base seg).toNat := by
  cases seg <;> simp [Memory.index, Memory.base, eq_comm]
  split <;> simp_all

/-- Bytes of one access at different offsets have different indices. -/
theorem Memory.index_inj {m : Memory} {top : Word} {seg : Segment} {n n' i i' : Nat}
    (hb : seg ≠ .stack → (m.base seg).toNat ≤ n ∧ (m.base seg).toNat ≤ n')
    (h : m.index top seg n = .ok i) (h' : m.index top seg n' = .ok i') (hne : n ≠ n') : i ≠ i' := by
  rw [Memory.index_ok_iff] at h h'
  by_cases hs : seg = .stack
  · simp only [hs, if_true] at h h'; omega
  · simp only [hs, if_false] at h h'
    have := hb hs
    omega

/-! ### Resolution (R53) -/

/-- A list of (base, segment) pairs with its bases ascending. -/
abbrev BasesSorted (l : List (Word × Segment)) : Prop := l.Pairwise fun p q => p.1.toNat ≤ q.1.toNat

theorem mem_insertBase (p q : Word × Segment) (l : List (Word × Segment)) :
    q ∈ insertBase p l ↔ q = p ∨ q ∈ l := by
  induction l with
  | nil => simp [insertBase]
  | cons r rest ih =>
    simp only [insertBase]
    split
    · simp
    · simp only [List.mem_cons, ih]
      tauto

theorem sorted_insertBase (p : Word × Segment) {l : List (Word × Segment)} (h : BasesSorted l) :
    BasesSorted (insertBase p l) := by
  induction l with
  | nil => simp [insertBase, BasesSorted]
  | cons r rest ih =>
    simp only [insertBase]
    have hr := List.pairwise_cons.mp h
    split
    · next hle =>
      refine List.pairwise_cons.mpr ⟨fun q hq => ?_, h⟩
      rcases List.mem_cons.mp hq with rfl | hq
      · exact hle
      · exact Nat.le_trans hle (hr.1 q hq)
    · next hle =>
      refine List.pairwise_cons.mpr ⟨fun q hq => ?_, ih hr.2⟩
      rcases (mem_insertBase p q rest).mp hq with rfl | hq
      · omega
      · exact hr.1 q hq

theorem Memory.sorted_sortedBases (m : Memory) : BasesSorted m.sortedBases :=
  sorted_insertBase _ (sorted_insertBase _ (sorted_insertBase _ (by simp [BasesSorted])))

theorem Memory.mem_sortedBases (m : Memory) (b : Word) (seg : Segment) :
    (b, seg) ∈ m.sortedBases ↔ b = m.base seg := by
  cases seg <;> simp [Memory.sortedBases, mem_insertBase, Memory.base]

/-- The walk ends at the last base not above the address. -/
theorem lastBaseAtMost_some {a : Word} {l : List (Word × Segment)} (hl : BasesSorted l) {b0 : Word} {seg0 seg : Segment}
    (h0 : b0.toNat ≤ a.toNat) (hb : ∀ p ∈ l, b0.toNat ≤ p.1.toNat) (h : lastBaseAtMost a (some seg0) l = some seg) :
    ∃ b, (b, seg) ∈ (b0, seg0) :: l ∧ b.toNat ≤ a.toNat ∧
      ∀ p ∈ (b0, seg0) :: l, p.1.toNat ≤ a.toNat → p.1.toNat ≤ b.toNat := by
  induction l generalizing b0 seg0 with
  | nil =>
    obtain rfl : seg0 = seg := by simpa [lastBaseAtMost] using h
    exact ⟨b0, by simp, h0, by simp⟩
  | cons p rest ih =>
    obtain ⟨b1, seg1⟩ := p
    have hp := List.pairwise_cons.mp hl
    simp only [lastBaseAtMost] at h
    split at h
    · next hle =>
      obtain ⟨b, hmem, hba, hmax⟩ := ih hp.2 hle hp.1 h
      refine ⟨b, List.mem_cons_of_mem _ hmem, hba, fun q hq hqa => ?_⟩
      rcases List.mem_cons.mp hq with rfl | hq
      · exact Nat.le_trans (hb (b1, seg1) (by simp)) (hmax (b1, seg1) (by simp) hle)
      · exact hmax q hq hqa
    · next hgt =>
      obtain rfl : seg0 = seg := by simpa using h
      refine ⟨b0, by simp, h0, fun q hq hqa => ?_⟩
      rcases List.mem_cons.mp hq with rfl | hq
      · exact Nat.le_refl _
      · rcases List.mem_cons.mp hq with rfl | hq
        · exact absurd hqa hgt
        · exact absurd (Nat.le_trans (hp.1 q hq) hqa) hgt

theorem lastBaseAtMost_isSome (a : Word) (seg : Segment) (l : List (Word × Segment)) :
    lastBaseAtMost a (some seg) l ≠ none := by
  induction l generalizing seg with
  | nil => simp [lastBaseAtMost]
  | cons p rest ih =>
    obtain ⟨b, s⟩ := p
    simp only [lastBaseAtMost]
    split
    · exact ih s
    · simp

/-- The segment an address resolves to has the greatest base not above it. -/
theorem Memory.resolve_ok {m : Memory} {a : Word} {seg : Segment} (h : m.resolve a = .ok seg) :
    (m.base seg).toNat ≤ a.toNat ∧
      ∀ seg', (m.base seg').toNat ≤ a.toNat → (m.base seg').toNat ≤ (m.base seg).toNat := by
  have hs := m.sorted_sortedBases
  have hm := m.mem_sortedBases
  unfold Memory.resolve at h
  generalize m.sortedBases = l at *
  cases l with
  | nil => simp [lastBaseAtMost] at h
  | cons p rest =>
    obtain ⟨b0, seg0⟩ := p
    have hp := List.pairwise_cons.mp hs
    simp only [lastBaseAtMost] at h
    by_cases hle : b0.toNat ≤ a.toNat
    · simp only [hle, if_true] at h
      have hsome : lastBaseAtMost a (some seg0) rest = some seg := by
        cases hx : lastBaseAtMost a (some seg0) rest with
        | none => exact absurd hx (lastBaseAtMost_isSome a seg0 rest)
        | some x => simpa [hx] using h
      obtain ⟨b, hmem, hba, hmax⟩ := lastBaseAtMost_some hp.2 hle hp.1 hsome
      obtain rfl := (hm b seg).mp hmem
      exact ⟨hba, fun seg' hseg' => hmax (m.base seg', seg') ((hm _ seg').mpr rfl) hseg'⟩
    · simp [hle] at h

/-- An address below every base resolves to no segment, with InvalidAddress (R54). -/
theorem Memory.resolve_error_iff (m : Memory) (a : Word) (f : Fault) :
    m.resolve a = .error f ↔ f = .invalidAddress a ∧ ∀ seg, a.toNat < (m.base seg).toNat := by
  have hs := m.sorted_sortedBases
  have hm := m.mem_sortedBases
  unfold Memory.resolve
  generalize m.sortedBases = l at *
  cases l with
  | nil => exact absurd ((hm (m.base .text) .text).mpr rfl) (by simp)
  | cons p rest =>
    obtain ⟨b0, seg0⟩ := p
    have hp := List.pairwise_cons.mp hs
    simp only [lastBaseAtMost]
    by_cases hle : b0.toNat ≤ a.toNat
    · simp only [hle, if_true]
      cases hx : lastBaseAtMost a (some seg0) rest with
      | none => exact absurd hx (lastBaseAtMost_isSome a seg0 rest)
      | some x =>
        have h0 := (hm b0 seg0).mp (by simp)
        constructor
        · intro h; simp at h
        · rintro ⟨-, hall⟩
          have := hall seg0
          rw [← h0] at this
          omega
    · simp only [hle, if_false]
      constructor
      · intro h
        refine ⟨by simpa using h.symm, fun seg => ?_⟩
        have := (hm (m.base seg) seg).mpr rfl
        rcases List.mem_cons.mp this with he | he
        · have : m.base seg = b0 := by simpa using congrArg Prod.fst he
          rw [this]; omega
        · have := hp.1 _ he
          simp only at this
          omega
      · rintro ⟨rfl, -⟩; rfl

/-! ### Reads (R57, R59) -/

/-- One byte of an access: its index and the byte there. -/
theorem Memory.readByte_ok_iff (m : Memory) (top : Word) (seg : Segment) (a : Word) (k : Nat) (v : Byte) :
    m.readByte top seg a k = .ok v ↔
      ∃ i, m.index top seg (a.toNat + k) = .ok i ∧ (m.buffer seg).get i = some v := by
  unfold Memory.readByte
  cases m.index top seg (a.toNat + k) with
  | error f => simp
  | ok i => cases h : (m.buffer seg).get i <;> simp [h]

/-- The bytes of an access, one by one. -/
theorem Memory.readBytes_ok {m : Memory} {top : Word} {seg : Segment} {a : Word} {k n : Nat} {bs : List Byte}
    (h : m.readBytes top seg a k n = .ok bs) :
    bs.length = n ∧ ∀ j (hj : j < bs.length), m.readByte top seg a (k + j) = .ok bs[j] := by
  induction n generalizing k bs with
  | zero =>
    obtain rfl : [] = bs := by simpa [Memory.readBytes] using h
    exact ⟨rfl, fun j hj => absurd hj (by simp)⟩
  | succ n ih =>
    simp only [Memory.readBytes] at h
    split at h
    · cases h
    · next v hv =>
      split at h
      · cases h
      · next vs hvs =>
        obtain rfl : v :: vs = bs := by simpa using h
        obtain ⟨hlen, hall⟩ := ih hvs
        refine ⟨by simp [hlen], fun j hj => ?_⟩
        cases j with
        | zero => simpa using hv
        | succ j =>
          have := hall j (by simpa using hj)
          rw [show k + (j + 1) = k + 1 + j by omega]
          simpa using this

/-- Four present bytes are read as one list. -/
theorem Memory.readBytes_of_forall {m : Memory} {top : Word} {seg : Segment} {a : Word} {k : Nat} {bs : List Byte}
    (h : ∀ j (hj : j < bs.length), m.readByte top seg a (k + j) = .ok bs[j]) :
    m.readBytes top seg a k bs.length = .ok bs := by
  induction bs generalizing k with
  | nil => rfl
  | cons v vs ih =>
    have h0 : m.readByte top seg a k = .ok v := h 0 (by simp)
    have hrest : m.readBytes top seg a (k + 1) vs.length = .ok vs := ih fun j hj => by
      have := h (j + 1) (by simpa using hj)
      rw [show k + 1 + j = k + (j + 1) by omega]
      simpa using this
    simp [Memory.readBytes, h0, hrest]

/-! ### Writes (R58, R60) -/

@[simp] theorem splitBytes_length (n : Nat) (v : Word) : (splitBytes n v).length = n := by
  induction n with
  | zero => rfl
  | succ n ih => simp [splitBytes, ih]

/-- Byte `k` of a split value is bits `8(n-k)-1 : 8(n-k-1)` (R60). -/
theorem splitBytes_getElem (n : Nat) (v : Word) (k : Nat) (hk : k < (splitBytes n v).length) :
    (splitBytes n v)[k] = v.extractLsb' (8 * (n - 1 - k)) 8 := by
  induction n generalizing k with
  | zero => simp at hk
  | succ n ih =>
    cases k with
    | zero => simp [splitBytes]
    | succ k =>
      simp only [splitBytes, List.getElem_cons_succ]
      rw [ih k (by simpa using hk)]
      congr 2
      omega

/-- What storing bytes in one segment can do: bases and the other buffers stay, the canonical form is kept, each byte is at
its index, and any other index of the buffer holds what it held, or 0 where growth made it. -/
structure StoredAt (m m' : Memory) (top : Word) (seg : Segment) (a : Word) (k : Nat) (bs : List Byte) : Prop where
  base : ∀ seg', m'.base seg' = m.base seg'
  other : ∀ seg', seg' ≠ seg → m'.buffer seg' = m.buffer seg'
  wf : m.wf = true → m'.wf = true
  grows : (m.buffer seg).len ≤ (m'.buffer seg).len
  stored : m.wf = true → (seg ≠ .stack → (m.base seg).toNat ≤ a.toNat) →
    ∀ j (hj : j < bs.length), ∃ i, m.index top seg (a.toNat + (k + j)) = .ok i ∧ (m'.buffer seg).get i = some bs[j]
  kept : m.wf = true → ∀ i, (∀ j, j < bs.length → m.index top seg (a.toNat + (k + j)) ≠ .ok i) →
    (m'.buffer seg).get i = (m.buffer seg).get i ∨
      ((m.buffer seg).get i = none ∧ (m'.buffer seg).get i = some 0#8)

theorem Memory.index_congr {m m' : Memory} (h : ∀ seg, m'.base seg = m.base seg) (top : Word) (seg : Segment)
    (n : Nat) :
    m'.index top seg n = m.index top seg n := by
  cases seg <;> simp only [Memory.index]
  · have := h .text; simp only [Memory.base] at this; rw [this]
  · have := h .data; simp only [Memory.base] at this; rw [this]
  · have := h .heap; simp only [Memory.base] at this; rw [this]

theorem Memory.resolve_congr {m m' : Memory} (h : ∀ seg, m'.base seg = m.base seg) (a : Word) :
    m'.resolve a = m.resolve a := by
  have h1 := h .text
  have h2 := h .data
  have h3 := h .heap
  have h4 := h .stack
  simp only [Memory.base] at h1 h2 h3 h4
  simp [Memory.resolve, Memory.sortedBases, h1, h2, h3, h4]

theorem Memory.basesDistinct_congr {m m' : Memory} (h : ∀ seg, m'.base seg = m.base seg) :
    m'.basesDistinct = m.basesDistinct := by
  have h1 := h .text
  have h2 := h .data
  have h3 := h .heap
  have h4 := h .stack
  simp only [Memory.base] at h1 h2 h3 h4
  simp [Memory.basesDistinct, h1, h2, h3, h4]

/-- Everything storing bytes can do. -/
theorem Memory.writeBytes_ok {top : Word} {seg : Segment} {a : Word} {k : Nat} {bs : List Byte} {m m' : Memory}
    (h : Memory.writeBytes top seg a k bs m = .ok m') : StoredAt m m' top seg a k bs := by
  induction bs generalizing k m with
  | nil =>
    obtain rfl : m = m' := by simpa [Memory.writeBytes] using h
    exact ⟨fun _ => rfl, fun _ _ => rfl, id, Nat.le_refl _, fun _ _ j hj => absurd hj (by simp), fun _ _ _ => .inl rfl⟩
  | cons v vs ih =>
    simp only [Memory.writeBytes] at h
    split at h
    · cases h
    · next i hi =>
      have r := ih h
      have hbase : ∀ seg', m'.base seg' = m.base seg' := fun seg' => by
        rw [r.base]; exact Memory.base_setBuffer ..
      have hwf : m.wf = true → (m.setBuffer seg ((m.buffer seg).set i v)).wf = true := fun hm =>
        Memory.wf_setBuffer hm seg (Buffer.wf_set ((Memory.wf_iff m).mp hm seg) i v)
      have hrg := r.grows
      simp only [Memory.buffer_setBuffer, if_true, Buffer.set_len] at hrg
      refine ⟨hbase, fun seg' hne => ?_, fun hm => r.wf (hwf hm), by omega, fun hm hb j hj => ?_, fun hm i' hi' => ?_⟩
      · rw [r.other seg' hne]; simp [hne]
      · cases j with
        | zero =>
          refine ⟨i, by simpa using hi, ?_⟩
          have hk := r.kept (hwf hm) i fun j' hj' heq => by
            rw [Memory.index_setBuffer] at heq
            refine Memory.index_inj ?_ hi heq (by omega) rfl
            intro hs
            have := hb hs
            omega
          rw [Memory.buffer_setBuffer, if_pos rfl, Buffer.get_set_self _ ((Memory.wf_iff m).mp hm seg)] at hk
          rcases hk with hk | ⟨hk, -⟩
          · simpa using hk
          · cases hk
        | succ j =>
          obtain ⟨i2, h1, h2⟩ := r.stored (hwf hm) (by simpa using hb) j (by simpa using hj)
          refine ⟨i2, ?_, by simpa using h2⟩
          rw [Memory.index_setBuffer] at h1
          rw [← h1]
          congr 2
          omega
      · have hne : i' ≠ i := fun e => hi' 0 (by simp) (by rw [e]; simpa using hi)
        have hk := r.kept (hwf hm) i' fun j' hj' heq => hi' (j' + 1) (by simpa using hj') (by
          rw [Memory.index_setBuffer] at heq
          rw [← heq]
          congr 2
          omega)
        rw [Memory.buffer_setBuffer, if_pos rfl, Buffer.get_set ((Memory.wf_iff m).mp hm seg), if_neg hne] at hk
        by_cases hl : i' < (m.buffer seg).len
        · rw [if_pos hl] at hk
          exact hk
        · have hnone := (Buffer.get_eq_none_iff (m.buffer seg) i').mpr (Nat.le_of_not_lt hl)
          rw [if_neg hl] at hk
          by_cases hlt : i' < i
          · rw [if_pos hlt] at hk
            rcases hk with hk | ⟨hk, -⟩
            · exact .inr ⟨hnone, hk⟩
            · cases hk
          · rw [if_neg hlt] at hk
            rcases hk with hk | ⟨-, hk⟩
            · exact .inl (by rw [hk, hnone])
            · exact .inr ⟨hnone, hk⟩

/-- Everything a write accessor can do. -/
theorem Memory.write_ok {m m' : Memory} {top : Word} {w : Width} {a v : Word} (h : m.write top w a v = .ok m') :
    ∃ seg, m.resolve a = .ok seg ∧ StoredAt m m' top seg a 0 (splitBytes w.bytes v) := by
  unfold Memory.write at h
  split at h
  · cases h
  · next seg hseg => exact ⟨seg, hseg, Memory.writeBytes_ok h⟩

/-- A write keeps the canonical form. -/
theorem Memory.wf_write {m m' : Memory} {top : Word} {w : Width} {a v : Word} (hm : m.wf = true)
    (h : m.write top w a v = .ok m') : m'.wf = true := by
  obtain ⟨seg, -, r⟩ := Memory.write_ok h
  exact r.wf hm

/-- A write leaves the bases alone. -/
theorem Memory.base_write {m m' : Memory} {top : Word} {w : Width} {a v : Word} (h : m.write top w a v = .ok m')
    (seg : Segment) : m'.base seg = m.base seg := by
  obtain ⟨seg', -, r⟩ := Memory.write_ok h
  exact r.base seg

/-- Bytes can be stored when each has an index. -/
theorem Memory.writeBytes_succeeds {top : Word} {seg : Segment} {a : Word} {k : Nat} {bs : List Byte} {m : Memory}
    (h : ∀ j, j < bs.length → ∃ i, m.index top seg (a.toNat + (k + j)) = .ok i) :
    ∃ m', Memory.writeBytes top seg a k bs m = .ok m' := by
  induction bs generalizing k m with
  | nil => exact ⟨m, rfl⟩
  | cons v vs ih =>
    obtain ⟨i, hi⟩ := h 0 (by simp)
    simp only [Nat.add_zero] at hi
    simp only [Memory.writeBytes, hi]
    refine ih fun j hj => ?_
    obtain ⟨i2, h2⟩ := h (j + 1) (by simpa using hj)
    refine ⟨i2, ?_⟩
    rw [Memory.index_setBuffer, ← h2]
    congr 2
    omega

/-- The big-endian bytes of a word put together give the word back. -/
theorem assembleBytes_splitBytes_word (v : Word) : assembleBytes (splitBytes 4 v) = v := by
  apply BitVec.eq_of_getLsbD_eq
  intro i hi
  simp only [splitBytes, assembleBytes, List.foldl]
  simp only [BitVec.getLsbD_or, BitVec.getLsbD_shiftLeft, BitVec.getLsbD_setWidth, BitVec.getLsbD_extractLsb',
    BitVec.getLsbD_zero]
  by_cases h1 : i < 8
  · simp [h1, hi]
  · by_cases h2 : i < 16
    · have e1 : i - 8 < 8 := by omega
      have e2 : i - 8 < 32 := by omega
      have e3 : 8 + (i - 8) = i := by omega
      simp [h1, hi, e1, e2, e3]
    · by_cases h3 : i < 24
      · have e1 : ¬ i - 8 < 8 := by omega
        have e2 : i - 8 < 32 := by omega
        have e4 : i - 8 - 8 < 8 := by omega
        have e5 : i - 8 - 8 < 32 := by omega
        have e3 : 16 + (i - 8 - 8) = i := by omega
        simp [h1, hi, e1, e2, e3, e4, e5]
      · have e1 : ¬ i - 8 < 8 := by omega
        have e2 : i - 8 < 32 := by omega
        have e4 : ¬ i - 8 - 8 < 8 := by omega
        have e5 : i - 8 - 8 < 32 := by omega
        have e6 : i - 8 - 8 - 8 < 8 := by omega
        have e7 : i - 8 - 8 - 8 < 32 := by omega
        have e3 : 24 + (i - 8 - 8 - 8) = i := by omega
        simp [h1, hi, e1, e2, e3, e4, e5, e6, e7]

/-! ### Completion and failure -/

/-- Distinct bases tell segments apart. -/
theorem Memory.base_inj {m : Memory} (h : m.basesDistinct = true) {seg seg' : Segment} (e : (m.base seg).toNat =
    (m.base seg').toNat) : seg = seg' := by
  have e := BitVec.eq_of_toNat_eq e
  simp only [Memory.basesDistinct, Sys2Proof.basesDistinct, Bool.and_eq_true, bne_iff_ne, ne_eq] at h
  cases seg <;> cases seg' <;> simp_all [Memory.base]

/-- A write completes where its address resolves and, in the stack, its last byte is not above the top. -/
theorem Memory.write_of_resolve {m : Memory} {top : Word} {w : Width} {a v : Word} {seg : Segment}
    (hs : m.resolve a = .ok seg)
   (hst : seg = .stack → a.toNat + w.bytes ≤ top.toNat + 1) : ∃ m', m.write top w a v = .ok m' := by
  simp only [Memory.write, hs]
  apply Memory.writeBytes_succeeds
  intro j hj
  simp only [splitBytes_length] at hj
  cases seg with
  | stack =>
    have := hst rfl
    refine ⟨top.toNat - (a.toNat + (0 + j)), ?_⟩
    rw [Memory.index, if_pos (by omega)]
  | _ => exact ⟨_, rfl⟩

/-- Every way a read can fail after its address resolved. -/
theorem Memory.readBytes_error {m : Memory} {top : Word} {seg : Segment} {a : Word} {k n : Nat} {f : Fault}
   (h : m.readBytes top seg a k n = .error f) : f = .readOutOfBounds a ∨ ∃ b, f = .stackAboveTop b := by
  induction n generalizing k with
  | zero => cases h
  | succ n ih =>
    simp only [Memory.readBytes] at h
    split at h
    · next f' hf =>
      cases h
      unfold Memory.readByte at hf
      split at hf
      · next g hg =>
        cases hf
        cases seg <;> simp only [Memory.index] at hg
        · cases hg
        · cases hg
        · cases hg
        · split at hg
          · cases hg
          · cases hg; exact .inr ⟨_, rfl⟩
      · split at hf
        · cases hf
        · cases hf; exact .inl rfl
    · split at h
      · next g hg => cases h; exact ih hg
      · cases h

/-- The one way a write can fail after its address resolved. -/
theorem Memory.writeBytes_error {m : Memory} {top : Word} {seg : Segment} {a : Word} {k : Nat} {bs : List Byte} {f : Fault}
   (h : Memory.writeBytes top seg a k bs m = .error f) : ∃ b, f = .stackAboveTop b := by
  induction bs generalizing k m with
  | nil => cases h
  | cons v vs ih =>
    simp only [Memory.writeBytes] at h
    split at h
    · next g hg =>
      cases h
      cases seg <;> simp only [Memory.index] at hg
      · cases hg
      · cases hg
      · cases hg
      · split at hg
        · cases hg
        · cases hg; exact ⟨_, rfl⟩
    · exact ih h

/-- A read fails as its first failing byte does. -/
theorem Memory.readBytes_fault {m : Memory} {top : Word} {seg : Segment} {a : Word} {n k : Nat} {f : Fault} (h : ∀ j,
    j < k → ∃ v, m.readByte top seg a (n + j) = .ok v)
   (hk : m.readByte top seg a (n + k) = .error f) (c : Nat) (hc : k < c) : m.readBytes top seg a n c = .error f := by
  induction k generalizing n c with
  | zero =>
    obtain ⟨c, rfl⟩ := Nat.exists_eq_succ_of_ne_zero (by omega : c ≠ 0)
    simp only [Nat.add_zero] at hk
    simp [Memory.readBytes, hk]
  | succ k ih =>
    obtain ⟨c, rfl⟩ := Nat.exists_eq_succ_of_ne_zero (by omega : c ≠ 0)
    obtain ⟨v, hv⟩ := h 0 (by omega)
    simp only [Nat.add_zero] at hv
    simp only [Memory.readBytes, hv]
    rw [ih (n := n + 1) (fun j hj => by
      have := h (j+1) (by omega)
      rwa [show n + 1 + j = n + (j + 1) by omega]) (by rwa [show n + 1 + k = n + (k + 1) by omega]) c (by omega)]

/-- Four bytes put together, the first one most significant (R59). -/
theorem assembleBytes_four (b0 b1 b2 b3 : Byte) : assembleBytes [b0, b1, b2, b3] = b0 ++ b1 ++ b2 ++ b3 := by
  apply BitVec.eq_of_getLsbD_eq
  intro i hi
  simp only [assembleBytes, List.foldl, BitVec.getLsbD_or, BitVec.getLsbD_shiftLeft, BitVec.getLsbD_setWidth,
      BitVec.getLsbD_append,
    BitVec.getLsbD_zero]
  by_cases h1 : i < 8
  · simp [h1, hi]
  have g1 : ∀ b : Byte, b.getLsbD i = false := fun b => BitVec.getLsbD_of_ge _ _ (by omega)
  by_cases h2 : i < 16
  · simp [h1, hi, g1, show i - 8 < 8 by omega, show i - 8 < 32 by omega]
  have g2 : ∀ b : Byte, b.getLsbD (i-8) = false := fun b => BitVec.getLsbD_of_ge _ _ (by omega)
  by_cases h3 : i < 24
  · simp [h1, hi, g1, g2, show ¬ i - 8 < 8 by omega, show i - 8 < 32 by omega, show i - 8 - 8 < 8 by omega,
      show i - 8 - 8 < 32 by omega]
  have g3 : ∀ b : Byte, b.getLsbD (i-8-8) = false := fun b => BitVec.getLsbD_of_ge _ _ (by omega)
  simp [h1, hi, g1, g2, g3, show ¬ i - 8 < 8 by omega, show i - 8 < 32 by omega, show ¬ i - 8 - 8 < 8 by omega,
      show i - 8 - 8 < 32 by omega, show i - 8 - 8 - 8 < 8 by omega, show i - 8 - 8 - 8 < 32 by omega]

/-! ### The stack top, and how far a write grows a buffer -/

/-- Above its base, a byte of text, data or heap has its distance from the base as index (R55). -/
theorem Memory.index_of_ne_stack (m : Memory) (top : Word) {seg : Segment} (h : seg ≠ .stack) (n : Nat) :
    m.index top seg n = .ok (n - (m.base seg).toNat) := by
  cases seg
  · rfl
  · rfl
  · rfl
  · exact absurd rfl h

/-- Bytes stored in the stack fail at the first one above the top, having started at or below the byte after it. -/
theorem Memory.writeBytes_above {top a : Word} {k : Nat} {bs : List Byte} {m : Memory} (hbs : bs ≠ [])
    (h : top.toNat + 1 < a.toNat + k + bs.length) (hk : k = 0 ∨ a.toNat + k ≤ top.toNat + 1) :
    Memory.writeBytes top .stack a k bs m = .error (.stackAboveTop (max a.toNat (top.toNat + 1))) := by
  induction bs generalizing k m with
  | nil => exact absurd rfl hbs
  | cons v vs ih =>
    simp only [Memory.writeBytes, Memory.index]
    by_cases hb : a.toNat + k ≤ top.toNat
    · rw [if_pos hb]
      simp only [List.length_cons] at h
      refine ih ?_ (by omega) (by omega)
      intro e
      subst e
      simp only [List.length_nil] at h
      omega
    · rw [if_neg hb]
      simp only [Except.error.injEq, Fault.stackAboveTop.injEq]
      omega

/-- A write with a byte above the stack top is fatal with the first such byte's address (R55, R60). -/
theorem Memory.write_above {m : Memory} {top : Word} {w : Width} {a v : Word} (hs : m.resolve a = .ok .stack)
    (h : top.toNat + 1 < a.toNat + w.bytes) :
    m.write top w a v = .error (.stackAboveTop (max a.toNat (top.toNat + 1))) := by
  simp only [Memory.write, hs]
  refine Memory.writeBytes_above ?_ (by simpa using h) (.inl rfl)
  cases w <;> simp [splitBytes, Width.bytes]

/-- The length after storing bytes: one more than the highest index, which is the last byte's, or the first byte's in the
stack; the old length where that is greater (R58). -/
theorem Memory.writeBytes_len {top : Word} {seg : Segment} {a : Word} {k : Nat} {bs : List Byte} {m m' : Memory}
    (hb : seg ≠ .stack → (m.base seg).toNat ≤ a.toNat) (hbs : bs ≠ [])
    (h : Memory.writeBytes top seg a k bs m = .ok m') :
    (m'.buffer seg).len = max (m.buffer seg).len
      (if seg = .stack then top.toNat - (a.toNat + k) + 1 else a.toNat + k + bs.length - (m.base seg).toNat) := by
  induction bs generalizing k m with
  | nil => exact absurd rfl hbs
  | cons v vs ih =>
    simp only [Memory.writeBytes] at h
    split at h
    · cases h
    · next i hi =>
      have hi' := (Memory.index_ok_iff ..).mp hi
      by_cases hvs : vs = []
      · subst hvs
        simp only [Memory.writeBytes, Except.ok.injEq] at h
        subst h
        rw [Memory.buffer_setBuffer, if_pos rfl, Buffer.set_len]
        by_cases hs : seg = .stack
        · rw [if_pos hs] at hi'
          rw [if_pos hs, hi'.2]
        · rw [if_neg hs] at hi'
          have := hb hs
          simp only [if_neg hs, List.length_cons, List.length_nil]
          omega
      · rw [ih (by simpa using hb) hvs h]
        simp only [Memory.buffer_setBuffer, if_true, Buffer.set_len, Memory.base_setBuffer]
        by_cases hs : seg = .stack
        · rw [if_pos hs] at hi'
          simp only [if_pos hs]
          omega
        · rw [if_neg hs] at hi'
          have := hb hs
          simp only [if_neg hs, List.length_cons]
          omega

/-- The length after a write that resolved. -/
theorem Memory.write_len {m m' : Memory} {top : Word} {w : Width} {a v : Word} {seg : Segment}
    (hs : m.resolve a = .ok seg) (h : m.write top w a v = .ok m') :
    (m'.buffer seg).len = max (m.buffer seg).len
      (if seg = .stack then top.toNat - a.toNat + 1 else a.toNat + w.bytes - (m.base seg).toNat) := by
  simp only [Memory.write, hs] at h
  have hbs : splitBytes w.bytes v ≠ [] := by cases w <;> simp [splitBytes, Width.bytes]
  have := Memory.writeBytes_len (fun _ => (Memory.resolve_ok hs).1) hbs h
  simpa using this

end Sys2Proof.Machine
end

