-- ==== Sys2Proof/Laws/Load.lean ====
section
/-! SUPPORT. What the host's loads can do to a buffer and to memory, said once (spec 70_reset_and_hazards.md R203, R207 to
R209). -/

namespace Sys2Proof.Machine

/-! ### Consecutive bytes of a buffer -/

theorem Buffer.wf_setMany {b : Buffer} (h : b.wf = true) (i : Nat) (vs : List Byte) : (Buffer.setMany i vs b).wf = true := by
  induction vs generalizing b i with
  | nil => exact h
  | cons v vs ih => exact ih (Buffer.wf_set h i v) (i + 1)

theorem Buffer.setMany_len (b : Buffer) (i : Nat) (vs : List Byte) :
    (Buffer.setMany i vs b).len = if vs = [] then b.len else max b.len (i + vs.length) := by
  induction vs generalizing b i with
  | nil => rfl
  | cons v vs ih =>
    simp only [Buffer.setMany, ih, Buffer.set_len, reduceCtorEq, if_false, List.length_cons]
    split
    · next h => simp [h]
    · omega

/-- Everything consecutive byte writes can do to a byte read. -/
theorem Buffer.get_setMany {b : Buffer} (h : b.wf = true) (i j : Nat) (vs : List Byte) :
    (Buffer.setMany i vs b).get j =
      if i ≤ j ∧ j < i + vs.length then vs[j - i]?
      else if j < b.len then b.get j
      else if j < i ∧ vs ≠ [] then some 0#8 else none := by
  induction vs generalizing b i with
  | nil =>
    have h1 : ¬ (i ≤ j ∧ j < i + ([] : List Byte).length) := by simp
    simp only [Buffer.setMany, h1, if_false, ne_eq, not_true, and_false]
    split
    · rfl
    · next hl => exact (Buffer.get_eq_none_iff b j).mpr (Nat.le_of_not_lt hl)
  | cons v vs ih =>
    simp only [Buffer.setMany, ih (Buffer.wf_set h i v), Buffer.get_set h, Buffer.set_len, List.length_cons, ne_eq,
      reduceCtorEq, not_false_eq_true, and_true]
    by_cases h1 : i + 1 ≤ j ∧ j < i + 1 + vs.length
    · have h2 : i ≤ j ∧ j < i + (vs.length + 1) := by omega
      have h3 : j - i = (j - (i + 1)) + 1 := by omega
      rw [if_pos h1, if_pos h2, h3, List.getElem?_cons_succ]
    · rw [if_neg h1]
      by_cases hj : j = i
      · subst hj
        simp
      · have h2 : ¬ (i ≤ j ∧ j < i + (vs.length + 1)) := by omega
        rw [if_neg h2, if_neg hj]
        by_cases hl : j < b.len
        · simp [hl]
        · by_cases hji : j < i
          · have h5 : j < max b.len (i + 1) := by omega
            simp [hl, hji, h5]
          · have h5 : ¬ j < max b.len (i + 1) := by omega
            have h6 : ¬ j < i + 1 := by omega
            simp [hl, hji, h5, h6]

/-- Growth adds zero bytes only. -/
theorem Buffer.get_grow {b : Buffer} (h : b.wf = true) (n j : Nat) :
    (b.grow n).get j = if j < b.len then b.get j else if j < n then some 0#8 else none := by
  simp only [Buffer.get, Buffer.grow_len, Buffer.grow_cells]
  by_cases hl : j < b.len
  · simp [hl]
  · have hz := Buffer.lookup_past h (Nat.le_of_not_lt hl)
    by_cases hn : j < n <;> simp [hl, hn, hz]

/-! ### Raw load -/

/-- A byte write to the text segment sets one byte of its buffer. -/
theorem State.writeMem_byte_text {s : State} {a v : Word} (h : s.mem.resolve a = .ok .text) :
    s.writeMem .byte a v = .ok { s with mem := { s.mem with
      text := s.mem.text.set (a.toNat - s.mem.textBase.toNat) (v.extractLsb' 0 8) } } := by
  have hsplit : splitBytes Width.byte.bytes v = [v.extractLsb' 0 8] := rfl
  simp [State.writeMem, Memory.write, h, hsplit, Memory.writeBytes, Memory.index, Memory.setBuffer, Memory.buffer]

/-- The low byte of a byte widened to a word is the byte. -/
theorem lowByte_setWidth (v : Byte) : (v.setWidth 32 : Word).extractLsb' 0 8 = v := by
  apply BitVec.eq_of_getLsbD_eq
  intro i hi
  simp [hi, show i < 32 by omega]

/-- A byte by byte store over addresses that all resolve to the text segment is one run of consecutive buffer bytes. -/
theorem storeBytes_text {bs : List Byte} {a : Word} {s : State}
    (h : ∀ j, j < bs.length → s.mem.resolve (a + BitVec.ofNat 32 j) = .ok .text)
    (ha : a.toNat + bs.length ≤ 2 ^ 32) (hb : s.mem.textBase.toNat ≤ a.toNat) :
    storeBytes a bs s = .ok { s with mem := { s.mem with
      text := Buffer.setMany (a.toNat - s.mem.textBase.toNat) bs s.mem.text } } := by
  induction bs generalizing a s with
  | nil => rfl
  | cons b bs ih =>
    have h0 := h 0 (by simp)
    have hz : a + BitVec.ofNat 32 0 = a := BitVec.add_zero a
    rw [hz] at h0
    simp only [storeBytes, State.writeMem_byte_text h0, lowByte_setWidth, Buffer.setMany]
    cases bs with
    | nil => rfl
    | cons b' bs' =>
      have hone : (a + 1#32).toNat = a.toNat + 1 := by
        simp only [List.length_cons] at ha
        rw [BitVec.toNat_add]
        exact Nat.mod_eq_of_lt (by simp; omega)
      rw [ih (fun j hj => ?_) (by simp only [hone, List.length_cons] at ha ⊢; omega) (by simp only [hone]; omega)]
      · simp only [hone, show a.toNat + 1 - s.mem.textBase.toNat = a.toNat - s.mem.textBase.toNat + 1 by omega]
      · have hj' := h (j + 1) (by simpa using hj)
        rw [BitVec.ofNat_add, BitVec.add_comm (BitVec.ofNat 32 j), ← BitVec.add_assoc] at hj'
        exact hj'

theorem storeBytes_wf {bs : List Byte} {a : Word} {s t : State} (hs : s.mem.wf = true) (h : storeBytes a bs s = .ok t) :
    t.mem.wf = true := by
  induction bs generalizing a s with
  | nil =>
    simp only [storeBytes, Except.ok.injEq] at h
    exact h ▸ hs
  | cons b bs ih =>
    simp only [storeBytes] at h
    split at h
    · cases h
    · next u hu =>
      obtain ⟨m, hm, rfl⟩ := State.writeMem_ok hu
      exact ih (Memory.wf_write hs hm) h

/-! ### ELF load -/

/-- Everything copying a segment that resolved can do. -/
theorem copyInto_next {file : List Byte} {h : ProgramHeader} {seg : Segment} {m m' : Memory}
    (hc : copyInto file h seg m = .next m') :
    ∃ bs, fileBytes file h.offset.toNat h.filesz.toNat = some bs ∧
      m' = m.setBuffer seg (Buffer.setMany (h.paddr.toNat - (m.base seg).toNat) bs
        ((m.buffer seg).grow (h.paddr.toNat - (m.base seg).toNat + h.memsz.toNat))) := by
  simp only [copyInto] at hc
  split at hc
  · cases hc
  · next bs hbs => exact ⟨bs, hbs, (Host.Outcome.next.inj hc).symm⟩

/-- Every way a program header can leave a memory: skipped, or copied into text or data. -/
theorem copySegment_next {file : List Byte} {h : ProgramHeader} {m m' : Memory}
    (hc : copySegment file h m = .next m') :
    (h.type ≠ 1#32 ∧ m' = m) ∨
      (h.type = 1#32 ∧ ∃ seg, (seg = .text ∨ seg = .data) ∧ m.resolve h.paddr = .ok seg ∧
        copyInto file h seg m = .next m') := by
  unfold copySegment at hc
  split at hc
  · next ht =>
    split at hc
    · cases hc
    · next hr => exact .inr ⟨ht, .text, .inl rfl, hr, hc⟩
    · next hr => exact .inr ⟨ht, .data, .inr rfl, hr, hc⟩
    · cases hc
    · cases hc
  · next ht => exact .inl ⟨ht, (Host.Outcome.next.inj hc).symm⟩

/-- The bytes a file gives are those at its offset. -/
theorem fileBytes_some {file bs : List Byte} {off n : Nat} (h : fileBytes file off n = some bs) :
    bs.length = n ∧ ∀ k, k < n → bs[k]? = file[off + k]? := by
  simp only [fileBytes] at h
  split at h
  · next hl =>
    obtain rfl := Option.some.inj h
    refine ⟨hl, fun k hk => ?_⟩
    rw [List.getElem?_take_of_lt hk, List.getElem?_drop]
  · cases h

/-- A file gives the bytes that lie inside it. -/
theorem fileBytes_of_le {file : List Byte} {off n : Nat} (h : off + n ≤ file.length) : ∃ bs, fileBytes file off n = some bs := by
  refine ⟨(file.drop off).take n, ?_⟩
  simp only [fileBytes]
  rw [if_pos (by rw [List.length_take, List.length_drop]; omega)]

/-- A PT_LOAD that resolves to text or data completes where the file holds its bytes. -/
theorem copySegment_completes {file : List Byte} {h : ProgramHeader} {seg : Segment} {m : Memory} (ht : h.type = 1#32)
    (hs : m.resolve h.paddr = .ok seg) (hseg : seg = .text ∨ seg = .data)
    (hf : h.offset.toNat + h.filesz.toNat ≤ file.length) : ∃ m', copySegment file h m = .next m' := by
  obtain ⟨bs, hbs⟩ := fileBytes_of_le hf
  rcases hseg with rfl | rfl <;> simp [copySegment, ht, hs, copyInto, hbs]

/-- What a program header leaves of a memory's canonical form, bases, heap and stack. -/
theorem copySegment_frame {file : List Byte} {h : ProgramHeader} {m m' : Memory}
    (hc : copySegment file h m = .next m') :
    (m.wf = true → m'.wf = true) ∧ (∀ seg, m'.base seg = m.base seg) ∧ m'.heap = m.heap ∧ m'.stack = m.stack := by
  rcases copySegment_next hc with ⟨-, rfl⟩ | ⟨-, seg, hseg, -, hi⟩
  · exact ⟨id, fun _ => rfl, rfl, rfl⟩
  · obtain ⟨bs, -, rfl⟩ := copyInto_next hi
    refine ⟨fun hm => Memory.wf_setBuffer hm seg (Buffer.wf_setMany (Buffer.wf_grow ((Memory.wf_iff m).mp hm seg) _) _ _),
      fun seg' => Memory.base_setBuffer .., ?_, ?_⟩ <;> rcases hseg with rfl | rfl <;> rfl

/-- The same of all program headers. -/
theorem copySegments_frame {file : List Byte} {hs : List ProgramHeader} {m m' : Memory}
    (hc : copySegments file hs m = .next m') :
    (m.wf = true → m'.wf = true) ∧ (∀ seg, m'.base seg = m.base seg) ∧ m'.heap = m.heap ∧ m'.stack = m.stack := by
  induction hs generalizing m with
  | nil =>
    simp only [copySegments, Host.Outcome.next.injEq] at hc
    subst hc
    exact ⟨id, fun _ => rfl, rfl, rfl⟩
  | cons h hs ih =>
    simp only [copySegments] at hc
    split at hc
    · next m1 h1 =>
      obtain ⟨a1, a2, a3, a4⟩ := copySegment_frame h1
      obtain ⟨b1, b2, b3, b4⟩ := ih hc
      exact ⟨fun hm => b1 (a1 hm), fun seg => (b2 seg).trans (a2 seg), b3.trans a3, b4.trans a4⟩
    · cases hc
    · cases hc

/-- Every way an ELF load can leave a state. -/
theorem State.elfLoad_next {s t : State} {file : List Byte} (h : s.elfLoad file = .next t) :
    ∃ image m, parseElf file = some image ∧ (s.mem.withDataAddress image.dataAddress).basesDistinct = true ∧
      copySegments file image.programs (s.mem.withDataAddress image.dataAddress) = .next m ∧
      t = { s with mem := m, pc := image.entry } := by
  simp only [State.elfLoad] at h
  split at h
  · cases h
  · next image hp =>
    split at h
    · next hb =>
      split at h
      · next m hm => exact ⟨image, m, hp, hb, hm, (Host.Outcome.next.inj h).symm⟩
      · cases h
      · cases h
    · cases h

@[simp] theorem Memory.withDataAddress_wf (m : Memory) (a : Option Word) : (m.withDataAddress a).wf = m.wf := by
  cases a <;> rfl

theorem Memory.withDataAddress_base (m : Memory) (a : Option Word) (seg : Segment) :
    (m.withDataAddress a).base seg = if seg = .data then a.getD m.dataBase else m.base seg := by
  cases a <;> cases seg <;> rfl

end Sys2Proof.Machine
end

