-- ==== Sys2Proof/Laws/PerInstr.lean ====
section
/-! SUPPORT. Statements made per instruction. The family MatchesTable: the encoded word of every instruction has the fixed
bits that its row of spec/opcode_table.json gives (`match` under `mask`, both copied from the row). -/

namespace Sys2Proof.Laws

/-- The `match` column of spec/opcode_table.json. -/
def tableMatch : Instr → Word
  | .sll .. => 0x00000000#32
  | .srl .. => 0x00000002#32
  | .sra .. => 0x00000003#32
  | .sllv .. => 0x00000004#32
  | .srlv .. => 0x00000006#32
  | .srav .. => 0x00000007#32
  | .jr .. => 0x00000008#32
  | .jalr .. => 0x00000009#32
  | .movz .. => 0x0000000A#32
  | .movn .. => 0x0000000B#32
  | .syscall => 0x0000000C#32
  | .brk => 0x0000000D#32
  | .mfhi .. => 0x00000010#32
  | .mthi .. => 0x00000011#32
  | .mflo .. => 0x00000012#32
  | .mtlo .. => 0x00000013#32
  | .mult .. => 0x00000018#32
  | .multu .. => 0x00000019#32
  | .div .. => 0x0000001A#32
  | .divu .. => 0x0000001B#32
  | .add .. => 0x00000020#32
  | .addu .. => 0x00000021#32
  | .sub .. => 0x00000022#32
  | .subu .. => 0x00000023#32
  | .and .. => 0x00000024#32
  | .or .. => 0x00000025#32
  | .xor .. => 0x00000026#32
  | .nor .. => 0x00000027#32
  | .slt .. => 0x0000002A#32
  | .sltu .. => 0x0000002B#32
  | .tge .. => 0x00000030#32
  | .tgeu .. => 0x00000031#32
  | .tlt .. => 0x00000032#32
  | .tltu .. => 0x00000033#32
  | .teq .. => 0x00000034#32
  | .tne .. => 0x00000036#32
  | .j .. => 0x08000000#32
  | .beq .. => 0x10000000#32
  | .bne .. => 0x14000000#32
  | .addi .. => 0x20000000#32
  | .addiu .. => 0x24000000#32
  | .andi .. => 0x30000000#32
  | .lui .. => 0x3C000000#32
  | .beql .. => 0x50000000#32
  | .lw .. => 0x8C000000#32
  | .sw .. => 0xAC000000#32

/-- The `mask` column of spec/opcode_table.json. -/
def tableMask : Instr → Word
  | .sll .. => 0xFC00003F#32
  | .srl .. => 0xFC00003F#32
  | .sra .. => 0xFC00003F#32
  | .sllv .. => 0xFC00003F#32
  | .srlv .. => 0xFC00003F#32
  | .srav .. => 0xFC00003F#32
  | .jr .. => 0xFC00003F#32
  | .jalr .. => 0xFC00003F#32
  | .movz .. => 0xFC00003F#32
  | .movn .. => 0xFC00003F#32
  | .syscall => 0xFC00003F#32
  | .brk => 0xFC00003F#32
  | .mfhi .. => 0xFC00003F#32
  | .mthi .. => 0xFC00003F#32
  | .mflo .. => 0xFC00003F#32
  | .mtlo .. => 0xFC00003F#32
  | .mult .. => 0xFC00003F#32
  | .multu .. => 0xFC00003F#32
  | .div .. => 0xFC00003F#32
  | .divu .. => 0xFC00003F#32
  | .add .. => 0xFC00003F#32
  | .addu .. => 0xFC00003F#32
  | .sub .. => 0xFC00003F#32
  | .subu .. => 0xFC00003F#32
  | .and .. => 0xFC00003F#32
  | .or .. => 0xFC00003F#32
  | .xor .. => 0xFC00003F#32
  | .nor .. => 0xFC00003F#32
  | .slt .. => 0xFC00003F#32
  | .sltu .. => 0xFC00003F#32
  | .tge .. => 0xFC00003F#32
  | .tgeu .. => 0xFC00003F#32
  | .tlt .. => 0xFC00003F#32
  | .tltu .. => 0xFC00003F#32
  | .teq .. => 0xFC00003F#32
  | .tne .. => 0xFC00003F#32
  | .j .. => 0xFC000000#32
  | .beq .. => 0xFC000000#32
  | .bne .. => 0xFC000000#32
  | .addi .. => 0xFC000000#32
  | .addiu .. => 0xFC000000#32
  | .andi .. => 0xFC000000#32
  | .lui .. => 0xFC000000#32
  | .beql .. => 0xFC000000#32
  | .lw .. => 0xFC000000#32
  | .sw .. => 0xFC000000#32

/-- The fixed bits of the instruction's row stand in its encoded word. -/
def MatchesTable.Statement (i : Instr) : Prop := encode i &&& tableMask i = tableMatch i

/-- An R-type word keeps exactly its funct under the R-type mask. -/
theorem encodeR_fixed (rs rt rd : Reg) (sh : Shamt) (f : BitVec 6) :
    encodeR rs rt rd sh f &&& 0xFC00003F#32 = f.setWidth 32 := by
  apply BitVec.eq_of_getLsbD_eq
  intro i hi
  simp only [encodeR, BitVec.getLsbD_and, BitVec.getLsbD_append, BitVec.getLsbD_setWidth]
  interval_cases i <;> simp

/-- An I-type word keeps exactly its opcode under the opcode mask. -/
theorem encodeI_fixed (op : BitVec 6) (rs rt : Reg) (imm : Half) :
    encodeI op rs rt imm &&& 0xFC000000#32 = op ++ 0#26 := by
  apply BitVec.eq_of_getLsbD_eq
  intro i hi
  simp only [encodeI, BitVec.getLsbD_and, BitVec.getLsbD_append]
  interval_cases i <;> simp

/-- A J-type word keeps exactly its opcode under the opcode mask. -/
theorem encodeJ_fixed (op : BitVec 6) (t : Target) :
    encodeJ op t &&& 0xFC000000#32 = op ++ 0#26 := by
  apply BitVec.eq_of_getLsbD_eq
  intro i hi
  simp only [encodeJ, BitVec.getLsbD_and, BitVec.getLsbD_append]
  interval_cases i <;> simp

theorem MatchesTable.sll (rd rt : Reg) (shamt : Shamt) : MatchesTable.Statement (.sll rd rt shamt) := encodeR_fixed ..
theorem MatchesTable.srl (rd rt : Reg) (shamt : Shamt) (rs : Reg) : MatchesTable.Statement (.srl rd rt shamt rs) := encodeR_fixed ..
theorem MatchesTable.sra (rd rt : Reg) (shamt : Shamt) : MatchesTable.Statement (.sra rd rt shamt) := encodeR_fixed ..
theorem MatchesTable.sllv (rd rt rs : Reg) : MatchesTable.Statement (.sllv rd rt rs) := encodeR_fixed ..
theorem MatchesTable.srlv (rd rt rs : Reg) (shamt : Shamt) : MatchesTable.Statement (.srlv rd rt rs shamt) := encodeR_fixed ..
theorem MatchesTable.srav (rd rt rs : Reg) : MatchesTable.Statement (.srav rd rt rs) := encodeR_fixed ..
theorem MatchesTable.jr (rs : Reg) : MatchesTable.Statement (.jr rs) := encodeR_fixed ..
theorem MatchesTable.jalr (rd rs : Reg) : MatchesTable.Statement (.jalr rd rs) := encodeR_fixed ..
theorem MatchesTable.movz (rd rs rt : Reg) : MatchesTable.Statement (.movz rd rs rt) := encodeR_fixed ..
theorem MatchesTable.movn (rd rs rt : Reg) : MatchesTable.Statement (.movn rd rs rt) := encodeR_fixed ..
theorem MatchesTable.syscall : MatchesTable.Statement .syscall := encodeR_fixed ..
theorem MatchesTable.brk : MatchesTable.Statement .brk := encodeR_fixed ..
theorem MatchesTable.mfhi (rd : Reg) : MatchesTable.Statement (.mfhi rd) := encodeR_fixed ..
theorem MatchesTable.mthi (rs : Reg) : MatchesTable.Statement (.mthi rs) := encodeR_fixed ..
theorem MatchesTable.mflo (rd : Reg) : MatchesTable.Statement (.mflo rd) := encodeR_fixed ..
theorem MatchesTable.mtlo (rs : Reg) : MatchesTable.Statement (.mtlo rs) := encodeR_fixed ..
theorem MatchesTable.mult (rs rt : Reg) : MatchesTable.Statement (.mult rs rt) := encodeR_fixed ..
theorem MatchesTable.multu (rs rt : Reg) : MatchesTable.Statement (.multu rs rt) := encodeR_fixed ..
theorem MatchesTable.div (rs rt : Reg) : MatchesTable.Statement (.div rs rt) := encodeR_fixed ..
theorem MatchesTable.divu (rs rt : Reg) : MatchesTable.Statement (.divu rs rt) := encodeR_fixed ..
theorem MatchesTable.add (rd rs rt : Reg) : MatchesTable.Statement (.add rd rs rt) := encodeR_fixed ..
theorem MatchesTable.addu (rd rs rt : Reg) : MatchesTable.Statement (.addu rd rs rt) := encodeR_fixed ..
theorem MatchesTable.sub (rd rs rt : Reg) : MatchesTable.Statement (.sub rd rs rt) := encodeR_fixed ..
theorem MatchesTable.subu (rd rs rt : Reg) : MatchesTable.Statement (.subu rd rs rt) := encodeR_fixed ..
theorem MatchesTable.and (rd rs rt : Reg) : MatchesTable.Statement (.and rd rs rt) := encodeR_fixed ..
theorem MatchesTable.or (rd rs rt : Reg) : MatchesTable.Statement (.or rd rs rt) := encodeR_fixed ..
theorem MatchesTable.xor (rd rs rt : Reg) : MatchesTable.Statement (.xor rd rs rt) := encodeR_fixed ..
theorem MatchesTable.nor (rd rs rt : Reg) : MatchesTable.Statement (.nor rd rs rt) := encodeR_fixed ..
theorem MatchesTable.slt (rd rs rt : Reg) : MatchesTable.Statement (.slt rd rs rt) := encodeR_fixed ..
theorem MatchesTable.sltu (rd rs rt : Reg) : MatchesTable.Statement (.sltu rd rs rt) := encodeR_fixed ..
theorem MatchesTable.tge (rs rt : Reg) : MatchesTable.Statement (.tge rs rt) := encodeR_fixed ..
theorem MatchesTable.tgeu (rs rt : Reg) : MatchesTable.Statement (.tgeu rs rt) := encodeR_fixed ..
theorem MatchesTable.tlt (rs rt : Reg) : MatchesTable.Statement (.tlt rs rt) := encodeR_fixed ..
theorem MatchesTable.tltu (rs rt : Reg) : MatchesTable.Statement (.tltu rs rt) := encodeR_fixed ..
theorem MatchesTable.teq (rs rt : Reg) : MatchesTable.Statement (.teq rs rt) := encodeR_fixed ..
theorem MatchesTable.tne (rs rt : Reg) : MatchesTable.Statement (.tne rs rt) := encodeR_fixed ..
theorem MatchesTable.j (target : Target) : MatchesTable.Statement (.j target) := encodeJ_fixed ..
theorem MatchesTable.beq (rs rt : Reg) (imm : Half) : MatchesTable.Statement (.beq rs rt imm) := encodeI_fixed ..
theorem MatchesTable.bne (rs rt : Reg) (imm : Half) : MatchesTable.Statement (.bne rs rt imm) := encodeI_fixed ..
theorem MatchesTable.addi (rt rs : Reg) (imm : Half) : MatchesTable.Statement (.addi rt rs imm) := encodeI_fixed ..
theorem MatchesTable.addiu (rt rs : Reg) (imm : Half) : MatchesTable.Statement (.addiu rt rs imm) := encodeI_fixed ..
theorem MatchesTable.andi (rt rs : Reg) (imm : Half) : MatchesTable.Statement (.andi rt rs imm) := encodeI_fixed ..
theorem MatchesTable.lui (rt : Reg) (imm : Half) : MatchesTable.Statement (.lui rt imm) := encodeI_fixed ..
theorem MatchesTable.beql (rs rt : Reg) (imm : Half) : MatchesTable.Statement (.beql rs rt imm) := encodeI_fixed ..
theorem MatchesTable.lw (rt : Reg) (imm : Half) (rs : Reg) : MatchesTable.Statement (.lw rt imm rs) := encodeI_fixed ..
theorem MatchesTable.sw (rt : Reg) (imm : Half) (rs : Reg) : MatchesTable.Statement (.sw rt imm rs) := encodeI_fixed ..

end Sys2Proof.Laws
end

