-- ==== Sys2Proof/Laws/Step.lean ====
section
/-! SUPPORT. What an instruction and a step can do, said once: every invariant is derived from these two. -/

namespace Sys2Proof.Machine

/-- Every way an instruction can answer a next state. A write to register 0 is a no-op, so that the first case covers an
instruction that changes nothing and the fifth a jump without a link. -/
theorem exec_next_cases {i : Instr} {s t : State} (h : exec i s = .next t) :
    (∃ r v, t = s.writeReg r v) ∨ (∃ p, t = s.writeHiLo p) ∨
      (∃ r v, t = (s.writeReg r v).takeException .integerOverflow) ∨ (∃ e, t = s.takeException e) ∨
      (∃ r v a, t = (s.writeReg r v).jumpTo a) ∨ (∃ a v, s.writeMem .word a v = .ok t) := by
  have same : ∀ {u : State}, s = u → ∃ r v, u = s.writeReg r v := fun e => ⟨0#5, 0#32, e.symm⟩
  have branch : ∀ {c : Prop} [Decidable c] {a : Word} {u : State}, (if c then s.jumpTo a else s) = u →
      (∃ r v, u = s.writeReg r v) ∨ (∃ r v a, u = (s.writeReg r v).jumpTo a) := by
    intro c _ a u e
    split at e
    · exact .inr ⟨0#5, 0#32, a, e.symm⟩
    · exact .inl (same e)
  have branch' : ∀ {c : Prop} [Decidable c] {a : Word} {u : State}, (if c then s else s.jumpTo a) = u →
      (∃ r v, u = s.writeReg r v) ∨ (∃ r v a, u = (s.writeReg r v).jumpTo a) := by
    intro c _ a u e
    split at e
    · exact .inl (same e)
    · exact .inr ⟨0#5, 0#32, a, e.symm⟩
  have trap : ∀ {c : Bool} {e : Exception} {u : State}, s.raiseIf c e = u →
      (∃ r v, u = s.writeReg r v) ∨ (∃ e, u = s.takeException e) := by
    intro c e u hu
    cases c
    · exact .inl (same hu)
    · exact .inr ⟨e, hu.symm⟩
  have ovf : ∀ {c : Bool} {r : Reg} {v : Word} {u : State}, (s.writeReg r v).raiseIf c .integerOverflow = u →
      (∃ r v, u = s.writeReg r v) ∨ (∃ r v, u = (s.writeReg r v).takeException .integerOverflow) := by
    intro c r v u hu
    cases c
    · exact .inl ⟨r, v, hu.symm⟩
    · exact .inr ⟨r, v, hu.symm⟩
  cases i with
  | syscall =>
    simp only [exec, execSyscall] at h
    split at h
    · exact .inr (.inr (.inr (.inl ⟨_, (Host.Outcome.next.inj h).symm⟩)))
    · cases h
  | brk => exact .inr (.inr (.inr (.inl ⟨_, (Host.Outcome.next.inj h).symm⟩)))
  | mthi rs => exact .inr (.inl ⟨_, (Host.Outcome.next.inj h).symm⟩)
  | mtlo rs => exact .inr (.inl ⟨_, (Host.Outcome.next.inj h).symm⟩)
  | mult rs rt => exact .inr (.inl ⟨_, (Host.Outcome.next.inj h).symm⟩)
  | multu rs rt => exact .inr (.inl ⟨_, (Host.Outcome.next.inj h).symm⟩)
  | divu rs rt => exact .inr (.inl ⟨_, (Host.Outcome.next.inj h).symm⟩)
  | div rs rt =>
    simp only [exec, execDiv] at h
    split at h
    · cases h
    · exact .inr (.inl ⟨_, (Host.Outcome.next.inj h).symm⟩)
  | add rd rs rt => exact (ovf (Host.Outcome.next.inj h)).imp_right fun x => .inr (.inl x)
  | sub rd rs rt => exact (ovf (Host.Outcome.next.inj h)).imp_right fun x => .inr (.inl x)
  | addi rt rs imm => exact (ovf (Host.Outcome.next.inj h)).imp_right fun x => .inr (.inl x)
  | tge rs rt => exact (trap (Host.Outcome.next.inj h)).imp_right fun x => .inr (.inr (.inl x))
  | tgeu rs rt => exact (trap (Host.Outcome.next.inj h)).imp_right fun x => .inr (.inr (.inl x))
  | tlt rs rt => exact (trap (Host.Outcome.next.inj h)).imp_right fun x => .inr (.inr (.inl x))
  | tltu rs rt => exact (trap (Host.Outcome.next.inj h)).imp_right fun x => .inr (.inr (.inl x))
  | teq rs rt => exact (trap (Host.Outcome.next.inj h)).imp_right fun x => .inr (.inr (.inl x))
  | tne rs rt => exact (trap (Host.Outcome.next.inj h)).imp_right fun x => .inr (.inr (.inl x))
  | jr rs => exact .inr (.inr (.inr (.inr (.inl ⟨0#5, 0#32, _, (Host.Outcome.next.inj h).symm⟩))))
  | jalr rd rs => exact .inr (.inr (.inr (.inr (.inl ⟨_, _, _, (Host.Outcome.next.inj h).symm⟩))))
  | j target => exact .inr (.inr (.inr (.inr (.inl ⟨0#5, 0#32, _, (Host.Outcome.next.inj h).symm⟩))))
  | beq rs rt imm => exact (branch (Host.Outcome.next.inj h)).imp_right fun x => .inr (.inr (.inr (.inl x)))
  | bne rs rt imm => exact (branch' (Host.Outcome.next.inj h)).imp_right fun x => .inr (.inr (.inr (.inl x)))
  | beql rs rt imm => exact (branch (Host.Outcome.next.inj h)).imp_right fun x => .inr (.inr (.inr (.inl x)))
  | movz rd rs rt =>
    have e := Host.Outcome.next.inj h
    split at e
    · exact .inl ⟨_, _, e.symm⟩
    · exact .inl (same e)
  | movn rd rs rt =>
    have e := Host.Outcome.next.inj h
    split at e
    · exact .inl (same e)
    · exact .inl ⟨_, _, e.symm⟩
  | lw rt imm rs =>
    simp only [exec, execLw] at h
    split at h
    · exact .inl ⟨_, _, (Host.Outcome.next.inj h).symm⟩
    · cases h
  | sw rt imm rs =>
    simp only [exec, execSw] at h
    split at h
    · next u hu => exact .inr (.inr (.inr (.inr (.inr ⟨_, _, by rw [← Host.Outcome.next.inj h]; exact hu⟩))))
    · cases h
  | sll | srl | sra | sllv | srlv | srav | mfhi | mflo | addu | subu | and | or | xor | nor | slt | sltu | addiu
  | andi | lui => exact .inl ⟨_, _, (Host.Outcome.next.inj h).symm⟩

/-- Every way a step can answer a next state: nothing while halted, else one decoded instruction and the post-dispatch
update. -/
theorem step_next_cases {s t : State} (h : step s = .next t) :
    (s.halted = true ∧ t = s) ∨
      (s.halted = false ∧ s.mem.basesDistinct = true ∧
        ∃ i u, s.beginStep.fetchDecode = .ok i ∧ exec i s.beginStep = .next u ∧ t = u.postDispatch) := by
  unfold step at h
  split at h
  · next hh => exact .inl ⟨hh, (Host.Outcome.next.inj h).symm⟩
  · next hh =>
    split at h
    · next hb =>
      split at h
      · cases h
      · next i hi =>
        cases hx : exec i s.beginStep with
        | next u =>
          rw [hx] at h
          exact .inr ⟨by simpa using hh, hb, i, u, hi, hx, (Host.Outcome.next.inj h).symm⟩
        | fault f => rw [hx] at h; cases h
        | refused r => rw [hx] at h; cases h
    · cases h

/-- A running state that fetches and decodes an instruction steps by it. -/
theorem step_of_fetchDecode {s : State} {i : Instr} (hh : s.halted = false) (hb : s.mem.basesDistinct = true)
    (hi : s.beginStep.fetchDecode = .ok i) : step s = finishStep (exec i s.beginStep) := by
  simp [step, hh, hb, hi]

/-- When a fetch and decode give an instruction. -/
theorem State.fetchDecode_ok_iff (s : State) (i : Instr) :
    s.fetchDecode = .ok i ↔ s.pc &&& 3#32 = 0#32 ∧ ∃ w, s.readMem .word s.pc = .ok w ∧ decode w = .ok i := by
  unfold State.fetchDecode State.fetch
  by_cases ha : s.pc &&& 3#32 = 0#32
  · simp only [ha, if_true, true_and]
    cases hr : s.readMem .word s.pc with
    | error f => simp
    | ok w => cases hd : decode w <;> simp [hd]
  · simp [ha]

/-- The jump flag plays no part in a fetch. -/
@[simp] theorem State.readMem_beginStep (s : State) (w : Width) (a : Word) : s.beginStep.readMem w a = s.readMem w a := rfl

/-! ### The statements' vocabulary -/

/-- A state about to execute an instruction steps by it. -/
theorem step_of_aboutToRun {s : State} {i : Instr} (h : AboutToRun s i) : step s = finishStep (exec i s.beginStep) :=
  step_of_fetchDecode h.running h.distinct ((State.fetchDecode_ok_iff _ _).mpr ⟨h.aligned, h.decodes⟩)

/-- No instruction is refused. -/
theorem exec_ne_refused (i : Instr) (s : State) (r : Refusal) : exec i s ≠ .refused r := by
  cases i <;> simp only [exec] <;> intro h
  all_goals first
    | cases h
    | (simp only [execSyscall, execDiv, execLw, execSw] at h; split at h <;> cases h)

/-- One step of the host's run. -/
theorem core_run_succ {s t : State} (k : Nat) (h : step s = .next t) :
    Host.Core.run Sys2Proof.core (k + 1) s = Host.Core.run Sys2Proof.core k t := by
  have unroll : ∀ (M : Host.Core) (k : Nat) (s : M.State), Host.Core.run M (k + 1) s =
      (match M.step s with
        | .next t => Host.Core.run M k t
        | .fault f => .fault f
        | .refused r => .refused r) := fun _ _ _ => rfl
  have h' : Sys2Proof.core.step s = .next t := h
  refine (unroll Sys2Proof.core k s).trans ?_
  rw [h']

/-! ### Runs -/

@[simp] theorem run_zero (s : State) : run 0 s = .next s := rfl

/-- A halted core's run is over. -/
theorem run_of_halted {s : State} (k : Nat) (h : s.halted = true) : run k s = .next s := by
  cases k with
  | zero => rfl
  | succ k => simp [run, h]

/-- One step of a running core's run. -/
theorem run_succ_of_next {s t : State} (k : Nat) (hh : s.halted = false) (h : step s = .next t) :
    run (k + 1) s = run k t := by
  simp [run, hh, h]

theorem run_succ_of_fault {s : State} {f : Fault} (k : Nat) (hh : s.halted = false) (h : step s = .fault f) :
    run (k + 1) s = .fault f := by
  simp [run, hh, h]

theorem run_succ_of_refused {s : State} {r : Refusal} (k : Nat) (hh : s.halted = false) (h : step s = .refused r) :
    run (k + 1) s = .refused r := by
  simp [run, hh, h]

/-- A run that has ended does not change with a greater budget. -/
theorem run_add {s : State} {k : Nat} (n : Nat) (h : endsRun (run k s) = true) : run (k + n) s = run k s := by
  induction k generalizing s with
  | zero => exact run_of_halted _ h
  | succ k ih =>
    by_cases hh : s.halted = true
    · rw [run_of_halted _ hh, run_of_halted _ hh]
    · have hh' : s.halted = false := by simpa using hh
      rw [Nat.add_right_comm]
      cases hs : step s with
      | next t =>
        rw [run_succ_of_next _ hh' hs] at h
        rw [run_succ_of_next _ hh' hs, run_succ_of_next _ hh' hs]
        exact ih h
      | fault f => rw [run_succ_of_fault _ hh' hs, run_succ_of_fault _ hh' hs]
      | refused r => rw [run_succ_of_refused _ hh' hs, run_succ_of_refused _ hh' hs]

end Sys2Proof.Machine
end

