-- ==== Sys2Proof/Laws/Values.lean ====
section
/-! SUPPORT. The value functions of Operands.lean and Flags.lean, each described once in integer or bit terms. -/

namespace Sys2Proof.Machine

/-! ### Shift amounts and rotates (spec 00_scope.md R9, 30_encoding.md R87) -/

theorem shiftAmount_eq (v : Word) : shiftAmount v = v.toNat % 32 := by
  simp only [shiftAmount, BitVec.toNat_and]
  exact Nat.and_two_pow_sub_one_eq_mod v.toNat 5

theorem rotateRight_eq (v : Word) {n : Nat} (h : n < 32) : rotateRight v n = v.rotateRight n := by
  unfold rotateRight
  rw [BitVec.rotateRight_def]
  by_cases hn : n = 0
  · subst hn
    simp
  · rw [if_neg hn, Nat.mod_eq_of_lt h]

/-! ### Extension (R10) -/

theorem signExtend16_toInt (imm : Half) : (signExtend16 imm).toInt = imm.toInt := by
  simp only [signExtend16]
  exact BitVec.toInt_signExtend_of_le (by decide)

theorem zeroExtend16_eq (imm : Half) : zeroExtend16 imm = 0#16 ++ imm := by
  apply BitVec.eq_of_getLsbD_eq
  intro i hi
  simp only [zeroExtend16, BitVec.getLsbD_setWidth, BitVec.getLsbD_append, BitVec.getLsbD_zero, hi, decide_true,
    Bool.true_and]
  split
  · rfl
  · exact BitVec.getLsbD_of_ge _ _ (by omega)

/-- A word is determined by any integer it represents modulo 2^32. -/
theorem word_eq_ofInt {v : Word} {n : Int} (h : v.toInt = n) : v = BitVec.ofInt 32 n := by
  rw [← h, BitVec.ofInt_toInt]

/-- Word addition of signed readings (R8). -/
theorem add_eq_ofInt (a b : Word) : a + b = BitVec.ofInt 32 (a.toInt + b.toInt) := by
  rw [BitVec.ofInt_add, BitVec.ofInt_toInt, BitVec.ofInt_toInt]

/-- Word subtraction of signed readings (R8). -/
theorem sub_eq_ofInt (a b : Word) : a - b = BitVec.ofInt 32 (a.toInt - b.toInt) := by
  rw [Int.sub_eq_add_neg, BitVec.ofInt_add, BitVec.ofInt_neg, BitVec.ofInt_toInt, BitVec.ofInt_toInt,
    BitVec.sub_eq_add_neg]

/-! ### Overflow (R14) -/

theorem outsideInt32_eq_false_iff (n : Int) : outsideInt32 n = false ↔ -2147483648 ≤ n ∧ n ≤ 2147483647 := by
  simp only [outsideInt32, Bool.or_eq_false_iff, decide_eq_false_iff_not]
  omega

theorem outsideInt32_eq_true_iff (n : Int) : outsideInt32 n = true ↔ ¬ (-2147483648 ≤ n ∧ n ≤ 2147483647) := by
  simp only [outsideInt32, Bool.or_eq_true, decide_eq_true_eq]
  omega

/-- A data address is the base register's value plus the signed displacement modulo 2^32 (R86; D9). -/
theorem effectiveAddress_eq (base : Word) (imm : Half) :
    effectiveAddress base imm = BitVec.ofInt 32 (base.toNat + imm.toInt) := by
  rw [BitVec.ofInt_add, BitVec.ofInt_natCast, ← signExtend16_toInt, BitVec.ofInt_toInt, BitVec.ofNat_toNat,
    BitVec.setWidth_eq]
  rfl

/-! ### Targets (R87) -/

theorem branchTarget_eq (pc : Word) (imm : Half) :
    branchTarget pc imm = BitVec.ofInt 32 (pc.toNat + 4 + imm.toInt * 4) := by
  have hs : signExtend16 imm <<< 2 = BitVec.ofInt 32 (imm.toInt * 4) := by
    rw [BitVec.shiftLeft_eq_mul_twoPow, Int.mul_comm, BitVec.ofInt_mul, ← signExtend16_toInt, BitVec.ofInt_toInt,
      BitVec.mul_comm]
    rfl
  have hp : BitVec.ofInt 32 ((pc.toNat : Int) + 4) = pc + 4#32 := by
    rw [BitVec.ofInt_add, BitVec.ofInt_natCast, BitVec.ofNat_toNat, BitVec.setWidth_eq]
    rfl
  rw [BitVec.ofInt_add, hp, branchTarget, hs]

theorem jumpTarget_eq (pc : Word) (target : Target) :
    jumpTarget pc target = pc.extractLsb' 28 4 ++ target ++ 0#2 := by
  apply BitVec.eq_of_getLsbD_eq
  intro i hi
  have hmask : ∀ j < 32, (0xF0000000#32).getLsbD j = decide (28 ≤ j) := by decide
  simp only [jumpTarget, BitVec.getLsbD_or, BitVec.getLsbD_and, BitVec.getLsbD_shiftLeft, BitVec.getLsbD_setWidth,
    BitVec.getLsbD_append, BitVec.getLsbD_extractLsb', hmask i hi, hi, decide_true, Bool.true_and]
  by_cases h2 : i < 2
  · have : ¬ 28 ≤ i := by omega
    simp [h2, this]
  · by_cases h28 : i < 28
    · have h1 : ¬ 28 ≤ i := by omega
      have h3 : i - 2 < 26 := by omega
      have h4 : i - 2 < 32 := by omega
      simp [h2, h1, h3, h4]
    · have h1 : 28 ≤ i := by omega
      have h3 : ¬ i - 2 < 26 := by omega
      have h4 : i - 2 - 26 < 4 := by omega
      have h5 : 28 + (i - 2 - 26) = i := by omega
      have h6 : target.getLsbD (i - 2) = false := BitVec.getLsbD_of_ge _ _ (by omega)
      simp [h2, h1, h3, h4, h5, h6]

/-! ### Multiply and divide (42_hilo_muldiv.md R119 to R123) -/

/-- The two halves of a doubleword put together give it back. -/
theorem hi_append_lo (t : BitVec 64) : (t.extractLsb' 32 32 ++ t.extractLsb' 0 32 : BitVec 64) = t := by
  apply BitVec.eq_of_getLsbD_eq
  intro i hi
  simp only [BitVec.getLsbD_append, BitVec.getLsbD_extractLsb']
  by_cases h : i < 32
  · simp [h]
  · have h1 : i - 32 < 32 := by omega
    have h2 : 32 + (i - 32) = i := by omega
    simp [h, h1, h2]

/-- The signed product always fits in 64 bits. -/
theorem mulSigned_toInt (a b : Word) : ((mulSigned a b).1 ++ (mulSigned a b).2 : BitVec 64).toInt = a.toInt * b.toInt := by
  simp only [mulSigned, hi_append_lo]
  have ha1 := BitVec.le_toInt a
  have ha2 := BitVec.toInt_lt (x := a)
  have hb1 := BitVec.le_toInt b
  have hb2 := BitVec.toInt_lt (x := b)
  norm_num at ha1 ha2 hb1 hb2
  rw [BitVec.toInt_ofInt]
  apply Int.bmod_eq_of_le
  · norm_num; nlinarith
  · norm_num; nlinarith

theorem mulUnsigned_toNat (a b : Word) :
    ((mulUnsigned a b).1 ++ (mulUnsigned a b).2 : BitVec 64).toNat = a.toNat * b.toNat := by
  have ha := a.isLt
  have hb := b.isLt
  have hp : a.toNat * b.toNat < 2 ^ 64 := by
    have : a.toNat * b.toNat ≤ (2 ^ 32 - 1) * (2 ^ 32 - 1) := Nat.mul_le_mul (by omega) (by omega)
    omega
  simp only [mulUnsigned, BitVec.toNat_append, BitVec.toNat_ofNat]
  generalize a.toNat * b.toNat = p at hp
  rw [Nat.mod_eq_of_lt (a := p / 2 ^ 32) (by omega), Nat.shiftLeft_eq, Nat.mul_comm,
    ← Nat.two_pow_add_eq_or_of_lt (Nat.mod_lt _ (by decide))]
  omega

/-- A zero divisor gives zero in both (R121, R122). -/
@[simp] theorem divSigned_zero (a : Word) : divSigned a 0#32 = (0#32, 0#32) := rfl

@[simp] theorem divUnsigned_zero (a : Word) : divUnsigned a 0#32 = (0#32, 0#32) := rfl

theorem toInt_ne_zero {b : Word} (hb : b ≠ 0#32) : b.toInt ≠ 0 := fun h => hb (by
  rw [word_eq_ofInt h]; rfl)

/-- Outside the overflowing pair, the truncated quotient and the remainder fit in a word each. -/
theorem divSigned_toInt (a b : Word) (hb : b ≠ 0#32) (ho : ¬ (a = 0x80000000#32 ∧ b = 0xFFFFFFFF#32)) :
    (divSigned a b).2.toInt = a.toInt.tdiv b.toInt ∧ (divSigned a b).1.toInt = a.toInt.tmod b.toInt := by
  have hb0 := toInt_ne_zero hb
  have ha1 := BitVec.le_toInt a
  have ha2 := BitVec.toInt_lt (x := a)
  have hb1 := BitVec.le_toInt b
  have hb2 := BitVec.toInt_lt (x := b)
  norm_num at ha1 ha2 hb1 hb2
  have hmod : a.toInt - a.toInt.tdiv b.toInt * b.toInt = a.toInt.tmod b.toInt := by
    have := Int.tdiv_mul_add_tmod a.toInt b.toInt
    omega
  have hq : (a.toInt.tdiv b.toInt).natAbs ≤ a.toInt.natAbs := by
    rw [Int.natAbs_tdiv]; exact Nat.div_le_self _ _
  have hr : (a.toInt.tmod b.toInt).natAbs < b.toInt.natAbs := by
    rw [Int.natAbs_tmod]; exact Nat.mod_lt _ (Int.natAbs_pos.mpr hb0)
  have hqne : a.toInt.tdiv b.toInt ≠ 2147483648 := by
    intro he
    have habs : a.toInt.natAbs / b.toInt.natAbs = 2147483648 := by
      have h := Int.natAbs_tdiv a.toInt b.toInt
      rw [he] at h
      exact h.symm
    have ha3 : a.toInt.natAbs ≤ 2147483648 := by omega
    have hb3 : b.toInt.natAbs = 1 := by
      rcases Nat.lt_or_ge b.toInt.natAbs 2 with h | h
      · have := Int.natAbs_pos.mpr hb0; omega
      · have : a.toInt.natAbs / b.toInt.natAbs ≤ a.toInt.natAbs / 2 := Nat.div_le_div_left h (by decide)
        omega
    rw [hb3, Nat.div_one] at habs
    have ha4 : a.toInt = -2147483648 := by omega
    rcases Int.natAbs_eq b.toInt with h | h
    · rw [hb3] at h
      rw [h, ha4] at he
      exact absurd he (by decide)
    · rw [hb3] at h
      exact ho ⟨by rw [word_eq_ofInt ha4]; rfl, by rw [word_eq_ofInt h]; rfl⟩
  simp only [divSigned, hb, if_false, hmod, BitVec.toInt_ofInt]
  constructor
  · apply Int.bmod_eq_of_le <;> norm_num <;> omega
  · apply Int.bmod_eq_of_le <;> norm_num <;> omega

theorem divUnsigned_toNat (a b : Word) (hb : b ≠ 0#32) :
    (divUnsigned a b).2.toNat = a.toNat / b.toNat ∧ (divUnsigned a b).1.toNat = a.toNat % b.toNat := by
  have ha := a.isLt
  have hb' := b.isLt
  have hb0 : 0 < b.toNat := Nat.pos_of_ne_zero fun h => hb (BitVec.eq_of_toNat_eq (by simpa using h))
  have h1 : a.toNat / b.toNat ≤ a.toNat := Nat.div_le_self _ _
  have h2 : a.toNat % b.toNat < b.toNat := Nat.mod_lt _ hb0
  simp only [divUnsigned, hb, if_false, BitVec.toNat_ofNat]
  exact ⟨Nat.mod_eq_of_lt (by omega), Nat.mod_eq_of_lt (by omega)⟩

theorem divOverflows_eq_true_iff (a b : Word) :
    divOverflows a b = true ↔ a = 0x80000000#32 ∧ b = 0xFFFFFFFF#32 := by
  simp only [divOverflows, Bool.and_eq_true, beq_iff_eq]
  constructor
  · rintro ⟨h1, h2⟩
    exact ⟨by rw [word_eq_ofInt h1]; rfl, by rw [word_eq_ofInt h2]; rfl⟩
  · rintro ⟨rfl, rfl⟩; decide

/-- The overflowing pair modulo 2^32. -/
theorem divSigned_overflow : divSigned 0x80000000#32 0xFFFFFFFF#32 = (0#32, 0x80000000#32) := by decide

end Sys2Proof.Machine
end

