-- ==== Sys2Proof/Tests/Slice0.lean ====
section
/-! SUPPORT. Tests. Expected results are those of spec 95_test_vectors.md (the row is named above each test) or are worked by
hand from the rule named; words are written out field by field from spec 30_encoding.md R82 to R84, R88,
    R89. The witnesses at
the end show, for each statement of Obligations.lean with hypotheses, concrete values that meet them together. -/

open Sys2Proof Sys2Proof.Machine

/-! ### Small states -/

/-- The reset state with a word where the next step fetches it, and some registers set. -/
def readyFor (w : Nat) (regs : List (Nat × Nat)) : State :=
  regs.foldl (fun s p => s.writeReg (BitVec.ofNat 5 p.1) (BitVec.ofNat 32 p.2)) (State.reset.withFetchWord 32 w)

/-- The next state of an outcome. -/
def nextOf {σ : Type} (o : Host.Outcome σ Fault Refusal) : Option σ :=
  match o with
  | .next t => some t
  | .fault _ => none
  | .refused _ => none

/-- The fault of an outcome. -/
def faultOf (o : Host.Outcome State Fault Refusal) : Option Fault :=
  match o with
  | .next _ => none
  | .fault f => some f
  | .refused _ => none

/-- The refusal of an outcome. -/
def refusalOf (o : Host.Outcome State Fault Refusal) : Option Refusal :=
  match o with
  | .next _ => none
  | .fault _ => none
  | .refused r => some r

/-- Something seen of the state one step leaves. -/
def afterStep {α : Type} (s : State) (see : State → α) : Option α := (nextOf (step s)).map see

/-- The state with bytes stored from an address on. -/
def withBytes (s : State) (a : Word) (bytes : List Byte) : State :=
  match storeBytes a bytes s with
  | .ok t => t
  | .error _ => s

/-- `pc`, halted, exception. -/
def status (t : State) : Word × Bool × Exception := (t.pc, t.halted, t.exception)

/-! ### WellFormed: each of the six equal pairs of bases is refused (20_memory.md R52) -/

theorem test_wellFormed_refuses_textBase_dataBase :
    Config.wellFormed { textBase := 0x20000000#32, dataBase := 0x20000000#32 } = false := by decide

theorem test_wellFormed_refuses_textBase_heapBase :
    Config.wellFormed { textBase := 0x20000000#32, heapBase := 0x20000000#32 } = false := by decide

theorem test_wellFormed_refuses_textBase_stackBase :
    Config.wellFormed { textBase := 0x20000000#32, stackBase := 0x20000000#32 } = false := by decide

theorem test_wellFormed_refuses_dataBase_heapBase :
    Config.wellFormed { dataBase := 0x20000000#32, heapBase := 0x20000000#32 } = false := by decide

theorem test_wellFormed_refuses_dataBase_stackBase :
    Config.wellFormed { dataBase := 0x20000000#32, stackBase := 0x20000000#32 } = false := by decide

theorem test_wellFormed_refuses_heapBase_stackBase :
    Config.wellFormed { heapBase := 0x20000000#32, stackBase := 0x20000000#32 } = false := by decide

theorem test_wellFormed_accepts_default : Config.default.wellFormed = true := by decide

/-! ### Decoding: one word for every constructor, its fields written out (30_encoding.md R82 to R84, R88, R89) -/

theorem test_decode_shiftMove :
    decode 0b000000_00000_01001_01000_00100_000000#32 = .ok (.sll 8#5 9#5 4#5) ∧
    decode 0b000000_11111_01001_01000_00100_000010#32 = .ok (.srl 8#5 9#5 4#5 31#5) ∧
    decode 0b000000_00000_01001_01000_00100_000011#32 = .ok (.sra 8#5 9#5 4#5) ∧
    decode 0b000000_01010_01001_01000_00000_000100#32 = .ok (.sllv 8#5 9#5 10#5) ∧
    decode 0b000000_01010_01001_01000_00001_000110#32 = .ok (.srlv 8#5 9#5 10#5 1#5) ∧
    decode 0b000000_01010_01001_01000_00000_000111#32 = .ok (.srav 8#5 9#5 10#5) ∧
    decode 0b000000_01001_01010_01000_00000_001010#32 = .ok (.movz 8#5 9#5 10#5) ∧
    decode 0b000000_01001_01010_01000_00000_001011#32 = .ok (.movn 8#5 9#5 10#5) := by decide

theorem test_decode_system :
    decode 0b000000_00000_00000_00000_00000_001100#32 = .ok .syscall ∧
    decode 0b000000_00000_00111_00000_00000_001101#32 = .ok .brk := by decide

theorem test_decode_hilo :
    decode 0b000000_00000_00000_01000_00000_010000#32 = .ok (.mfhi 8#5) ∧
    decode 0b000000_01000_00000_00000_00000_010001#32 = .ok (.mthi 8#5) ∧
    decode 0b000000_00000_00000_01000_00000_010010#32 = .ok (.mflo 8#5) ∧
    decode 0b000000_01000_00000_00000_00000_010011#32 = .ok (.mtlo 8#5) ∧
    decode 0b000000_01000_01001_00000_00000_011000#32 = .ok (.mult 8#5 9#5) ∧
    decode 0b000000_01000_01001_00000_00000_011001#32 = .ok (.multu 8#5 9#5) ∧
    decode 0b000000_01000_01001_00000_00000_011010#32 = .ok (.div 8#5 9#5) ∧
    decode 0b000000_01000_01001_00000_00000_011011#32 = .ok (.divu 8#5 9#5) := by decide

theorem test_decode_aluRegister :
    decode 0b000000_01001_01010_01000_00000_100000#32 = .ok (.add 8#5 9#5 10#5) ∧
    decode 0b000000_01001_01010_01000_00000_100001#32 = .ok (.addu 8#5 9#5 10#5) ∧
    decode 0b000000_01001_01010_01000_00000_100010#32 = .ok (.sub 8#5 9#5 10#5) ∧
    decode 0b000000_01001_01010_01000_00000_100011#32 = .ok (.subu 8#5 9#5 10#5) ∧
    decode 0b000000_01001_01010_01000_00000_100100#32 = .ok (.and 8#5 9#5 10#5) ∧
    decode 0b000000_01001_01010_01000_00000_100101#32 = .ok (.or 8#5 9#5 10#5) ∧
    decode 0b000000_01001_01010_01000_00000_100110#32 = .ok (.xor 8#5 9#5 10#5) ∧
    decode 0b000000_01001_01010_01000_00000_100111#32 = .ok (.nor 8#5 9#5 10#5) ∧
    decode 0b000000_01001_01010_01000_00000_101010#32 = .ok (.slt 8#5 9#5 10#5) ∧
    decode 0b000000_01001_01010_01000_00000_101011#32 = .ok (.sltu 8#5 9#5 10#5) := by decide

theorem test_decode_trap :
    decode 0b000000_01000_01001_00000_00000_110000#32 = .ok (.tge 8#5 9#5) ∧
    decode 0b000000_01000_01001_00000_00000_110001#32 = .ok (.tgeu 8#5 9#5) ∧
    decode 0b000000_01000_01001_00000_00000_110010#32 = .ok (.tlt 8#5 9#5) ∧
    decode 0b000000_01000_01001_00000_00000_110011#32 = .ok (.tltu 8#5 9#5) ∧
    decode 0b000000_01000_01001_00000_00000_110100#32 = .ok (.teq 8#5 9#5) ∧
    decode 0b000000_01000_01001_00000_00000_110110#32 = .ok (.tne 8#5 9#5) := by decide

theorem test_decode_jumpBranch :
    decode 0b000000_11111_00000_00000_00000_001000#32 = .ok (.jr 31#5) ∧
    decode 0b000000_11001_00000_11111_00000_001001#32 = .ok (.jalr 31#5 25#5) ∧
    decode 0b000010_00000100000000000000010000#32 = .ok (.j 0x0100010#26) ∧
    decode 0b000100_01000_01001_0000000000000011#32 = .ok (.beq 8#5 9#5 3#16) ∧
    decode 0b000101_01000_01001_1111111111111100#32 = .ok (.bne 8#5 9#5 0xFFFC#16) ∧
    decode 0b010100_01000_01001_0000000000000011#32 = .ok (.beql 8#5 9#5 3#16) := by decide

theorem test_decode_aluImmediate :
    decode 0b001000_01001_01000_1111111111111111#32 = .ok (.addi 8#5 9#5 0xFFFF#16) ∧
    decode 0b001001_01001_01000_0000000000000001#32 = .ok (.addiu 8#5 9#5 1#16) ∧
    decode 0b001100_01001_01000_1000000000000001#32 = .ok (.andi 8#5 9#5 0x8001#16) ∧
    decode 0b001111_00000_01000_0001001000110100#32 = .ok (.lui 8#5 0x1234#16) := by decide

theorem test_decode_loadStore :
    decode 0b100011_01001_01011_0000000000000100#32 = .ok (.lw 11#5 4#16 9#5) ∧
    decode 0b101011_01001_01010_1111111111111100#32 = .ok (.sw 10#5 0xFFFC#16 9#5) := by decide

/-- The absent words of V-FD-3 to V-FD-10. -/
theorem test_decode_rejects_absent :
    [0x0C100000#32, 0x34080001#32, 0x81280000#32, 0x00000001#32, 0x0000000F#32, 0x00000035#32, 0xFC000000#32,
      0x05010001#32].all (fun w => decode w = .error (.unknownInstruction w)) = true := by decide

/-- Ignored fields are not looked at (V-SH-4, V-SH-12, V-AL-5, V-TR-12, V-IM-16). -/
theorem test_decode_ignores_unused :
    decode 0x00A94100#32 = .ok (.sll 8#5 9#5 4#5) ∧ decode 0x00294103#32 = .ok (.sra 8#5 9#5 4#5) ∧
    decode 0x012A40E0#32 = .ok (.add 8#5 9#5 10#5) ∧ decode 0x0000FFF4#32 = .ok (.teq 0#5 0#5) ∧
    decode 0x3D281234#32 = .ok (.lui 8#5 0x1234#16) := by decide

/-- Bytes are taken in memory order, the most significant first; what follows is given back; three bytes are no word. -/
theorem test_decodeBytes :
    decodeBytes [0x01#8, 0x2A#8, 0x40#8, 0x20#8, 0xFF#8] = .ok (.add 8#5 9#5 10#5, [0xFF#8]) ∧
    decodeBytes [0x01#8, 0x2A#8, 0x40#8] = .error .truncated := by decide

/-- The table's numbering: bit 0 is the least significant bit of the word; bits above `nbits` are 0. -/
theorem test_decodeTableWord :
    decodeTableWord 32 0x012A4020 = some (.add 8#5 9#5 10#5) ∧ decodeTableWord 32 0x34080001 = none := by decide

/-- `withFetchWord` puts the word big-endian at `pc` and changes nothing else. -/
theorem test_withFetchWord :
    State.reset.withFetchWord 32 0x012A4020 = { State.reset with mem := { State.reset.mem with
      text := { len := 4, cells := [(0, 0x01#8), (1, 0x2A#8), (2, 0x40#8), (3, 0x20#8)] } } } := by decide

/-! ### One step of each instruction (95_test_vectors.md sections 1 and 2) -/

/-- V-SH-2. -/
theorem test_sll :
    afterStep (readyFor 0x000947C0 [(9, 3)]) (fun t => (t.readReg 8#5, t.pc)) =
      some (0x80000000#32, 0x00400004#32) := by decide

/-- V-SH-5. -/
theorem test_srl :
    afterStep (readyFor 0x00094102 [(9, 0xF000000F)]) (fun t => (t.readReg 8#5, t.pc)) =
      some (0x0F000000#32, 0x00400004#32) := by decide

/-- V-SH-7. -/
theorem test_srl_rotates :
    afterStep (readyFor 0x03E94202 [(9, 0x12345678)]) (fun t => (t.readReg 8#5, t.pc)) =
      some (0x78123456#32, 0x00400004#32) := by decide

/-- V-SH-10. -/
theorem test_sra :
    afterStep (readyFor 0x00094103 [(9, 0xF0000000)]) (fun t => (t.readReg 8#5, t.pc)) =
      some (0xFF000000#32, 0x00400004#32) := by decide

/-- V-SH-13. -/
theorem test_sllv_takes_five_bits :
    afterStep (readyFor 0x01494004 [(9, 1), (10, 0x21)]) (fun t => (t.readReg 8#5, t.pc)) =
      some (0x00000002#32, 0x00400004#32) := by decide

/-- V-SH-16. -/
theorem test_srlv_shamt_two_shifts :
    afterStep (readyFor 0x01494086 [(9, 0x80000000), (10, 4)]) (fun t => (t.readReg 8#5, t.pc)) =
      some (0x08000000#32, 0x00400004#32) := by decide

/-- V-SH-17. -/
theorem test_srlv_rotates :
    afterStep (readyFor 0x01494046 [(9, 0xF1), (10, 0x24)]) (fun t => (t.readReg 8#5, t.pc)) =
      some (0x1000000F#32, 0x00400004#32) := by decide

/-- V-SH-18. -/
theorem test_srav :
    afterStep (readyFor 0x01494007 [(9, 0x80000000), (10, 0x1F)]) (fun t => (t.readReg 8#5, t.pc)) =
      some (0xFFFFFFFF#32, 0x00400004#32) := by decide

/-- V-MV-1. -/
theorem test_movz_copies :
    afterStep (readyFor 0x012A400A [(8, 0x55), (9, 7)]) (fun t => (t.readReg 8#5, t.pc)) =
      some (0x00000007#32, 0x00400004#32) := by decide

/-- V-MV-2. -/
theorem test_movz_leaves :
    afterStep (readyFor 0x012A400A [(8, 0x55), (9, 7), (10, 1)]) (fun t => (t.readReg 8#5, t.pc)) =
      some (0x00000055#32, 0x00400004#32) := by decide

/-- V-MV-6. -/
theorem test_movn_copies_over_its_condition :
    afterStep (readyFor 0x012A500B [(9, 7), (10, 5)]) (fun t => (t.readReg 10#5, t.pc)) =
      some (0x00000007#32, 0x00400004#32) := by decide

/-- V-MV-5. -/
theorem test_movn_leaves :
    afterStep (readyFor 0x012A400B [(8, 0x55), (9, 7)]) (fun t => (t.readReg 8#5, t.pc)) =
      some (0x00000055#32, 0x00400004#32) := by decide

/-- V-SY-1. -/
theorem test_syscall_exit :
    afterStep (readyFor 0x0000000C [(2, 0xA)]) (fun t => status t) =
      some (0x00400004#32, true, Exception.none) := by decide

/-- V-SY-6. -/
theorem test_break :
    afterStep (readyFor 0x0007000D []) (fun t => status t) =
      some (0x00400004#32, true, Exception.breakpoint) := by decide

/-- V-HL-1. -/
theorem test_mfhi :
    afterStep ({ readyFor 0x00004010 [] with hi := 0x12345678#32 }) (fun t => t.readReg 8#5) =
      some 0x12345678#32 := by decide

/-- V-HL-4. -/
theorem test_mflo :
    afterStep ({ readyFor 0x00004012 [] with lo := 0xFFFFFFFE#32 }) (fun t => t.readReg 8#5) =
      some 0xFFFFFFFE#32 := by decide

/-- V-HL-2. -/
theorem test_mthi :
    afterStep (readyFor 0x01000011 [(8, 5)]) (fun t => (t.hi, t.lo)) =
      some (0x00000005#32, 0x00000000#32) := by decide

/-- V-HL-5. -/
theorem test_mtlo :
    afterStep (readyFor 0x01000013 [(8, 5)]) (fun t => (t.hi, t.lo)) =
      some (0x00000000#32, 0x00000005#32) := by decide

/-- V-MD-1. -/
theorem test_mult :
    afterStep (readyFor 0x01090018 [(8, 0xFFFFFFFF), (9, 2)]) (fun t => (t.hi, t.lo)) =
      some (0xFFFFFFFF#32, 0xFFFFFFFE#32) := by decide

/-- V-MD-2. -/
theorem test_mult_most_negative :
    afterStep (readyFor 0x01090018 [(8, 0x80000000), (9, 0x80000000)]) (fun t => (t.hi, t.lo)) =
      some (0x40000000#32, 0x00000000#32) := by decide

/-- V-MD-6. -/
theorem test_multu :
    afterStep (readyFor 0x01090019 [(8, 0xFFFFFFFF), (9, 0xFFFFFFFF)]) (fun t => (t.hi, t.lo)) =
      some (0xFFFFFFFE#32, 0x00000001#32) := by decide

/-- V-MD-8. -/
theorem test_div_truncates :
    afterStep (readyFor 0x0109001A [(8, 0xFFFFFFF9), (9, 2)]) (fun t => (t.hi, t.lo)) =
      some (0xFFFFFFFF#32, 0xFFFFFFFD#32) := by decide

/-- V-MD-11. -/
theorem test_div_overflow_wraps :
    afterStep (readyFor 0x0109001A [(8, 0x80000000), (9, 0xFFFFFFFF)]) (fun t => (t.hi, t.lo)) =
      some (0x00000000#32, 0x80000000#32) := by decide

/-- V-MD-15. -/
theorem test_divu :
    afterStep (readyFor 0x0109001B [(8, 0xFFFFFFFF), (9, 2)]) (fun t => (t.hi, t.lo)) =
      some (0x00000001#32, 0x7FFFFFFF#32) := by decide

/-- V-MD-17. -/
theorem test_divu_by_zero :
    afterStep ({ readyFor 0x0109001B [(8, 5)] with hi := 9#32, lo := 9#32 }) (fun t => (t.hi, t.lo, t.halted)) =
      some (0#32, 0#32, false) := by decide

/-- V-AL-1. -/
theorem test_add :
    afterStep (readyFor 0x012A4020 [(9, 5), (10, 0xFFFFFFFD)]) (fun t => (t.readReg 8#5, status t)) =
      some (0x00000002#32, (0x00400004#32, false, Exception.none)) := by decide

/-- V-AL-2. -/
theorem test_add_overflow :
    afterStep (readyFor 0x012A4020 [(9, 0x7FFFFFFF), (10, 1)]) (fun t => (t.readReg 8#5, status t)) =
      some (0x80000000#32, (0x00400004#32, true, Exception.integerOverflow)) := by decide

/-- S-OV2. -/
theorem test_addu :
    afterStep (readyFor 0x012A4021 [(9, 0x7FFFFFFF), (10, 1)]) (fun t => (t.readReg 8#5, status t)) =
      some (0x80000000#32, (0x00400004#32, false, Exception.none)) := by decide

/-- V-AL-8. -/
theorem test_sub :
    afterStep (readyFor 0x012A4022 [(9, 5), (10, 7)]) (fun t => (t.readReg 8#5, status t)) =
      some (0xFFFFFFFE#32, (0x00400004#32, false, Exception.none)) := by decide

/-- V-AL-10. -/
theorem test_sub_overflow :
    afterStep (readyFor 0x000A4022 [(10, 0x80000000)]) (fun t => (t.readReg 8#5, status t)) =
      some (0x80000000#32, (0x00400004#32, true, Exception.integerOverflow)) := by decide

/-- V-AL-13. -/
theorem test_subu :
    afterStep (readyFor 0x012A4023 [(9, 0x80000000), (10, 1)]) (fun t => (t.readReg 8#5, status t)) =
      some (0x7FFFFFFF#32, (0x00400004#32, false, Exception.none)) := by decide

/-- V-AL-14. -/
theorem test_and :
    afterStep (readyFor 0x012A4024 [(9, 0xFF00FF00), (10, 0xFF00FF0)]) (fun t => (t.readReg 8#5, t.pc)) =
      some (0x0F000F00#32, 0x00400004#32) := by decide

/-- V-AL-15. -/
theorem test_or :
    afterStep (readyFor 0x012A4025 [(9, 0xFF00FF00), (10, 0xFF00FF0)]) (fun t => (t.readReg 8#5, t.pc)) =
      some (0xFFF0FFF0#32, 0x00400004#32) := by decide

/-- V-AL-16. -/
theorem test_xor :
    afterStep (readyFor 0x012A4026 [(9, 0xFF00FF00), (10, 0xFF00FF0)]) (fun t => (t.readReg 8#5, t.pc)) =
      some (0xF0F0F0F0#32, 0x00400004#32) := by decide

/-- V-AL-17. -/
theorem test_nor :
    afterStep (readyFor 0x012A4027 [(9, 0xFF00FF00), (10, 0xFF00FF0)]) (fun t => (t.readReg 8#5, t.pc)) =
      some (0x000F000F#32, 0x00400004#32) := by decide

/-- V-AL-20. -/
theorem test_slt :
    afterStep (readyFor 0x012A402A [(9, 0x80000000), (10, 0x7FFFFFFF)]) (fun t => (t.readReg 8#5, t.pc)) =
      some (0x00000001#32, 0x00400004#32) := by decide

/-- V-AL-21. -/
theorem test_slt_equal :
    afterStep (readyFor 0x0129402A [(8, 9), (9, 3)]) (fun t => (t.readReg 8#5, t.pc)) =
      some (0x00000000#32, 0x00400004#32) := by decide

/-- V-AL-22. -/
theorem test_sltu :
    afterStep (readyFor 0x012A402B [(9, 0xFFFFFFFF), (10, 1)]) (fun t => (t.readReg 8#5, t.pc)) =
      some (0x00000000#32, 0x00400004#32) := by decide

/-- V-AL-23. -/
theorem test_sltu_less :
    afterStep (readyFor 0x000A402B [(10, 1)]) (fun t => (t.readReg 8#5, t.pc)) =
      some (0x00000001#32, 0x00400004#32) := by decide

/-- V-TR-1. -/
theorem test_tge_traps :
    afterStep (readyFor 0x01090030 [(8, 5), (9, 3)]) (fun t => status t) =
      some (0x00400004#32, true, Exception.trap) := by decide

/-- V-TR-2. -/
theorem test_tge_negative :
    afterStep (readyFor 0x01090030 [(8, 0xFFFFFFFF), (9, 3)]) (fun t => status t) =
      some (0x00400004#32, false, Exception.none) := by decide

/-- V-TR-4. -/
theorem test_tgeu_traps :
    afterStep (readyFor 0x01090031 [(8, 0xFFFFFFFF), (9, 3)]) (fun t => status t) =
      some (0x00400004#32, true, Exception.trap) := by decide

/-- V-TR-5. -/
theorem test_tgeu_less :
    afterStep (readyFor 0x01090031 [(8, 2), (9, 3)]) (fun t => status t) =
      some (0x00400004#32, false, Exception.none) := by decide

/-- V-TR-6. -/
theorem test_tlt_traps :
    afterStep (readyFor 0x01090032 [(8, 0xFFFFFFFF), (9, 3)]) (fun t => status t) =
      some (0x00400004#32, true, Exception.trap) := by decide

/-- V-TR-7. -/
theorem test_tlt_equal :
    afterStep (readyFor 0x01090032 [(8, 3), (9, 3)]) (fun t => status t) =
      some (0x00400004#32, false, Exception.none) := by decide

/-- V-TR-8. -/
theorem test_tltu_unsigned :
    afterStep (readyFor 0x01090033 [(8, 0xFFFFFFFF), (9, 3)]) (fun t => status t) =
      some (0x00400004#32, false, Exception.none) := by decide

/-- V-TR-9. -/
theorem test_tltu_traps :
    afterStep (readyFor 0x01090033 [(8, 2), (9, 3)]) (fun t => status t) =
      some (0x00400004#32, true, Exception.trap) := by decide

/-- V-TR-10. -/
theorem test_teq_traps :
    afterStep (readyFor 0x01090034 [(8, 9), (9, 9)]) (fun t => status t) =
      some (0x00400004#32, true, Exception.trap) := by decide

/-- V-TR-11. -/
theorem test_teq_differ :
    afterStep (readyFor 0x01090034 [(8, 9), (9, 8)]) (fun t => status t) =
      some (0x00400004#32, false, Exception.none) := by decide

/-- V-TR-13. -/
theorem test_tne_traps :
    afterStep (readyFor 0x01090036 [(8, 1), (9, 2)]) (fun t => status t) =
      some (0x00400004#32, true, Exception.trap) := by decide

/-- V-TR-14. -/
theorem test_tne_equal :
    afterStep (readyFor 0x01090036 [(8, 2), (9, 2)]) (fun t => status t) =
      some (0x00400004#32, false, Exception.none) := by decide

/-- V-JB-1. -/
theorem test_jr :
    afterStep (readyFor 0x03E00008 [(31, 0x400100)]) (fun t => (t.pc, t.jump)) =
      some (0x00400100#32, false) := by decide

/-- V-JB-6. -/
theorem test_jalr_reads_before_the_link :
    afterStep (readyFor 0x0320C809 [(25, 0x400100)]) (fun t => (t.readReg 25#5, t.pc)) =
      some (0x00400004#32, 0x00400100#32) := by decide

/-- V-JB-8. -/
theorem test_j :
    afterStep (readyFor 0x08100010 []) (fun t => (t.pc, t.jump)) =
      some (0x00400040#32, false) := by decide

/-- V-JB-10. -/
theorem test_beq_taken :
    afterStep (readyFor 0x11090003 [(8, 4), (9, 4)]) (fun t => (t.pc, t.jump)) =
      some (0x00400010#32, false) := by decide

/-- V-JB-12. -/
theorem test_beq_back_to_itself :
    afterStep (readyFor 0x1000FFFF []) (fun t => (t.pc, t.jump)) =
      some (0x00400000#32, false) := by decide

/-- V-JB-15 at reset's pc. -/
theorem test_bne_taken :
    afterStep (readyFor 0x1509FFFF [(8, 1), (9, 2)]) (fun t => (t.pc, t.jump)) =
      some (0x00400000#32, false) := by decide

/-- V-JB-16 at reset's pc. -/
theorem test_bne_untaken :
    afterStep (readyFor 0x1509FFFF [(8, 2), (9, 2)]) (fun t => (t.pc, t.jump)) =
      some (0x00400004#32, false) := by decide

/-- V-JB-17. -/
theorem test_beql_taken :
    afterStep (readyFor 0x51090003 [(8, 4), (9, 4)]) (fun t => (t.pc, t.jump)) =
      some (0x00400010#32, false) := by decide

/-- S-BR4. -/
theorem test_beql_untaken :
    afterStep (readyFor 0x51090003 [(8, 1), (9, 2)]) (fun t => (t.pc, t.jump)) =
      some (0x00400004#32, false) := by decide

/-- V-IM-5. -/
theorem test_addi :
    afterStep (readyFor 0x21288000 []) (fun t => (t.readReg 8#5, status t)) =
      some (0xFFFF8000#32, (0x00400004#32, false, Exception.none)) := by decide

/-- V-IM-3. -/
theorem test_addi_overflow :
    afterStep (readyFor 0x2128FFFF [(9, 0x80000000)]) (fun t => (t.readReg 8#5, status t)) =
      some (0x7FFFFFFF#32, (0x00400004#32, true, Exception.integerOverflow)) := by decide

/-- V-IM-7. -/
theorem test_addiu :
    afterStep (readyFor 0x25280001 [(9, 0x7FFFFFFF)]) (fun t => (t.readReg 8#5, status t)) =
      some (0x80000000#32, (0x00400004#32, false, Exception.none)) := by decide

/-- V-IM-10. -/
theorem test_andi_zero_extends :
    afterStep (readyFor 0x31288001 [(9, 0xFFFFFFFF)]) (fun t => (t.readReg 8#5, t.pc)) =
      some (0x00008001#32, 0x00400004#32) := by decide

/-- V-IM-12. -/
theorem test_lui_keeps_the_lower_half :
    afterStep (readyFor 0x3C081234 [(8, 0x5678)]) (fun t => (t.readReg 8#5, t.pc)) =
      some (0x12345678#32, 0x00400004#32) := by decide

/-- V-IM-16. -/
theorem test_lui_ignores_rs :
    afterStep (readyFor 0x3D281234 [(8, 0xABCD), (9, 0xFFFF)]) (fun t => (t.readReg 8#5, t.pc)) =
      some (0x1234ABCD#32, 0x00400004#32) := by decide

/-- V-LS-6. -/
theorem test_lw_misaligned :
    afterStep (withBytes (readyFor 0x8D2B0001 [(9, 0x10000000)]) 0x10000000#32
      [0x00#8, 0x11#8, 0x22#8, 0x33#8, 0x44#8, 0x55#8, 0x66#8, 0x77#8]) (fun t => (t.readReg 11#5, t.pc)) =
      some (0x11223344#32, 0x00400004#32) := by decide

/-- V-LS-4. -/
theorem test_lw_stack :
    afterStep (withBytes (readyFor 0x8FABFFFC []) 0x7FFFFFF8#32 [0xCA#8, 0xFE#8, 0xBA#8, 0xBE#8])
        (fun t => (t.readReg 11#5, t.pc)) =
      some (0xCAFEBABE#32, 0x00400004#32) := by decide

/-- V-LS-3. -/
theorem test_sw_stack :
    afterStep (readyFor 0xAFAAFFFC [(10, 0xCAFEBABE)]) (fun t => t.mem.stack.bytes) =
      some [0x00#8, 0x00#8, 0x00#8, 0x00#8, 0xBE#8, 0xBA#8, 0xFE#8, 0xCA#8] := by decide

/-- R119, R120 by hand (log entry 25): -1 times 0, and 0x80000000 times itself, have the same `HI` from `mult` and `multu`. -/
theorem test_mult_multu_same_hi :
    [mulSigned 0xFFFFFFFF#32 0#32, mulUnsigned 0xFFFFFFFF#32 0#32] = [(0#32, 0#32), (0#32, 0#32)] ∧
    [mulSigned 0x80000000#32 0x80000000#32, mulUnsigned 0x80000000#32 0x80000000#32] =
      [(0x40000000#32, 0#32), (0x40000000#32, 0#32)] := by decide

/-! ### Fatal conditions (60_exceptions.md R185) -/

/-- V-SY-3, V-MD-12, V-LS-8, V-LS-10 (three of the four bytes exist), V-LS-16, V-LS-11, V-LS-12. -/
theorem test_faults_of_the_four :
    [faultOf (step (readyFor 0x0000000C [(2, 0x1000000A)])),
      faultOf (step { readyFor 0x0109001A [(8, 0x80000000), (9, 0xFFFFFFFF)] with cfg := { divOverflow := .fatal } }),
      faultOf (step (readyFor 0x8D2B0000 [(9, 0x1000)])),
      faultOf (step (withBytes (readyFor 0x8D2B0005 [(9, 0x10000000)]) 0x10000000#32 (List.replicate 8 0x11#8))),
      faultOf (step (readyFor 0x8D200000 [(9, 0x10000000)])),
      faultOf (step (readyFor 0xAFAA0002 [(10, 1)])),
      faultOf (step (readyFor 0xAD2A0008 [(9, 0xFFFFFFFC), (10, 1)]))] =
    [some (.unknownSyscall 0x1000000A#32), some (.divideOverflow 0x00400000#32), some (.invalidAddress 0x00001000#32),
      some (.readOutOfBounds 0x10000005#32), some (.readOutOfBounds 0x10000000#32), some (.stackAboveTop 0x80000000),
      some (.invalidAddress 0x00000004#32)] := by decide

/-- V-LS-13: a store across the data and heap boundary stays in the data buffer. -/
theorem test_sw_across_boundary :
    afterStep (readyFor 0xAD2A0000 [(9, 0x1003FFFE), (10, 0xA1B2C3D4)])
      (fun t => (t.mem.data.len, (List.range 4).map (fun k => t.mem.data.get (262142 + k)), t.mem.heap.len)) =
      some (262146, [some 0xA1#8, some 0xB2#8, some 0xC3#8, some 0xD4#8], 0) := by decide

/-- V-FD-1, V-FD-2, V-FD-4; the bare reset state has nothing to fetch. -/
theorem test_fault_fetch :
    faultOf (step { readyFor 0 [] with pc := 0x00400002#32 }) = some (.misalignedFetch 0x00400002#32) ∧
    faultOf (step { readyFor 0 [] with pc := 0x00400004#32 }) = some (.readOutOfBounds 0x00400004#32) ∧
    faultOf (step (readyFor 0x34080001 [])) = some (.unknownInstruction 0x34080001#32) ∧
    faultOf (step State.reset) = some (.readOutOfBounds 0x00400000#32) := by decide

/-- V-SY-7: nothing happens while halted. -/
theorem test_halted :
    nextOf (step { readyFor 0x012A4021 [(9, 1), (10, 2)] with halted := true, exception := .breakpoint }) =
      some { readyFor 0x012A4021 [(9, 1), (10, 2)] with halted := true, exception := .breakpoint } := by decide

/-! ### Memory (section 1, memory round trip) -/

/-- Writing the value an unlisted byte reads as removes the entry: the memory is the one of a plain growth. -/
theorem test_write_zero_is_not_listed :
    ((withBytes State.reset 0x10000000#32 [0x5A#8, 0x00#8]).mem.data,
      (withBytes (withBytes State.reset 0x10000000#32 [0x5A#8]) 0x10000000#32 [0x00#8]).mem.data) =
      ({ len := 2, cells := [(0, 0x5A#8)] }, { len := 1, cells := [] }) := by decide

/-- Bytes and halfwords of a word are seen big-endian. -/
theorem test_read_widths :
    ((withBytes State.reset 0x10000010#32 [0x11#8, 0x22#8, 0x33#8, 0x44#8]).readMem .word 0x10000010#32,
      (withBytes State.reset 0x10000010#32 [0x11#8, 0x22#8, 0x33#8, 0x44#8]).readMem .half 0x10000012#32,
      (withBytes State.reset 0x10000010#32 [0x11#8, 0x22#8, 0x33#8, 0x44#8]).readMem .byte 0x10000013#32) =
      (.ok 0x11223344#32, .ok 0x3344#32, .ok 0x44#32) := by decide

/-! ### ELF scenario C (section 1) -/

/-- The 88-byte file of scenario C. -/
def scenarioC : List Byte :=
  [0x7F#8, 0x45#8, 0x4C#8, 0x46#8, 0x01#8, 0x02#8, 0x01#8, 0x00#8, 0x00#8, 0x00#8, 0x00#8, 0x00#8, 0x00#8, 0x00#8,
      0x00#8, 0x00#8] ++
  [0x00#8, 0x02#8, 0x00#8, 0x08#8, 0x00#8, 0x00#8, 0x00#8, 0x01#8, 0x00#8, 0x40#8, 0x00#8, 0x00#8, 0x00#8, 0x00#8,
      0x00#8, 0x34#8] ++
  [0x00#8, 0x00#8, 0x00#8, 0x00#8, 0x00#8, 0x00#8, 0x00#8, 0x00#8, 0x00#8, 0x34#8, 0x00#8, 0x20#8, 0x00#8, 0x01#8,
      0x00#8, 0x28#8] ++
  [0x00#8, 0x00#8, 0x00#8, 0x00#8, 0x00#8, 0x00#8, 0x00#8, 0x01#8, 0x00#8, 0x00#8, 0x00#8, 0x54#8, 0x00#8, 0x40#8,
      0x00#8, 0x00#8] ++
  [0x00#8, 0x40#8, 0x00#8, 0x00#8, 0x00#8, 0x00#8, 0x00#8, 0x04#8, 0x00#8, 0x00#8, 0x00#8, 0x08#8, 0x00#8, 0x00#8,
      0x00#8, 0x05#8] ++
  [0x00#8, 0x00#8, 0x00#8, 0x04#8, 0x00#8, 0x00#8, 0x00#8, 0x0D#8]

theorem test_elf_scenarioC :
    (nextOf (State.reset.elfLoad scenarioC)).map (fun t => (t.mem.text.bytes, t.mem.dataBase, t.pc)) =
      some ([0x00#8, 0x00#8, 0x00#8, 0x0D#8, 0x00#8, 0x00#8, 0x00#8, 0x00#8], 0x10000000#32, 0x00400000#32) := by decide

theorem test_elf_runs_break :
    ((nextOf (State.reset.elfLoad scenarioC)).bind (fun s => nextOf (step s))).map status =
      some (0x00400004#32, true, .breakpoint) := by decide

/-- R208 with `p_memsz = 2` below `p_filesz = 4`: the four file bytes are copied all the same, the buffer growing. -/
theorem test_elf_filesz_above_memsz :
    (nextOf (State.reset.elfLoad (scenarioC.set 0x4B 0x02#8))).map (fun t => t.mem.text.bytes) =
      some [0x00#8, 0x00#8, 0x00#8, 0x0D#8] := by decide

/-- A file of the other byte order is refused (R206). -/
theorem test_elf_refuses_little_endian :
    refusalOf (State.reset.elfLoad (scenarioC.set 5 0x01#8)) = some .malformedElf := by decide

/-! ### Witnesses: values that meet each statement's hypotheses together

Where a statement's clauses range over an input, each clause has a value,
    at a boundary of its range where it has one. -/

theorem test_witness_RegisterPortsGuardZero : (31#5 : Reg) ≠ 0#5 ∧ (1#5 : Reg) ≠ 31#5 := by decide

theorem test_witness_ResolveByGreatestBaseNotAbove :
    State.reset.mem.basesDistinct = true ∧
    [0x003FFFFF#32, 0x00400000#32, 0x0FFFFFFF#32, 0x10000000#32, 0x1003FFFF#32, 0x10040000#32, 0x3FFFFFFF#32,
        0x40000000#32,
      0xFFFFFFFF#32].map State.reset.mem.resolve =
      [.error (.invalidAddress 0x003FFFFF#32), .ok .text, .ok .text, .ok .data, .ok .data, .ok .heap, .ok .heap,
          .ok .stack,
        .ok .stack] := by decide

/-- No base is at or below an address, as a Bool. -/
def belowAll (m : Memory) (a : Word) : Bool := [Segment.text, .data, .heap,
    .stack].all fun seg => a.toNat < (m.base seg).toNat

theorem test_belowAll {m : Memory} {a : Word} (h : belowAll m a = true) : ∀ seg, a.toNat < (m.base seg).toNat := by
  intro seg
  simp only [belowAll, List.all_cons, List.all_nil, Bool.and_true, Bool.and_eq_true, decide_eq_true_eq] at h
  cases seg
  · exact h.1
  · exact h.2.1
  · exact h.2.2.1
  · exact h.2.2.2

theorem test_witness_AccessBelowLowestBaseIsFatal :
    (∀ seg, (0x003FFFFC#32 : Word).toNat < (({ State.reset with pc := 0x003FFFFC#32 } : State).mem.base seg).toNat) ∧
    effectiveAddress (({ State.reset with pc :=
        0x003FFFFC#32 } : State).writeReg 9#5 0x00400000#32 |>.readReg 9#5) 0xFFFC#16 =
      0x003FFFFC#32 ∧
    ({ State.reset with pc := 0x003FFFFC#32 } : State).halted = false ∧
    ({ State.reset with pc := 0x003FFFFC#32 } : State).mem.basesDistinct = true ∧
    (0x003FFFFC#32 : Word) &&& 3#32 = 0#32 ∧
    (∀ seg, (0x003FFFFF#32 : Word).toNat < (State.reset.mem.base seg).toNat) :=
  ⟨test_belowAll (by decide), by decide, by decide, by decide, by decide, test_belowAll (by decide)⟩

/-- The last byte that exists, the first that does not, and the stack's top byte. -/
theorem test_witness_ByteReadAtIndexOrOutOfBounds :
    (readyFor 0 []).mem.index 0x7FFFFFFF#32 .text ((0x00400000#32 : Word).toNat + 3) = .ok 3 ∧
    3 < ((readyFor 0 []).mem.buffer .text).len ∧
    (readyFor 0 []).mem.index 0x7FFFFFFF#32 .text ((0x00400000#32 : Word).toNat + 4) = .ok 4 ∧
    ((readyFor 0 []).mem.buffer .text).len ≤ 4 ∧
    State.reset.mem.index 0x7FFFFFFF#32 .stack ((0x7FFFFFFF#32 : Word).toNat + 0) = .ok 0 ∧
    (State.reset.mem.buffer .stack).len ≤ 0 := by decide

/-- A write at index 6 of a buffer of 4 bytes: byte 3 is kept, bytes 4 and 5 are the fill. -/
theorem test_witness_ByteWriteGrowsWithZeroFill :
    (readyFor 0 []).mem.text.wf = true ∧ 3 ≠ 6 ∧ 3 < (readyFor 0 []).mem.text.len ∧ (readyFor 0 []).mem.text.len ≤ 4 ∧
    5 < 6 := by decide

/-- Is a result ok, as a Bool. -/
def okOf {ε α : Type} (r : Except ε α) : Bool :=
  match r with
  | .ok _ => true
  | .error _ => false

theorem test_okOf {ε α : Type} {r : Except ε α} (h : okOf r = true) : ∃ x, r = .ok x := by
  cases r with
  | ok x => exact ⟨x, rfl⟩
  | error e => cases h

/-- The highest word, halfword and byte of the stack, and the lowest word of the text segment. -/
theorem test_witness_WriteThenReadRoundTrip :
    State.reset.mem.wf = true ∧
    (∃ m, State.reset.mem.write 0x7FFFFFFF#32 .word 0x7FFFFFFC#32 0x11223344#32 = .ok m) ∧
    (∃ m, State.reset.mem.write 0x7FFFFFFF#32 .half 0x7FFFFFFE#32 0x11223344#32 = .ok m) ∧
    (∃ m, State.reset.mem.write 0x7FFFFFFF#32 .byte 0x7FFFFFFF#32 0x11223344#32 = .ok m) ∧
    (∃ m, State.reset.mem.write 0x7FFFFFFF#32 .word 0x00400000#32 0x11223344#32 = .ok m) :=
  ⟨by decide, test_okOf (by decide), test_okOf (by decide), test_okOf (by decide), test_okOf (by decide)⟩

/-- The two sides of each boundary: the highest word that fits and the next, the byte above the top, a store that runs out of
data, the address below every base. -/
theorem test_witness_WriteCompletesExactlyWhereStorable :
    State.reset.mem.resolve 0x7FFFFFFC#32 = .ok .stack ∧
    (0x7FFFFFFC#32 : Word).toNat + Width.word.bytes ≤ (0x7FFFFFFF#32 : Word).toNat + 1 ∧
    State.reset.mem.resolve 0x7FFFFFFD#32 = .ok .stack ∧
    (0x7FFFFFFF#32 : Word).toNat + 1 < (0x7FFFFFFD#32 : Word).toNat + Width.word.bytes ∧
    State.reset.mem.resolve 0x80000000#32 = .ok .stack ∧
    (0x7FFFFFFF#32 : Word).toNat + 1 < (0x80000000#32 : Word).toNat + Width.byte.bytes ∧
    State.reset.mem.resolve 0x1003FFFE#32 = .ok .data ∧
    (∀ seg, (0x003FFFFF#32 : Word).toNat < (State.reset.mem.base seg).toNat) :=
  ⟨by decide, by decide, by decide, by decide, by decide, by decide, by decide, test_belowAll (by decide)⟩

/-- The base and an address above it in data; the stack's top byte, its base, and the byte above the top; a word that runs out
of data, and the highest word of the stack. -/
theorem test_witness_WriteTouchesOnlyItsBytes :
    (Segment.data ≠ .stack ∧ (State.reset.mem.base .data).toNat ≤ 0x10000000 ∧
      (State.reset.mem.base .data).toNat ≤ 0x10040001 ∧
      0x7FFFFFFF ≤ (0x7FFFFFFF#32 : Word).toNat ∧ 0x40000000 ≤ (0x7FFFFFFF#32 : Word).toNat ∧
      (0x7FFFFFFF#32 : Word).toNat < 0x80000000) ∧
    State.reset.mem.wf = true ∧ State.reset.mem.resolve 0x1003FFFE#32 = .ok .data ∧
    (∃ m, State.reset.mem.write 0x7FFFFFFF#32 .word 0x1003FFFE#32 0xA1B2C3D4#32 = .ok m) ∧
    (∀ k, k < 4 → State.reset.mem.index 0x7FFFFFFF#32 .data ((0x1003FFFE#32 : Word).toNat + k) ≠ .ok 0) ∧
    State.reset.mem.resolve 0x7FFFFFFC#32 = .ok .stack ∧
    (∃ m, State.reset.mem.write 0x7FFFFFFF#32 .word 0x7FFFFFFC#32 0xA1B2C3D4#32 = .ok m) ∧
    (∀ k, k < 4 → State.reset.mem.index 0x7FFFFFFF#32 .stack ((0x7FFFFFFC#32 : Word).toNat + k) ≠ .ok 4) :=
  ⟨by decide, by decide, by decide, test_okOf (by decide), by decide, by decide, test_okOf (by decide), by decide⟩

/-- Does an outcome have a next state, as a Bool. -/
def runs {σ φ ρ : Type} (o : Host.Outcome σ φ ρ) : Bool :=
  match o with
  | .next _ => true
  | .fault _ => false
  | .refused _ => false

theorem test_runs {σ φ ρ : Type} {o : Host.Outcome σ φ ρ} (h : runs o = true) : ∃ t, o = .next t := by
  cases o with
  | next t => exact ⟨t, rfl⟩
  | fault f => cases h
  | refused r => cases h

theorem test_witness_HostLoadsKeepCanonicalMemory :
    State.reset.mem.wf = true ∧ (∃ t, State.reset.rawLoad [0x00#8, 0x0D#8] = .next t) ∧
    (∃ t, State.reset.elfLoad scenarioC = .next t) :=
  ⟨by decide, test_runs (by decide), test_runs (by decide)⟩

/-- An `add` with a non-zero `shamt` field, and the same word without. -/
theorem test_witness_DecodeIgnoresUnusedFields :
    decode 0x012A40E0#32 = .ok (.add 8#5 9#5 10#5) ∧
    0x012A40E0#32 &&& usedBits (.add 8#5 9#5 10#5) = 0x012A4020#32 &&& usedBits (.add 8#5 9#5 10#5) := by decide

theorem test_witness_EncodeOfDecodeKeepsUsedBits : decode 0x012A40E0#32 = .ok (.add 8#5 9#5 10#5) := by decide

/-- Both sides: the opcodes and functs next to listed ones that are not listed. -/
theorem test_witness_DecodeRejectsExactlyUnlistedWords :
    decode 0x0C100000#32 = .error (.unknownInstruction 0x0C100000#32) ∧
    decode 0x00000035#32 = .error (.unknownInstruction 0x00000035#32) ∧
    decode 0x00000036#32 = .ok (.tne 0#5 0#5) := by decide

/-- States about to run an instruction, for the statements about a step. -/
theorem test_about_add : AboutToRun (readyFor 0x012A4020 [(9, 0x7FFFFFFF), (10, 1)]) (.add 8#5 9#5 10#5) :=
  ⟨by decide, by decide, by decide, 0x012A4020#32, by decide, by decide⟩

theorem test_about_lw_below : AboutToRun (readyFor 0x8D2B0000 [(9, 0x1000)]) (.lw 11#5 0#16 9#5) :=
  ⟨by decide, by decide, by decide, 0x8D2B0000#32, by decide, by decide⟩

theorem test_about_syscall : AboutToRun (readyFor 0x0000000C [(2, 10)]) .syscall :=
  ⟨by decide, by decide, by decide, 0x0000000C#32, by decide, by decide⟩

theorem test_about_break : AboutToRun (readyFor 0x0007000D []) .brk :=
  ⟨by decide, by decide, by decide, 0x0007000D#32, by decide, by decide⟩

theorem test_about_addu : AboutToRun (readyFor 0x012A4021 []) (.addu 8#5 9#5 10#5) :=
  ⟨by decide, by decide, by decide, 0x012A4021#32, by decide, by decide⟩

theorem test_about_jr : AboutToRun (readyFor 0x03E00008 [(31, 0x00400004)]) (.jr 31#5) :=
  ⟨by decide, by decide, by decide, 0x03E00008#32, by decide, by decide⟩

theorem test_about_beq_self : AboutToRun (readyFor 0x1000FFFF []) (.beq 0#5 0#5 0xFFFF#16) :=
  ⟨by decide, by decide, by decide, 0x1000FFFF#32, by decide, by decide⟩

theorem test_about_jr_self : AboutToRun (readyFor 0x01000008 [(8, 0x00400000)]) (.jr 8#5) :=
  ⟨by decide, by decide, by decide, 0x01000008#32, by decide, by decide⟩

theorem test_about_jalr : AboutToRun (readyFor 0x0320F809 [(25, 0x00400100)]) (.jalr 31#5 25#5) :=
  ⟨by decide, by decide, by decide, 0x0320F809#32, by decide, by decide⟩

theorem test_about_j : AboutToRun (readyFor 0x08100010 []) (.j 0x0100010#26) :=
  ⟨by decide, by decide, by decide, 0x08100010#32, by decide, by decide⟩

theorem test_about_beq_equal : AboutToRun (readyFor 0x11090003 [(8, 4), (9, 4)]) (.beq 8#5 9#5 3#16) :=
  ⟨by decide, by decide, by decide, 0x11090003#32, by decide, by decide⟩

theorem test_about_beq_differ : AboutToRun (readyFor 0x11090003 [(8, 4), (9, 5)]) (.beq 8#5 9#5 3#16) :=
  ⟨by decide, by decide, by decide, 0x11090003#32, by decide, by decide⟩

theorem test_about_bne_equal : AboutToRun (readyFor 0x15090003 [(8, 4), (9, 4)]) (.bne 8#5 9#5 3#16) :=
  ⟨by decide, by decide, by decide, 0x15090003#32, by decide, by decide⟩

theorem test_about_bne_differ : AboutToRun (readyFor 0x15090003 [(8, 4), (9, 5)]) (.bne 8#5 9#5 3#16) :=
  ⟨by decide, by decide, by decide, 0x15090003#32, by decide, by decide⟩

theorem test_about_beql_equal : AboutToRun (readyFor 0x51090003 [(8, 4), (9, 4)]) (.beql 8#5 9#5 3#16) :=
  ⟨by decide, by decide, by decide, 0x51090003#32, by decide, by decide⟩

theorem test_about_beql_differ : AboutToRun (readyFor 0x51090003 [(8, 4), (9, 5)]) (.beql 8#5 9#5 3#16) :=
  ⟨by decide, by decide, by decide, 0x51090003#32, by decide, by decide⟩

theorem test_witness_StepRunsTheDecodedInstruction :
    (AboutToRun (readyFor 0x012A4020 [(9, 0x7FFFFFFF), (10, 1)]) (.add 8#5 9#5 10#5) ∧
      ∃ t, exec (.add 8#5 9#5 10#5) { readyFor 0x012A4020 [(9, 0x7FFFFFFF), (10, 1)] with jump := false } = .next t) ∧
    (AboutToRun (readyFor 0x03E00008 [(31, 0x00400004)]) (.jr 31#5) ∧
      ∃ t, exec (.jr 31#5) { readyFor 0x03E00008 [(31, 0x00400004)] with jump := false } = .next t) ∧
    (AboutToRun (readyFor 0x8D2B0000 [(9, 0x1000)]) (.lw 11#5 0#16 9#5) ∧
      exec (.lw 11#5 0#16 9#5) { readyFor 0x8D2B0000 [(9, 0x1000)] with jump := false } =
          .fault (.invalidAddress 0x1000#32)) :=
  ⟨⟨test_about_add, test_runs (by decide)⟩, ⟨test_about_jr, test_runs (by decide)⟩, ⟨test_about_lw_below, rfl⟩⟩

theorem test_witness_FetchChecksComeInOrder :
    (State.reset.halted = false ∧ State.reset.mem.basesDistinct = true ∧
      State.reset.pc &&& 3#32 = 0#32 ∧
      State.reset.readMem .word State.reset.pc = .error (.readOutOfBounds 0x00400000#32)) ∧
    (({ State.reset with pc := 0x00400001#32 } : State).pc &&& 3#32 ≠ 0#32) ∧
    ((readyFor 0x34080001 []).pc &&& 3#32 = 0#32 ∧
      (readyFor 0x34080001 []).readMem .word (readyFor 0x34080001 []).pc = .ok 0x34080001#32 ∧
      decode 0x34080001#32 = .error (.unknownInstruction 0x34080001#32)) := by decide

theorem test_witness_HaltedCoreNeverChanges : ({ State.reset with halted := true } : State).halted = true := by decide

theorem test_witness_IndistinctBasesAreRefused :
    Config.wellFormed { dataBase := 0x00400000#32 } = false ∧ Config.default.wellFormed = true ∧
    (State.powerOn { dataBase := 0x00400000#32 }).halted = false ∧
    (State.powerOn { dataBase := 0x00400000#32 }).mem.basesDistinct = false ∧
    refusalOf (step (State.powerOn { dataBase := 0x00400000#32 })) = some .basesNotDistinct := by decide

theorem test_witness_PcAfterStepIsTargetOrNext :
    (AboutToRun (readyFor 0x03E00008 [(31, 0x00400004)]) (.jr 31#5) ∧
      ∃ t, step (readyFor 0x03E00008 [(31, 0x00400004)]) = .next t) ∧
    (AboutToRun (readyFor 0x0320F809 [(25, 0x00400100)]) (.jalr 31#5 25#5) ∧
      ∃ t, step (readyFor 0x0320F809 [(25, 0x00400100)]) = .next t) ∧
    (AboutToRun (readyFor 0x08100010 []) (.j 0x0100010#26) ∧ ∃ t, step (readyFor 0x08100010 []) = .next t) ∧
    (AboutToRun (readyFor 0x11090003 [(8, 4), (9, 4)]) (.beq 8#5 9#5 3#16) ∧
      ∃ t, step (readyFor 0x11090003 [(8, 4), (9, 4)]) = .next t) ∧
    (AboutToRun (readyFor 0x012A4021 []) (.addu 8#5 9#5 10#5) ∧ ∃ t, step (readyFor 0x012A4021 []) = .next t) :=
  ⟨⟨test_about_jr, test_runs (by decide)⟩, ⟨test_about_jalr, test_runs (by decide)⟩, ⟨test_about_j,
      test_runs (by decide)⟩,
    ⟨test_about_beq_equal, test_runs (by decide)⟩, ⟨test_about_addu, test_runs (by decide)⟩⟩

/-- Each of the four, with each of its kinds. -/
theorem test_witness_OnlyFourInstructionsCanBeFatal :
    [faultOf (exec (.lw 8#5 0#16 0#5) State.reset), faultOf (exec (.lw 8#5 0#16 28#5) State.reset),
      faultOf (exec (.lw 8#5 4#16 29#5) State.reset), faultOf (exec (.sw 8#5 0#16 0#5) State.reset),
      faultOf (exec (.sw 8#5 1#16 29#5) State.reset), faultOf (exec .syscall State.reset),
      faultOf (exec (.div 8#5 9#5) { readyFor 0 [(8, 0x80000000), (9, 0xFFFFFFFF)] with cfg := { divOverflow :=
          .fatal } })] =
    [some (.invalidAddress 0#32), some (.readOutOfBounds 0x10008000#32), some (.stackAboveTop 0x80000000),
      some (.invalidAddress 0#32), some (.stackAboveTop 0x80000000), some (.unknownSyscall 0#32),
      some (.divideOverflow 0x00400000#32)] := by decide

theorem test_witness_ShiftAndRotateResults : (31#5 : Reg) ≠ 0#5 ∧ (2#5 : Shamt) ≠ 1#5 ∧ (0#5 : Shamt) ≠ 1#5 := by decide

theorem test_witness_ConditionalMovesCopyOnCondition :
    State.reset.readReg 0#5 = 0#32 ∧ State.reset.readReg 29#5 ≠ 0#32 := by decide

theorem test_witness_SyscallExitAndBreakHalt :
    (readyFor 0x0000000C [(2, 10)]).readReg 2#5 = 10#32 ∧ (readyFor 0x0000000C [(2, 11)]).readReg 2#5 ≠ 10#32 ∧
    AboutToRun (readyFor 0x0000000C [(2, 10)]) .syscall ∧ AboutToRun (readyFor 0x0007000D []) .brk :=
  ⟨by decide, by decide, test_about_syscall, test_about_break⟩

/-- A zero divisor, the two pairs next to the overflowing one, and that one under each DIV_OVERFLOW. -/
theorem test_witness_SignedDivisionQuotientRemainder :
    State.reset.readReg 8#5 = 0#32 ∧
    (readyFor 0 [(8, 0x80000000), (9, 1)]).readReg 9#5 ≠ 0#32 ∧
    ¬ ((readyFor 0 [(8, 0x80000000), (9, 1)]).readReg 8#5 = 0x80000000#32 ∧
      (readyFor 0 [(8, 0x80000000), (9, 1)]).readReg 9#5 = 0xFFFFFFFF#32) ∧
    (readyFor 0 [(8, 0x80000001), (9, 0xFFFFFFFF)]).readReg 9#5 ≠ 0#32 ∧
    ¬ ((readyFor 0 [(8, 0x80000001), (9, 0xFFFFFFFF)]).readReg 8#5 = 0x80000000#32 ∧
      (readyFor 0 [(8, 0x80000001), (9, 0xFFFFFFFF)]).readReg 9#5 = 0xFFFFFFFF#32) ∧
    (readyFor 0 [(8, 0x80000000), (9, 0xFFFFFFFF)]).readReg 8#5 = 0x80000000#32 ∧
    (readyFor 0 [(8, 0x80000000), (9, 0xFFFFFFFF)]).readReg 9#5 = 0xFFFFFFFF#32 ∧
    (readyFor 0 [(8, 0x80000000), (9, 0xFFFFFFFF)]).cfg.divOverflow = .wrap ∧
    ({ readyFor 0 [(8, 0x80000000), (9, 0xFFFFFFFF)] with cfg := { divOverflow := .fatal } } : State).cfg.divOverflow =
      .fatal := by decide

theorem test_witness_UnsignedDivisionQuotientRemainder :
    State.reset.readReg 8#5 = 0#32 ∧ State.reset.readReg 29#5 ≠ 0#32 := by decide

/-- The last sums and differences that fit and the first that do not, on both sides. -/
theorem test_witness_SignedArithmeticCommitsThenHaltsOnOverflow :
    FitsInt32 ((0x7FFFFFFF#32 : Word).toInt + (0#32 : Word).toInt) ∧
    FitsInt32 ((0x80000000#32 : Word).toInt + (0#32 : Word).toInt) ∧
    ¬ FitsInt32 ((0x7FFFFFFF#32 : Word).toInt + (1#32 : Word).toInt) ∧
    ¬ FitsInt32 ((0x80000000#32 : Word).toInt + (0xFFFFFFFF#32 : Word).toInt) ∧
    FitsInt32 ((0xFFFFFFFF#32 : Word).toInt - (0x80000000#32 : Word).toInt) ∧
    ¬ FitsInt32 ((0#32 : Word).toInt - (0x80000000#32 : Word).toInt) ∧
    FitsInt32 ((0x7FFFFFFE#32 : Word).toInt + (1#16 : Half).toInt) ∧
    ¬ FitsInt32 ((0x7FFFFFFF#32 : Word).toInt + (1#16 : Half).toInt) ∧
    ¬ FitsInt32 ((0x80000000#32 : Word).toInt + (0x8000#16 : Half).toInt) ∧
    (readyFor 0 [(9, 0x7FFFFFFF), (10, 1)]).readReg 9#5 = 0x7FFFFFFF#32 ∧
    (readyFor 0 [(9, 0x7FFFFFFF), (10, 1)]).readReg 10#5 = 1#32 := by decide

/-- Equal, and unequal with the signed and the unsigned order opposite. -/
theorem test_witness_TrapsHaltOnTheirComparison :
    (5#32 : Word).toInt ≤ (5#32 : Word).toInt ∧ (0x80000000#32 : Word).toInt < (0x7FFFFFFF#32 : Word).toInt ∧
    (5#32 : Word).toNat ≤ (5#32 : Word).toNat ∧ (0x7FFFFFFF#32 : Word).toNat < (0x80000000#32 : Word).toNat ∧
    (readyFor 0 [(8, 5), (9, 5)]).readReg 8#5 = (readyFor 0 [(8, 5), (9, 5)]).readReg 9#5 ∧
    (readyFor 0 [(8, 0x80000000), (9, 0x7FFFFFFF)]).readReg 8#5 ≠
      (readyFor 0 [(8, 0x80000000), (9, 0x7FFFFFFF)]).readReg 9#5 := by decide

theorem test_witness_BranchesTakeOrFallThrough :
    ((readyFor 0x11090003 [(8, 4), (9, 4)]).readReg 8#5 = (readyFor 0x11090003 [(8, 4), (9, 4)]).readReg 9#5 ∧
      AboutToRun (readyFor 0x11090003 [(8, 4), (9, 4)]) (.beq 8#5 9#5 3#16) ∧
      (readyFor 0x15090003 [(8, 4), (9, 4)]).readReg 8#5 = (readyFor 0x15090003 [(8, 4), (9, 4)]).readReg 9#5 ∧
      AboutToRun (readyFor 0x15090003 [(8, 4), (9, 4)]) (.bne 8#5 9#5 3#16) ∧
      (readyFor 0x51090003 [(8, 4), (9, 4)]).readReg 8#5 = (readyFor 0x51090003 [(8, 4), (9, 4)]).readReg 9#5 ∧
      AboutToRun (readyFor 0x51090003 [(8, 4), (9, 4)]) (.beql 8#5 9#5 3#16)) ∧
    ((readyFor 0x11090003 [(8, 4), (9, 5)]).readReg 8#5 ≠ (readyFor 0x11090003 [(8, 4), (9, 5)]).readReg 9#5 ∧
      AboutToRun (readyFor 0x11090003 [(8, 4), (9, 5)]) (.beq 8#5 9#5 3#16) ∧
      (readyFor 0x15090003 [(8, 4), (9, 5)]).readReg 8#5 ≠ (readyFor 0x15090003 [(8, 4), (9, 5)]).readReg 9#5 ∧
      AboutToRun (readyFor 0x15090003 [(8, 4), (9, 5)]) (.bne 8#5 9#5 3#16) ∧
      (readyFor 0x51090003 [(8, 4), (9, 5)]).readReg 8#5 ≠ (readyFor 0x51090003 [(8, 4), (9, 5)]).readReg 9#5 ∧
      AboutToRun (readyFor 0x51090003 [(8, 4), (9, 5)]) (.beql 8#5 9#5 3#16)) :=
  ⟨⟨by decide, test_about_beq_equal, by decide, test_about_bne_equal, by decide, test_about_beql_equal⟩,
    ⟨by decide, test_about_beq_differ, by decide, test_about_bne_differ, by decide, test_about_beql_differ⟩⟩

/-- Two stored bytes at the very top of the stack, and a word in data. -/
def stackTopState : State := withBytes State.reset 0x7FFFFFFE#32 [0xAA#8, 0xBB#8]
def dataWordState : State := withBytes State.reset 0x10008000#32 [0x11#8, 0x22#8, 0x33#8, 0x44#8]
def stackWordState : State := withBytes State.reset 0x7FFFFFFC#32 [0x11#8, 0x22#8, 0x33#8, 0x44#8]

theorem test_witness_LoadWordReadsFourBytes :
    (dataWordState.mem.resolve (effectiveAddress (dataWordState.readReg 28#5) 0#16) = .ok .data ∧
      dataWordState.mem.index dataWordState.cfg.stackTopByte .data (0x10008000 + 0) = .ok 32768 ∧
      dataWordState.mem.index dataWordState.cfg.stackTopByte .data (0x10008000 + 3) = .ok 32771 ∧
      (dataWordState.mem.buffer .data).get 32768 = some 0x11#8 ∧ (dataWordState.mem.buffer .data).get 32769 =
          some 0x22#8 ∧
      (dataWordState.mem.buffer .data).get 32770 = some 0x33#8 ∧ (dataWordState.mem.buffer .data).get 32771 =
          some 0x44#8) ∧
    (stackWordState.mem.resolve (effectiveAddress (stackWordState.readReg 29#5) 0#16) = .ok .stack ∧
      (List.range 4).map (fun k => stackWordState.mem.index stackWordState.cfg.stackTopByte .stack (0x7FFFFFFC + k)) =
        [.ok 3, .ok 2, .ok 1, .ok 0] ∧
      (List.range 4).map (fun k => (stackWordState.mem.buffer .stack).get (3 - k)) =
        [some 0x11#8, some 0x22#8, some 0x33#8, some 0x44#8]) := by decide

/-- The first byte missing in an empty buffer, the fourth missing, and the first byte above the stack top as the third. -/
theorem test_witness_LoadWordIsFatalAtFirstMissingByte :
    (State.reset.mem.resolve (effectiveAddress (State.reset.readReg 28#5) 0#16) = .ok .data ∧
      State.reset.mem.index State.reset.cfg.stackTopByte .data (0x10008000 + 0) = .ok 32768 ∧
      (State.reset.mem.buffer .data).len ≤ 32768) ∧
    (dataWordState.mem.resolve (effectiveAddress (dataWordState.readReg 28#5) 1#16) = .ok .data ∧
      (∀ j, j < 3 → ∃ i, dataWordState.mem.index dataWordState.cfg.stackTopByte .data
        ((effectiveAddress (dataWordState.readReg 28#5) 1#16).toNat + j) = .ok i ∧
          i < (dataWordState.mem.buffer .data).len) ∧
      dataWordState.mem.index dataWordState.cfg.stackTopByte .data (0x10008001 + 3) = .ok 32772 ∧
      (dataWordState.mem.buffer .data).len ≤ 32772) ∧
    (stackTopState.mem.resolve (effectiveAddress (stackTopState.readReg 29#5) 2#16) = .ok .stack ∧
      (∀ j, j < 2 → ∃ i, stackTopState.mem.index stackTopState.cfg.stackTopByte .stack
        ((effectiveAddress (stackTopState.readReg 29#5) 2#16).toNat + j) = .ok i ∧
          i < (stackTopState.mem.buffer .stack).len) ∧
      stackTopState.mem.index stackTopState.cfg.stackTopByte .stack (0x7FFFFFFE + 2) =
          .error (.stackAboveTop 0x80000000)) := by
  refine ⟨by decide, ⟨by decide, ?_, by decide, by decide⟩, ⟨by decide, ?_, by decide⟩⟩
  · intro j hj
    obtain rfl | rfl | rfl : j = 0 ∨ j = 1 ∨ j = 2 := by omega
    · exact ⟨32769, by decide, by decide⟩
    · exact ⟨32770, by decide, by decide⟩
    · exact ⟨32771, by decide, by decide⟩
  · intro j hj
    obtain rfl | rfl : j = 0 ∨ j = 1 := by omega
    · exact ⟨1, by decide, by decide⟩
    · exact ⟨0, by decide, by decide⟩

/-- The highest word of the stack and a word of data; an index outside the stored bytes; a word of which only the last byte, and
one of which every byte, lies above the stack top. -/
theorem test_witness_StoreWordPlacesFourBytesAndNoOther :
    State.reset.mem.wf = true ∧
    State.reset.mem.resolve (effectiveAddress (State.reset.readReg 29#5) 0#16) = .ok .stack ∧
    (effectiveAddress (State.reset.readReg 29#5) 0#16).toNat + 3 ≤ State.reset.cfg.stackTopByte.toNat ∧
    State.reset.mem.resolve (effectiveAddress (State.reset.readReg 28#5) 0#16) = .ok .data ∧
    (List.range 4).all (fun k => State.reset.mem.index State.reset.cfg.stackTopByte .data (0x10008000 + k) !=
        .ok 32767) =
      true ∧
    State.reset.mem.resolve (effectiveAddress (State.reset.readReg 29#5) 1#16) = .ok .stack ∧
    State.reset.cfg.stackTopByte.toNat < (effectiveAddress (State.reset.readReg 29#5) 1#16).toNat + 3 ∧
    State.reset.mem.resolve (effectiveAddress (State.reset.readReg 29#5) 4#16) = .ok .stack ∧
    State.reset.cfg.stackTopByte.toNat < (effectiveAddress (State.reset.readReg 29#5) 4#16).toNat + 3 := by decide

theorem test_witness_LoadAfterStoreGivesStoredWord :
    State.reset.mem.wf = true ∧
    (∃ t, exec (.sw 28#5 0#16 29#5) State.reset = .next t ∧
      effectiveAddress (t.readReg 29#5) 0#16 = effectiveAddress (State.reset.readReg 29#5) 0#16) :=
  ⟨by decide, _, rfl, by decide⟩

theorem test_witness_RegisterWritersChangeOnlyTheirDestination :
    shapeOf (.lw 11#5 0#16 28#5) = .register ∧ (∃ t, exec (.lw 11#5 0#16 28#5) dataWordState = .next t) ∧
    destReg (.lw 11#5 0#16 28#5) ≠ some 28#5 ∧
    shapeOf (.movz 8#5 9#5 10#5) = .register ∧ (∃ t, exec (.movz 8#5 9#5 10#5) State.reset = .next t) :=
  ⟨by decide, test_runs (by decide), by decide, by decide, test_runs (by decide)⟩

theorem test_witness_OverflowInstructionsChangeDestinationAndStatus :
    shapeOf (.add 8#5 9#5 10#5) = .overflow ∧
    (∃ t, exec (.add 8#5 9#5 10#5) (readyFor 0 [(9, 0x7FFFFFFF), (10, 1)]) = .next t) ∧
    destReg (.add 8#5 9#5 10#5) ≠ some 9#5 :=
  ⟨by decide, test_runs (by decide), by decide⟩

theorem test_witness_HiLoWritersChangeOnlyHiLo :
    shapeOf (.div 8#5 9#5) = .hilo ∧ (∃ t, exec (.div 8#5 9#5) State.reset = .next t) ∧
    (∃ t, exec (.mthi 8#5) State.reset = .next t) ∧ (∃ t, exec (.mtlo 8#5) State.reset = .next t) :=
  ⟨by decide, test_runs (by decide), test_runs (by decide), test_runs (by decide)⟩

theorem test_witness_HaltingInstructionsChangeOnlyStatus :
    shapeOf .syscall = .halt ∧ (∃ t, exec .syscall (readyFor 0 [(2, 10)]) = .next t) ∧
    shapeOf (.tne 8#5 9#5) = .halt ∧ (∃ t, exec (.tne 8#5 9#5) State.reset = .next t) :=
  ⟨by decide, test_runs (by decide), by decide, test_runs (by decide)⟩

theorem test_witness_ControlInstructionsChangeOnlyPcAndLink :
    shapeOf (.jalr 31#5 25#5) = .control ∧ (∃ t, exec (.jalr 31#5 25#5) State.reset = .next t) ∧
    destReg (.jalr 31#5 25#5) ≠ some 25#5 ∧
    shapeOf (.bne 8#5 9#5 3#16) = .control ∧ (∃ t, exec (.bne 8#5 9#5 3#16) State.reset = .next t) :=
  ⟨by decide, test_runs (by decide), by decide, by decide, test_runs (by decide)⟩

theorem test_witness_UnreadRegistersMakeNoDifference :
    11#5 ∉ readRegs (.add 8#5 9#5 10#5) ∧ destReg (.add 8#5 9#5 10#5) ≠ some 11#5 ∧
    11#5 ∉ readRegs (.sw 10#5 0#16 9#5) ∧ destReg (.sw 10#5 0#16 9#5) ≠ some 11#5 := by decide

theorem test_witness_HiLoReadOnlyByMoves :
    (∀ rd, Instr.add 8#5 9#5 10#5 ≠ .mfhi rd) ∧ (∀ rd, Instr.add 8#5 9#5 10#5 ≠ .mflo rd) ∧
    shapeOf (.add 8#5 9#5 10#5) ≠ .hilo ∧
    (∀ rd, Instr.mult 8#5 9#5 ≠ .mfhi rd) ∧ (∀ rd, Instr.mult 8#5 9#5 ≠ .mflo rd) ∧
    shapeOf (.mult 8#5 9#5) = .hilo ∧ (∀ rs, Instr.mult 8#5 9#5 ≠ .mthi rs) ∧ (∀ rs, Instr.mult 8#5 9#5 ≠ .mtlo rs) ∧
    (∀ rd, Instr.mthi 8#5 ≠ .mfhi rd) ∧ (∀ rd, Instr.mthi 8#5 ≠ .mflo rd) ∧
    (∀ rd, Instr.mtlo 8#5 ≠ .mfhi rd) ∧ (∀ rd, Instr.mtlo 8#5 ≠ .mflo rd) := by
  refine ⟨?_, ?_, by decide, ?_, ?_, by decide, ?_, ?_, ?_, ?_, ?_, ?_⟩ <;> intro r h <;> cases h

theorem test_witness_StepHaltsExactlyOnListedCauses :
    (AboutToRun (readyFor 0x012A4020 [(9, 0x7FFFFFFF), (10, 1)]) (.add 8#5 9#5 10#5) ∧
      (∃ t, step (readyFor 0x012A4020 [(9, 0x7FFFFFFF), (10, 1)]) = .next t) ∧
      haltCause (readyFor 0x012A4020 [(9, 0x7FFFFFFF), (10, 1)]) (.add 8#5 9#5 10#5) = some .integerOverflow) ∧
    (AboutToRun (readyFor 0x0000000C [(2, 10)]) .syscall ∧ (∃ t, step (readyFor 0x0000000C [(2, 10)]) = .next t) ∧
      haltCause (readyFor 0x0000000C [(2, 10)]) .syscall = some .none) ∧
    (AboutToRun (readyFor 0x012A4021 []) (.addu 8#5 9#5 10#5) ∧ (∃ t, step (readyFor 0x012A4021 []) = .next t) ∧
      haltCause (readyFor 0x012A4021 []) (.addu 8#5 9#5 10#5) = none) :=
  ⟨⟨test_about_add, test_runs (by decide), by decide⟩, ⟨test_about_syscall, test_runs (by decide), by decide⟩,
    ⟨test_about_addu, test_runs (by decide), by decide⟩⟩

theorem test_witness_EveryStepKeepsTheInvariant :
    (readyFor 0xAFAAFFFC [(10, 0xCAFEBABE)]).Inv ∧ (∃ t, step (readyFor 0xAFAAFFFC [(10, 0xCAFEBABE)]) = .next t) :=
  ⟨⟨by decide, by decide, by decide, by decide, by decide⟩, test_runs (by decide)⟩

theorem test_witness_ResetStatesHaveTheInvariant :
    Config.wellFormed { dataBase := 0x00400001#32 } = true ∧ (readyFor 0xAFAAFFFC [(10, 0xCAFEBABE)]).Inv :=
  ⟨by decide, ⟨by decide, by decide, by decide, by decide, by decide⟩⟩

theorem test_witness_StepsKeepBasesAndNeverShrinkBuffers :
    (∃ t, step (readyFor 0xAFAAFFFC [(10, 0xCAFEBABE)]) = .next t) ∧
    (∃ t, step { State.reset with halted := true } = .next t) :=
  ⟨test_runs (by decide), test_runs (by decide)⟩

theorem test_witness_FetchSeesTheStoredWord :
    State.reset.mem.wf = true ∧ (∃ t, exec (.sw 28#5 0#16 29#5) State.reset = .next t) ∧
    effectiveAddress (State.reset.readReg 29#5) 0#16 &&& 3#32 = 0#32 :=
  ⟨by decide, test_runs (by decide), by decide⟩

theorem test_witness_AddiuThenLuiBuildsConstant : (31#5 : Reg) ≠ 0#5 := by decide

/-- The callee's `jr ra` stands at the reset address here, `ra` holding the link of a call made there. -/
theorem test_witness_CallLinksAndReturnResumes :
    (31#5 : Reg) ≠ 0#5 ∧ AboutToRun (readyFor 0x0320F809 [(25, 0x00400100)]) (.jalr 31#5 25#5) ∧
    AboutToRun (readyFor 0x03E00008 [(31, 0x00400004)]) (.jr 31#5) ∧
    some ((readyFor 0x03E00008 [(31, 0x00400004)]).readReg 31#5) =
      afterStep (readyFor 0x0320F809 [(25, 0x00400100)]) (fun t => t.readReg 31#5) :=
  ⟨by decide, test_about_jalr, test_about_jr, by decide⟩

theorem test_witness_ResetValues_HostResetKeepsMemory : (31#5 : Reg) ≠ 28#5 ∧ (30#5 : Reg) ≠ 29#5 := by decide

/-- Nothing, one byte, and the most a raw load may hold. -/
theorem test_witness_RawLoadFillsTheTextBuffer :
    ([] : List Byte).length ≤ 0x0FC00000 ∧ [0x0D#8].length ≤ 0x0FC00000 ∧ 0 < [0x0D#8].length ∧
    (List.replicate 0x0FC00000 0x00#8).length ≤ 0x0FC00000 :=
  ⟨by decide, by decide, by decide, by rw [List.length_replicate]⟩

/-- A header that reads whole but is little-endian. -/
theorem test_witness_ElfValidationRefusesMismatch :
    (parseElfHeader (scenarioC.set 5 0x01#8)).map ElfHeader.endianness = some 1#32 ∧ (1#32 : Word) ≠ 2#32 := by decide

theorem test_witness_ElfLoadChangesOnlyMemoryAndPc : ∃ t, State.reset.elfLoad scenarioC = .next t :=
    test_runs (by decide)

/-- The program header of scenario C. -/
def scenarioCHeader : ProgramHeader where
  type := 1#32
  offset := 0x54#32
  vaddr := 0x00400000#32
  paddr := 0x00400000#32
  filesz := 4#32
  memsz := 8#32
  flags := 5#32
  align := 4#32

/-- Scenario C's header; a header of another type; one with more file than memory bytes; one that starts 12 bytes into the text
segment, above a buffer of 4 bytes: index 3 existed, 11 and 16 are new. -/
theorem test_witness_ElfSegmentCopyFillsAndZeroes :
    ({ scenarioCHeader with type := 2#32 } : ProgramHeader).type ≠ 1#32 ∧
    parseProgramHeader scenarioC 0x34 = some scenarioCHeader ∧ scenarioCHeader.type = 1#32 ∧
    State.reset.mem.resolve scenarioCHeader.paddr = .ok .text ∧
    scenarioCHeader.offset.toNat + scenarioCHeader.filesz.toNat ≤ scenarioC.length ∧
    State.reset.mem.wf = true ∧
    (∃ m, copySegment scenarioC scenarioCHeader State.reset.mem = .next m) ∧
    (∃ m, copySegment scenarioC { scenarioCHeader with memsz := 2#32 } State.reset.mem = .next m) ∧
    (readyFor 0 []).mem.wf = true ∧ (readyFor 0 []).mem.resolve 0x0040000C#32 = .ok .text ∧
    3 < ((readyFor 0 []).mem.buffer .text).len ∧ ((readyFor 0 []).mem.buffer .text).len ≤ 11 ∧
    (nextOf (copySegment scenarioC { scenarioCHeader with paddr := 0x0040000C#32 } (readyFor 0 []).mem)).map
      (fun m => decide (16 < (m.buffer .text).len)) = some true :=
  ⟨by decide, by decide, by decide, by decide, by decide, by decide, test_runs (by decide), test_runs (by decide),
      by decide,
    by decide, by decide, by decide, by decide⟩

/-- A halted core; steps that go on, are fatal and are refused; the two self-loops; a run that has ended. -/
theorem test_witness_RunEndsHaltedOrFatalElseNever :
    ({ State.reset with halted := true } : State).halted = true ∧
    ((readyFor 0x0007000D []).halted = false ∧ ∃ t, step (readyFor 0x0007000D []) = .next t) ∧
    (State.reset.halted = false ∧ faultOf (step State.reset) = some (.readOutOfBounds 0x00400000#32)) ∧
    ((State.powerOn { dataBase := 0x00400000#32 }).halted = false ∧
      refusalOf (step (State.powerOn { dataBase := 0x00400000#32 })) = some .basesNotDistinct) ∧
    (AboutToRun (readyFor 0x1000FFFF []) (.beq 0#5 0#5 0xFFFF#16) ∧
      (readyFor 0x1000FFFF []).readReg 0#5 = (readyFor 0x1000FFFF []).readReg 0#5) ∧
    (AboutToRun (readyFor 0x01000008 [(8, 0x00400000)]) (.jr 8#5) ∧
      (readyFor 0x01000008 [(8, 0x00400000)]).readReg 8#5 = (readyFor 0x01000008 [(8, 0x00400000)]).pc) ∧
    (∃ t, RunEndsWith (readyFor 0x0007000D []) (.next t)) ∧
    RunEndsWith State.reset (.fault (.readOutOfBounds 0x00400000#32)) :=
  ⟨by decide, ⟨by decide, test_runs (by decide)⟩, ⟨by decide, by decide⟩, ⟨by decide, by decide⟩,
    ⟨test_about_beq_self, by decide⟩, ⟨test_about_jr_self, by decide⟩, ⟨_, 1, rfl, by decide⟩, ⟨1, rfl, rfl⟩⟩
end

section
/-! PROOFS. The statements about the core's state (spec 10_state.md), assembled from the register ports' laws. -/

namespace Sys2Proof.Machine

/-- Settles O1: each clause is one law of the read or the write port; the frame is `State.writeReg_eq`. -/
theorem registerPortsGuardZero : Obligations.RegisterPortsGuardZero := by
  intro s v
  refine ⟨s.readReg_zero, s.writeReg_zero v, fun r hr => ⟨?slot, ?readBack, ?others, ?frame⟩⟩
  case slot => exact s.readReg_of_ne hr
  case readBack => exact s.readReg_writeReg_self v hr
  case others => exact fun _ hq => s.readReg_writeReg_of_ne v hq
  case frame => exact s.writeReg_eq r v

end Sys2Proof.Machine
end

section
/-! PROOFS. The statements about memory accesses (spec 20_memory.md): what a failed resolution and a missing byte do to each
access, and O3 and O4 assembled from it. -/

namespace Sys2Proof.Machine

/-! ### Accesses whose address does not resolve (R54) -/

theorem Memory.read_of_resolve_error {m : Memory} {a : Word} {f : Fault} (h : m.resolve a = .error f) (top : Word)
    (w : Width) : m.read top w a = .error f := by
  simp only [Memory.read, h]

theorem Memory.write_of_resolve_error {m : Memory} {a : Word} {f : Fault} (h : m.resolve a = .error f) (top : Word)
    (w : Width) (v : Word) : m.write top w a v = .error f := by
  simp only [Memory.write, h]

theorem Memory.resolve_below {m : Memory} {a : Word} (h : ∀ seg, a.toNat < (m.base seg).toNat) :
    m.resolve a = .error (.invalidAddress a) :=
  (m.resolve_error_iff a _).mpr ⟨rfl, h⟩

theorem State.readMem_below {s : State} {a : Word} (h : ∀ seg, a.toNat < (s.mem.base seg).toNat) (w : Width) :
    s.readMem w a = .error (.invalidAddress a) :=
  Memory.read_of_resolve_error (Memory.resolve_below h) _ w

theorem State.writeMem_below {s : State} {a : Word} (h : ∀ seg, a.toNat < (s.mem.base seg).toNat) (w : Width)
    (v : Word) : s.writeMem w a v = .error (.invalidAddress a) := by
  simp only [State.writeMem, Memory.write_of_resolve_error (Memory.resolve_below h)]

/-! ### A failed access is the fault of its instruction or step (R170, R171, R187) -/

theorem exec_lw_of_readMem_error {s : State} {rs : Reg} {imm : Half} {f : Fault}
    (h : s.readMem .word (effectiveAddress (s.readReg rs) imm) = .error f) (rt : Reg) :
    exec (.lw rt imm rs) s = .fault f := by
  simp only [exec, execLw, h]

theorem exec_sw_of_writeMem_error {s : State} {rt rs : Reg} {imm : Half} {f : Fault}
    (h : s.writeMem .word (effectiveAddress (s.readReg rs) imm) (s.readReg rt) = .error f) :
    exec (.sw rt imm rs) s = .fault f := by
  simp only [exec, execSw, h]

theorem State.fetch_of_aligned {s : State} (h : s.pc &&& 3#32 = 0#32) : s.fetch = s.readMem .word s.pc :=
  if_pos h

theorem State.fetchDecode_of_fetch_error {s : State} {f : Fault} (h : s.fetch = .error f) : s.fetchDecode = .error f := by
  simp only [State.fetchDecode, h]

/-- The jump flag plays no part in a fetch, so the fetch's fault may be read off the state before the step. -/
theorem step_of_fetch_error {s : State} {f : Fault} (hrun : s.halted = false) (hb : s.mem.basesDistinct = true)
    (hf : s.fetch = .error f) : step s = .fault f := by
  have hfd : s.beginStep.fetchDecode = .error f := State.fetchDecode_of_fetch_error hf
  simp [step, hrun, hb, hfd]

/-- Settles O3: each access fails with the fault of its resolution, which is `Memory.resolve_below`. -/
theorem accessBelowLowestBaseIsFatal : Obligations.AccessBelowLowestBaseIsFatal := by
  intro s a hbelow
  refine ⟨State.readMem_below hbelow, State.writeMem_below hbelow, ?loadStore, ?fetch⟩
  case loadStore =>
    rintro rt rs imm rfl
    exact ⟨exec_lw_of_readMem_error (State.readMem_below hbelow _) rt,
      exec_sw_of_writeMem_error (State.writeMem_below hbelow _ _)⟩
  case fetch =>
    rintro hrun hb rfl haligned
    exact step_of_fetch_error hrun hb ((State.fetch_of_aligned haligned).trans (State.readMem_below hbelow _))

/-! ### One byte of a read (R57) -/

theorem Buffer.get_of_lt {b : Buffer} {i : Nat} (h : i < b.len) : b.get i = some (lookupCell b.cells i) :=
  if_pos h

theorem Memory.readByte_of_len_le {m : Memory} {top : Word} {seg : Segment} {a : Word} {k i : Nat}
    (hi : m.index top seg (a.toNat + k) = .ok i) (hlen : (m.buffer seg).len ≤ i) :
    m.readByte top seg a k = .error (.readOutOfBounds a) := by
  simp only [Memory.readByte, hi, (Buffer.get_eq_none_iff _ i).mpr hlen]

/-- Settles O4: the buffer has a byte exactly at the indices below its length. -/
theorem byteReadAtIndexOrOutOfBounds : Obligations.ByteReadAtIndexOrOutOfBounds := by
  intro m top seg a k i hi
  refine ⟨fun hlt => ?present, Memory.readByte_of_len_le hi⟩
  case present =>
    have hget := Buffer.get_of_lt hlt
    exact ⟨hget, (m.readByte_ok_iff top seg a k _).mpr ⟨i, hi, hget⟩⟩

end Sys2Proof.Machine
end

section
/-! PROOFS. The statements about the conditional moves (spec 40_shift_move.md): one equation per instruction, and O22 as
the two branches of their conditions. -/

namespace Sys2Proof.Machine

theorem exec_movz (rd rs rt : Reg) (s : State) :
    exec (.movz rd rs rt) s = .next (if s.readReg rt = 0#32 then s.writeReg rd (s.readReg rs) else s) := rfl

theorem exec_movn (rd rs rt : Reg) (s : State) :
    exec (.movn rd rs rt) s = .next (if s.readReg rt = 0#32 then s else s.writeReg rd (s.readReg rs)) := rfl

/-- Settles O22: each move's equation, in the branch its condition on `rt` selects. -/
theorem conditionalMovesCopyOnCondition : Obligations.ConditionalMovesCopyOnCondition := by
  intro s rd rs rt
  refine ⟨fun hzero => ?zero, fun hnonzero => ?nonzero⟩
  case zero => simp only [exec_movz, exec_movn, if_pos hzero, and_self]
  case nonzero => simp only [exec_movz, exec_movn, if_neg hnonzero, and_self]

end Sys2Proof.Machine
end

section
/-! PROOFS. The statement about the multiplications (spec 42_hilo_muldiv.md): one equation per instruction, and what the
product's halves say put together. -/

namespace Sys2Proof.Machine

theorem exec_mult (rs rt : Reg) (s : State) :
    exec (.mult rs rt) s = .next (s.writeHiLo (mulSigned (s.readReg rs) (s.readReg rt))) := rfl

theorem exec_multu (rs rt : Reg) (s : State) :
    exec (.multu rs rt) s = .next (s.writeHiLo (mulUnsigned (s.readReg rs) (s.readReg rt))) := rfl

/-- Settles O25: the two halves written are those of `mulSigned` and `mulUnsigned`, and `mulSigned_toInt` and
`mulUnsigned_toNat` say each pair is the whole product. -/
theorem multiplyLeavesExactProduct : Obligations.MultiplyLeavesExactProduct := by
  intro s rs rt
  refine ⟨⟨_, _, exec_mult rs rt s, ?signed⟩, ⟨_, _, exec_multu rs rt s, ?unsigned⟩⟩
  case signed => exact mulSigned_toInt (s.readReg rs) (s.readReg rt)
  case unsigned => exact mulUnsigned_toNat (s.readReg rs) (s.readReg rt)

end Sys2Proof.Machine
end

section
/-! PROOFS. The statement about the load of an upper immediate (spec 46_alu_immediate.md): the instruction's equation over the
write port, and O34 as its value at every register and at register 0. -/

namespace Sys2Proof.Machine

theorem exec_lui (rt : Reg) (imm : Half) (s : State) : exec (.lui rt imm) s = .next (s.writeHigh rt imm) := rfl

/-- `lui` through the write port, its two halves spelled out (R163, R29). -/
theorem exec_lui_append (rt : Reg) (imm : Half) (s : State) :
    exec (.lui rt imm) s = .next (s.writeReg rt (imm ++ (s.readReg rt).extractLsb' 0 16)) := by
  rw [exec_lui, State.writeHigh_eq, replaceHigh_eq_append]

/-- Settles O34: the equation at any register, and the write port's no-op at register 0. -/
theorem luiReplacesUpperHalf : Obligations.LuiReplacesUpperHalf := by
  intro s rt imm
  refine ⟨exec_lui_append rt imm s, ?registerZero⟩
  case registerZero => rw [exec_lui_append, State.writeReg_zero]

end Sys2Proof.Machine
end

section
/-! PROOFS. The statements about encoding (spec 30_encoding.md): decoding an encoded word, encoding a decoded one, and
the words the decoder rejects. -/

namespace Sys2Proof

/-! ### From an instruction to its word and back (R80 to R84) -/

theorem decodePrimary_encodeR (rs rt rd : Reg) (sh : Shamt) (f : BitVec 6) :
    decodePrimary (encodeR rs rt rd sh f) = decodeSpecial (encodeR rs rt rd sh f) := by
  simp only [decodePrimary, fieldOpcode_encodeR]

/-- One case per word format: the opcode (and funct) of the word select the row, and each operand is read back. -/
theorem decode_encode (i : Instr) : decode (encode i) = .ok i := by
  rw [decode_ok_iff]
  cases i with
  | j => simp only [encode, decodePrimary, fieldOpcode_encodeJ, fieldTarget_encodeJ]
  | beq | bne | addi | addiu | andi | lui | beql | lw | sw =>
    simp only [encode, decodePrimary, fieldOpcode_encodeI, fieldRs_encodeI, fieldRt_encodeI, fieldImm_encodeI]
  | _ =>
    simp only [encode, decodePrimary_encodeR, decodeSpecial, fieldFunct_encodeR, fieldRs_encodeR, fieldRt_encodeR,
      fieldRd_encodeR, fieldShamt_encodeR]

/-- Four bytes as memory holds them decode as the word they are the bytes of. -/
theorem decodeBytes_splitBytes {w : Word} {i : Instr} (h : decode w = .ok i) (rest : List Byte) :
    decodeBytes (splitBytes 4 w ++ rest) = .ok (i, rest) := by
  have hw := Machine.assembleBytes_splitBytes_word w
  simp only [splitBytes] at hw
  simp only [splitBytes, List.cons_append, List.nil_append, decodeBytes, hw, h]

/-- Settles O10: `decode_encode` for the word, and for its bytes because the four bytes of a word are that word. -/
theorem decodeOfEncodeIsIdentity : Obligations.DecodeOfEncodeIsIdentity :=
  fun i rest => ⟨decode_encode i, decodeBytes_splitBytes (decode_encode i) rest⟩

/-! ### A word of each format, built from the fields another word keeps under a mask (R91) -/

theorem encodeR_eq_and {w m : Word} {rs rt rd : Reg} {sh : Shamt} {f : BitVec 6} (ho : fieldOpcode w = 0#6)
    (hf : fieldFunct w = f) (hm : fieldFunct m = 63#6) (hrs : rs = fieldRs w &&& fieldRs m)
    (hrt : rt = fieldRt w &&& fieldRt m) (hrd : rd = fieldRd w &&& fieldRd m)
    (hsh : sh = fieldShamt w &&& fieldShamt m) : encodeR rs rt rd sh f = w &&& m := by
  apply word_eq_of_fields
  · rw [fieldOpcode_encodeR, fieldOpcode_and, ho, BitVec.zero_and]
  · rw [fieldRs_encodeR, fieldRs_and, hrs]
  · rw [fieldRt_encodeR, fieldRt_and, hrt]
  · rw [fieldRd_encodeR, fieldRd_and, hrd]
  · rw [fieldShamt_encodeR, fieldShamt_and, hsh]
  · rw [fieldFunct_encodeR, fieldFunct_and, hf, hm, and_full6]

theorem encodeI_eq_and {w m : Word} {op : BitVec 6} {rs rt : Reg} {imm : Half} (ho : fieldOpcode w = op)
    (hm : fieldOpcode m = 63#6) (hrs : rs = fieldRs w &&& fieldRs m) (hrt : rt = fieldRt w &&& fieldRt m)
    (himm : imm = fieldImm w &&& fieldImm m) : encodeI op rs rt imm = w &&& m := by
  apply word_eq_of_fieldsI
  · rw [fieldOpcode_encodeI, fieldOpcode_and, ho, hm, and_full6]
  · rw [fieldRs_encodeI, fieldRs_and, hrs]
  · rw [fieldRt_encodeI, fieldRt_and, hrt]
  · rw [fieldImm_encodeI, fieldImm_and, himm]

theorem encodeJ_eq {w : Word} {op : BitVec 6} (ho : fieldOpcode w = op) : encodeJ op (fieldTarget w) = w := by
  apply word_eq_of_fieldsJ
  · rw [fieldOpcode_encodeJ, ho]
  · rw [fieldTarget_encodeJ]

theorem encode_of_decodeSpecial {w : Word} {i : Instr} (ho : fieldOpcode w = 0#6) (h : decodeSpecial w = some i) :
    encode i = w &&& usedBits i := by
  unfold decodeSpecial at h
  split at h
  all_goals cases h
  all_goals
    simp only [encode, usedBits]
    refine encodeR_eq_and ho ‹_› (by decide) ?_ ?_ ?_ ?_
    · simp [fieldRs]
    · simp [fieldRt]
    · simp [fieldRd]
    · simp [fieldShamt]

/-- One case per row of the opcode table: the row fixes the opcode, and the mask covers the operands' fields. -/
theorem encode_of_decode {w : Word} {i : Instr} (h : decode w = .ok i) : encode i = w &&& usedBits i := by
  rw [decode_ok_iff] at h
  unfold decodePrimary at h
  split at h
  · next ho => exact encode_of_decodeSpecial ho h
  · next ho =>
    cases h
    exact (encodeJ_eq ho).trans BitVec.and_allOnes.symm
  all_goals cases h
  all_goals
    simp only [encode, usedBits]
    refine encodeI_eq_and ‹_› (by decide) ?_ ?_ ?_
    · simp [fieldRs]
    · simp [fieldRt]
    · simp [fieldImm]

/-- Settles O11: the decoder drops no used bit, row by row (`encode_of_decode`). -/
theorem encodeOfDecodeKeepsUsedBits : Obligations.EncodeOfDecodeKeepsUsedBits := fun _ _ => encode_of_decode

/-! ### Words that differ in ignored bits only (R91) -/

/-- What each field keeps under a mask, where the masked word is of R-type. -/
theorem fieldsR_of_and_eq {w m : Word} {rs rt rd : Reg} {sh : Shamt} {f : BitVec 6}
    (h : w &&& m = encodeR rs rt rd sh f) :
    fieldOpcode w &&& m.extractLsb' 26 6 = 0#6 ∧ fieldFunct w &&& m.extractLsb' 0 6 = f ∧
      fieldRs w &&& m.extractLsb' 21 5 = rs ∧ fieldRt w &&& m.extractLsb' 16 5 = rt ∧
      fieldRd w &&& m.extractLsb' 11 5 = rd ∧ fieldShamt w &&& m.extractLsb' 6 5 = sh := by
  refine ⟨(fieldOpcode_and w m).symm.trans ?_, (fieldFunct_and w m).symm.trans ?_, (fieldRs_and w m).symm.trans ?_,
    (fieldRt_and w m).symm.trans ?_, (fieldRd_and w m).symm.trans ?_, (fieldShamt_and w m).symm.trans ?_⟩
  all_goals simp only [h, fieldOpcode_encodeR, fieldFunct_encodeR, fieldRs_encodeR, fieldRt_encodeR, fieldRd_encodeR,
    fieldShamt_encodeR]

/-- What each field keeps under a mask, where the masked word is of I-type. -/
theorem fieldsI_of_and_eq {w m : Word} {op : BitVec 6} {rs rt : Reg} {imm : Half}
    (h : w &&& m = encodeI op rs rt imm) :
    fieldOpcode w &&& m.extractLsb' 26 6 = op ∧ fieldRs w &&& m.extractLsb' 21 5 = rs ∧
      fieldRt w &&& m.extractLsb' 16 5 = rt ∧ fieldImm w &&& m.extractLsb' 0 16 = imm := by
  refine ⟨(fieldOpcode_and w m).symm.trans ?_, (fieldRs_and w m).symm.trans ?_, (fieldRt_and w m).symm.trans ?_,
    (fieldImm_and w m).symm.trans ?_⟩
  all_goals simp only [h, fieldOpcode_encodeI, fieldRs_encodeI, fieldRt_encodeI, fieldImm_encodeI]

/-- The decoder looks at the used bits only: the mask of each instruction covers the fields its row reads. -/
theorem decode_of_and_eq_encode {w : Word} {i : Instr} (h : w &&& usedBits i = encode i) : decode w = .ok i := by
  rw [decode_ok_iff]
  cases i with
  | j target =>
    obtain rfl : w = encodeJ 0x02#6 target := BitVec.and_allOnes.symm.trans h
    simp only [decodePrimary, fieldOpcode_encodeJ, fieldTarget_encodeJ]
  | beq | bne | addi | addiu | andi | lui | beql | lw | sw =>
    simp only [usedBits] at h
    obtain ⟨ho, hrs, hrt, himm⟩ := fieldsI_of_and_eq h
    simp only [BitVec.reduceExtractLsb', and_full5, and_full6, and_full16] at ho hrs hrt himm
    simp only [decodePrimary, ho, hrs, hrt, himm]
  | _ =>
    simp only [usedBits] at h
    obtain ⟨ho, hf, hrs, hrt, hrd, hsh⟩ := fieldsR_of_and_eq h
    simp only [BitVec.reduceExtractLsb', and_full5, and_full6] at ho hf hrs hrt hrd hsh
    simp only [decodePrimary, decodeSpecial, ho, hf, hrs, hrt, hrd, hsh]

/-- Settles O12: the first word's used bits are the instruction's encoding, so the second's are too, and they decide.
-/
theorem decodeIgnoresUnusedFields : Obligations.DecodeIgnoresUnusedFields :=
  fun _ _ _ hw hmask => decode_of_and_eq_encode (hmask.symm.trans (encode_of_decode hw).symm)

/-! ### Rejected words (R90, R93) -/

theorem decodeSpecial_eq_none_iff (w : Word) :
    decodeSpecial w = none ↔ fieldFunct w ∉ [0x00#6, 0x02#6, 0x03#6, 0x04#6, 0x06#6, 0x07#6, 0x08#6, 0x09#6, 0x0A#6,
      0x0B#6, 0x0C#6, 0x0D#6, 0x10#6, 0x11#6, 0x12#6, 0x13#6, 0x18#6, 0x19#6, 0x1A#6, 0x1B#6, 0x20#6, 0x21#6, 0x22#6,
      0x23#6, 0x24#6, 0x25#6, 0x26#6, 0x27#6, 0x2A#6, 0x2B#6, 0x30#6, 0x31#6, 0x32#6, 0x33#6, 0x34#6, 0x36#6] := by
  unfold decodeSpecial
  split <;> simp_all

theorem decodePrimary_eq_none_iff (w : Word) :
    decodePrimary w = none ↔
      fieldOpcode w ∉ [0x00#6, 0x02#6, 0x04#6, 0x05#6, 0x08#6, 0x09#6, 0x0C#6, 0x0F#6, 0x14#6, 0x23#6, 0x2B#6] ∨
      (fieldOpcode w = 0x00#6 ∧ decodeSpecial w = none) := by
  unfold decodePrimary
  split <;> simp_all

/-- Settles O13: a word is rejected where the row of its opcode, or under opcode 0 that of its funct, is missing. -/
theorem decodeRejectsExactlyUnlistedWords : Obligations.DecodeRejectsExactlyUnlistedWords := by
  intro w
  rw [decode_error_iff, decodePrimary_eq_none_iff, decodeSpecial_eq_none_iff]
  simp only [true_and]

/-- Settles O14: eleven closed words, evaluated. -/
theorem workedEncodingsDecode : Obligations.WorkedEncodingsDecode := by
  unfold Obligations.WorkedEncodingsDecode
  decide

end Sys2Proof
end

section
/-! PROOFS. What the instructions of each shape of Safety.lean can do (spec 10_state.md R32), said once per shape, and
the frame statements as its consequences. -/

namespace Sys2Proof.Machine

/-! ### One lemma per shape: every next state an instruction of that shape answers -/

/-- Writing back what a register reads changes nothing. -/
theorem State.writeReg_readReg_self (s : State) (r : Reg) : s.writeReg r (s.readReg r) = s := by
  by_cases hr : r = 0#5
  · rw [hr, State.writeReg_zero]
  · simp only [State.writeReg_of_ne _ _ hr, State.readReg_of_ne _ hr, Vector.set_getElem_self]

/-- A move that is not made counts as writing back the destination's own value. -/
theorem exec_register_next {i : Instr} {s t : State} (hs : shapeOf i = .register) (h : exec i s = .next t) :
    ∃ r v, destReg i = some r ∧ t = s.writeReg r v := by
  cases i with
  | movz rd rs rt =>
    obtain rfl := Host.Outcome.next.inj h
    split
    · exact ⟨rd, _, rfl, rfl⟩
    · exact ⟨rd, _, rfl, (s.writeReg_readReg_self rd).symm⟩
  | movn rd rs rt =>
    obtain rfl := Host.Outcome.next.inj h
    split
    · exact ⟨rd, _, rfl, (s.writeReg_readReg_self rd).symm⟩
    · exact ⟨rd, _, rfl, rfl⟩
  | lw rt imm rs =>
    simp only [exec, execLw] at h
    split at h
    · exact ⟨rt, _, rfl, (Host.Outcome.next.inj h).symm⟩
    · cases h
  | sll | srl | sra | sllv | srlv | srav | mfhi | mflo | addu | subu | and | or | xor | nor | slt | sltu | addiu
  | andi | lui => exact ⟨_, _, rfl, (Host.Outcome.next.inj h).symm⟩
  | _ => cases hs

theorem exec_overflow_next {i : Instr} {s t : State} (hs : shapeOf i = .overflow) (h : exec i s = .next t) :
    ∃ r v c, destReg i = some r ∧ t = (s.writeReg r v).raiseIf c .integerOverflow := by
  cases i with
  | add | sub | addi => exact ⟨_, _, _, rfl, (Host.Outcome.next.inj h).symm⟩
  | _ => cases hs

theorem exec_hilo_next {i : Instr} {s t : State} (hs : shapeOf i = .hilo) (h : exec i s = .next t) :
    ∃ p, t = s.writeHiLo p := by
  cases i with
  | div rs rt =>
    simp only [exec, execDiv] at h
    split at h
    · cases h
    · exact ⟨_, (Host.Outcome.next.inj h).symm⟩
  | mthi | mtlo | mult | multu | divu => exact ⟨_, (Host.Outcome.next.inj h).symm⟩
  | _ => cases hs

theorem exec_halt_next {i : Instr} {s t : State} (hs : shapeOf i = .halt) (h : exec i s = .next t) :
    ∃ c e, t = s.raiseIf c e := by
  cases i with
  | syscall =>
    simp only [exec, execSyscall] at h
    split at h
    · exact ⟨true, .none, (Host.Outcome.next.inj h).symm⟩
    · cases h
  | brk => exact ⟨true, .breakpoint, (Host.Outcome.next.inj h).symm⟩
  | tge | tgeu | tlt | tltu | teq | tne => exact ⟨_, _, (Host.Outcome.next.inj h).symm⟩
  | _ => cases hs

theorem exec_control_next {i : Instr} {s t : State} (hs : shapeOf i = .control) (h : exec i s = .next t) :
    t = s ∨ (∃ p, t = s.jumpTo p) ∨ ∃ r v p, destReg i = some r ∧ t = (s.writeReg r v).jumpTo p := by
  cases i with
  | jr | j => exact .inr (.inl ⟨_, (Host.Outcome.next.inj h).symm⟩)
  | jalr => exact .inr (.inr ⟨_, _, _, rfl, (Host.Outcome.next.inj h).symm⟩)
  | beq | beql =>
    obtain rfl := Host.Outcome.next.inj h
    split
    · exact .inr (.inl ⟨_, rfl⟩)
    · exact .inl rfl
  | bne =>
    obtain rfl := Host.Outcome.next.inj h
    split
    · exact .inl rfl
    · exact .inr (.inl ⟨_, rfl⟩)
  | _ => cases hs

theorem exec_sw_next {s t : State} {rt rs : Reg} {imm : Half} (h : exec (.sw rt imm rs) s = .next t) :
    ∃ m, s.mem.write s.cfg.stackTopByte .word (effectiveAddress (s.readReg rs) imm) (s.readReg rt) = .ok m ∧
      t = { s with mem := m } := by
  simp only [exec, execSw] at h
  split at h
  · next u hu =>
    cases h
    exact State.writeMem_ok hu
  · cases h

theorem exec_store_next {i : Instr} {s t : State} (hs : shapeOf i = .store) (h : exec i s = .next t) :
    ∃ m a v, s.mem.write s.cfg.stackTopByte .word a v = .ok m ∧ t = { s with mem := m } := by
  cases i with
  | sw rt imm rs =>
    obtain ⟨m, hm, ht⟩ := exec_sw_next h
    exact ⟨m, _, _, hm, ht⟩
  | _ => cases hs

/-! ### The frame statements -/

/-- What a read through the state's accessor depends on. -/
theorem State.readMem_congr {s t : State} (hmem : t.mem = s.mem) (hcfg : t.cfg = s.cfg) (w : Width) (a : Word) :
    t.readMem w a = s.readMem w a := by
  simp only [State.readMem, hmem, hcfg]

/-- Settles O39: the next state is the old one with the destination written. -/
theorem registerWritersChangeOnlyTheirDestination : Obligations.RegisterWritersChangeOnlyTheirDestination := by
  intro i s t hs h
  obtain ⟨d, v, hd, rfl⟩ := exec_register_next hs h
  refine ⟨s.writeReg_eq d v, fun r hr => ?others, fun w a => State.readMem_congr (by simp) (by simp) w a⟩
  case others => exact s.readReg_writeReg_of_ne v fun e => hr (e ▸ hd)

/-- Settles O40: the next state is the old one with the destination written and, where the result overflows, the
exception taken. -/
theorem overflowInstructionsChangeDestinationAndStatus :
    Obligations.OverflowInstructionsChangeDestinationAndStatus := by
  intro i s t hs h
  obtain ⟨d, v, c, hd, rfl⟩ := exec_overflow_next hs h
  refine ⟨?frame, fun r hr => ?others, ?status, fun w a => State.readMem_congr (by simp) (by simp) w a⟩
  case frame =>
    rw [s.writeReg_eq d v]
    cases c <;> rfl
  case others =>
    rw [State.raiseIf_readReg]
    exact s.readReg_writeReg_of_ne v fun e => hr (e ▸ hd)
  case status => cases c <;> simp

/-- Settles O41: the next state is the old one with `HI` and `LO` written; `mthi` and `mtlo` write the other half
back. -/
theorem hiLoWritersChangeOnlyHiLo : Obligations.HiLoWritersChangeOnlyHiLo := by
  refine ⟨fun i s t hs h => ?frame, fun s t r h => ?mthi, fun s t r h => ?mtlo⟩
  case frame =>
    obtain ⟨p, rfl⟩ := exec_hilo_next hs h
    exact ⟨rfl, fun r => s.writeHiLo_readReg p r, fun w a => rfl⟩
  case mthi => rw [← Host.Outcome.next.inj h, State.writeHiLo_lo]
  case mtlo => rw [← Host.Outcome.next.inj h, State.writeHiLo_hi]

/-- Settles O42: the next state is the old one, with an exception taken where the instruction's condition holds. -/
theorem haltingInstructionsChangeOnlyStatus : Obligations.HaltingInstructionsChangeOnlyStatus := by
  intro i s t hs h
  obtain ⟨c, e, rfl⟩ := exec_halt_next hs h
  refine ⟨?frame, fun r => s.raiseIf_readReg c e r, fun w a => State.readMem_congr (by simp) (by simp) w a⟩
  case frame => cases c <;> rfl

/-- Settles O43: the next state is the old one, jumped or not, `jalr`'s with the link written first. -/
theorem controlInstructionsChangeOnlyPcAndLink : Obligations.ControlInstructionsChangeOnlyPcAndLink := by
  intro i s t hs h
  obtain rfl | ⟨p, rfl⟩ | ⟨d, v, p, hd, rfl⟩ := exec_control_next hs h
  case inl => exact ⟨rfl, fun _ _ => rfl, fun _ _ => rfl⟩
  case inr.inl => exact ⟨rfl, fun _ _ => rfl, fun _ _ => rfl⟩
  case inr.inr =>
    refine ⟨?frame, fun r hr => ?others, fun w a => State.readMem_congr (by simp) (by simp) w a⟩
    case frame =>
      rw [s.writeReg_eq d v]
      rfl
    case others =>
      rw [State.jumpTo_readReg]
      exact s.readReg_writeReg_of_ne v fun e => hr (e ▸ hd)

end Sys2Proof.Machine
end

section
/-! PROOFS. The statements that a part of the state makes no difference to an instruction (spec 10_state.md R32, R36).
Both rest on one lemma: a change of the state that the instruction does not read, and that commutes with the updates
the instruction makes, may be made before or after it. -/

namespace Sys2Proof.Machine

/-! ### The load and the store, as their access answers (R170, R171) -/

theorem exec_lw_of_readMem_ok {s : State} {rs : Reg} {imm : Half} {v : Word}
    (h : s.readMem .word (effectiveAddress (s.readReg rs) imm) = .ok v) (rt : Reg) :
    exec (.lw rt imm rs) s = .next (s.writeReg rt v) := by
  simp only [exec, execLw, h]

theorem exec_sw_of_write_ok {s : State} {rt rs : Reg} {imm : Half} {m : Memory}
    (h : s.mem.write s.cfg.stackTopByte .word (effectiveAddress (s.readReg rs) imm) (s.readReg rt) = .ok m) :
    exec (.sw rt imm rs) s = .next { s with mem := m } := by
  simp only [exec, execSw, State.writeMem, h]

theorem exec_sw_of_write_error {s : State} {rt rs : Reg} {imm : Half} {f : Fault}
    (h : s.mem.write s.cfg.stackTopByte .word (effectiveAddress (s.readReg rs) imm) (s.readReg rt) = .error f) :
    exec (.sw rt imm rs) s = .fault f := by
  simp only [exec, execSw, State.writeMem, h]

/-! ### Changes an instruction does not see -/

/-- `f` changes nothing an instruction with these operands reads, but `HI` and `LO`, and commutes with the updates it
makes, but that of `HI` and `LO`. -/
structure UnseenBy (f : State → State) (i : Instr) : Prop where
  readReg : ∀ s, ∀ q ∈ readRegs i, (f s).readReg q = s.readReg q
  pc : ∀ s, (f s).pc = s.pc
  cfg : ∀ s, (f s).cfg = s.cfg
  mem : ∀ s, (f s).mem = s.mem
  writeReg : ∀ s d v, destReg i = some d → (f s).writeReg d v = f (s.writeReg d v)
  raiseIf : ∀ s c e, (f s).raiseIf c e = f (s.raiseIf c e)
  jumpTo : ∀ s p, (f s).jumpTo p = f (s.jumpTo p)
  withMem : ∀ s m, { f s with mem := m } = f { s with mem := m }

/-- A change an instruction does not see may be made before or after it. (`mfhi` and `mflo` read `HI` and `LO`, and
those of shape `hilo` write them: such a change may touch both.) -/
theorem exec_of_unseenBy {f : State → State} {i : Instr} (hf : UnseenBy f i) (hhilo : shapeOf i ≠ .hilo)
    (hmfhi : ∀ rd, i ≠ .mfhi rd) (hmflo : ∀ rd, i ≠ .mflo rd) (s : State) :
    exec i (f s) = mapNext f (exec i s) := by
  have hread := hf.readReg s
  have hwrite := hf.writeReg s
  cases i
  all_goals
    simp only [readRegs, destReg, List.mem_cons, List.not_mem_nil, or_false, forall_eq_or_imp, forall_eq,
      Option.some.injEq, reduceCtorEq, false_implies, implies_true] at hread hwrite
  case mfhi rd => exact absurd rfl (hmfhi rd)
  case mflo rd => exact absurd rfl (hmflo rd)
  case mthi | mtlo | mult | multu | div | divu => exact absurd rfl hhilo
  case sll | srl | sra | sllv | srlv | srav =>
    simp only [exec, execSll, execSrl, execSra, execSllv, execSrlv, execSrav, mapNext, hread, hwrite]
  case addu | subu | and | or | xor | nor | slt | sltu =>
    simp only [exec, execAddu, execSubu, execAnd, execOr, execXor, execNor, execSlt, execSltu, mapNext, hread, hwrite]
  case addiu | andi | lui =>
    simp only [exec, execAddiu, execAndi, execLui, State.writeHigh, mapNext, hread, hwrite]
  case movz | movn => simp only [exec, execMovz, execMovn, mapNext, hread, hwrite, apply_ite f]
  case add | sub | addi => simp only [exec, execAdd, execSub, execAddi, mapNext, hread, hwrite, hf.raiseIf]
  case tge | tgeu | tlt | tltu | teq | tne =>
    simp only [exec, execTge, execTgeu, execTlt, execTltu, execTeq, execTne, mapNext, hread, hf.raiseIf]
  case brk => exact congrArg Host.Outcome.next (hf.raiseIf s true .breakpoint)
  case syscall =>
    simp only [exec, execSyscall, hread]
    split
    · exact congrArg Host.Outcome.next (hf.raiseIf s true .none)
    · rfl
  case jr | j => simp only [exec, execJr, execJ, mapNext, hread, hf.pc, hf.jumpTo]
  case jalr => simp only [exec, execJalr, mapNext, hread, hwrite, hf.pc, hf.jumpTo]
  case beq | bne | beql =>
    simp only [exec, execBeq, execBne, execBeql, mapNext, hread, hf.pc, hf.jumpTo, apply_ite f]
  case lw rt imm rs =>
    have hmem := State.readMem_congr (hf.mem s) (hf.cfg s) .word (effectiveAddress (s.readReg rs) imm)
    cases hr : s.readMem .word (effectiveAddress (s.readReg rs) imm) <;>
      simp only [exec, execLw, mapNext, hread, hwrite, hmem, hr]
  case sw rt imm rs =>
    obtain ⟨hrs, hrt⟩ := hread
    have hsame : (f s).mem.write (f s).cfg.stackTopByte .word (effectiveAddress ((f s).readReg rs) imm)
        ((f s).readReg rt) =
        s.mem.write s.cfg.stackTopByte .word (effectiveAddress (s.readReg rs) imm) (s.readReg rt) := by
      rw [hf.mem, hf.cfg, hrs, hrt]
    cases hw : s.mem.write s.cfg.stackTopByte .word (effectiveAddress (s.readReg rs) imm) (s.readReg rt) with
    | ok m =>
      rw [exec_sw_of_write_ok hw, exec_sw_of_write_ok (hsame.trans hw)]
      exact congrArg Host.Outcome.next (hf.withMem s m)
    | error e =>
      rw [exec_sw_of_write_error hw, exec_sw_of_write_error (hsame.trans hw)]
      rfl

/-! ### A register write beside an instruction that does not use the register (R32) -/

theorem unseenBy_writeReg {i : Instr} {r : Reg} (hread : r ∉ readRegs i) (hdest : destReg i ≠ some r) (v : Word) :
    UnseenBy (fun s => s.writeReg r v) i where
  readReg s q hq := s.readReg_writeReg_of_ne v fun e => hread (e ▸ hq)
  pc s := s.writeReg_pc r v
  cfg s := s.writeReg_cfg r v
  mem s := s.writeReg_mem r v
  writeReg s d x hd := s.writeReg_comm v x fun e => hdest (e ▸ hd)
  raiseIf s c e := s.raiseIf_writeReg r v c e
  jumpTo s p := s.jumpTo_writeReg r v p
  withMem s m := by unfold State.writeReg; split <;> rfl

/-- Settles O44: `exec_of_unseenBy` for a register write; the instructions it leaves out read `HI` and `LO` or write
them, which a register write commutes with. -/
theorem unreadRegistersMakeNoDifference : Obligations.UnreadRegistersMakeNoDifference := by
  intro i s r v hread hdest
  have hf := unseenBy_writeReg hread hdest v
  cases i with
  | mfhi rd | mflo rd =>
    have hne : r ≠ rd := fun e => hdest (congrArg some e.symm)
    simp only [exec, execMfhi, execMflo, mapNext, State.writeReg_hi, State.writeReg_lo, State.writeReg_comm s _ _ hne]
  | mthi rs | mtlo rs =>
    have hrs : (s.writeReg r v).readReg rs = s.readReg rs := hf.readReg s rs (List.mem_cons_self ..)
    simp only [exec, execMthi, execMtlo, mapNext, hrs, State.writeReg_hi, State.writeReg_lo, State.writeHiLo_writeReg]
  | mult rs rt | multu rs rt | divu rs rt | div rs rt =>
    have hrs : (s.writeReg r v).readReg rs = s.readReg rs :=
      hf.readReg s rs (by simp only [readRegs, List.mem_cons, true_or])
    have hrt : (s.writeReg r v).readReg rt = s.readReg rt :=
      hf.readReg s rt (by simp only [readRegs, List.mem_cons, true_or, or_true])
    simp only [exec, execMult, execMultu, execDivu, execDiv, mapNext, hrs, hrt, State.writeReg_cfg, State.writeReg_pc,
      State.writeHiLo_writeReg]
    -- what is left is `div`'s test for the overflowing pair
    all_goals split <;> rfl
  | _ => exact exec_of_unseenBy hf nofun nofun nofun s

/-! ### `HI` and `LO` beside an instruction that does not read them (R36) -/

theorem unseenBy_writeHiLo (p : Word × Word) (i : Instr) : UnseenBy (fun s => s.writeHiLo p) i where
  readReg s q _ := s.writeHiLo_readReg p q
  pc _ := rfl
  cfg _ := rfl
  mem _ := rfl
  writeReg s d v _ := (s.writeHiLo_writeReg d v p).symm
  raiseIf s c e := by cases c <;> rfl
  jumpTo _ _ := rfl
  withMem _ _ := rfl

/-- Settles O45: outside the shape `hilo`, `exec_of_unseenBy` for a write of `HI` and `LO`; inside it, the
instruction's own write of the pair (or of one half) is over the other. -/
theorem hiLoReadOnlyByMoves : Obligations.HiLoReadOnlyByMoves := by
  intro i s h l hmfhi hmflo
  refine ⟨fun hs => exec_of_unseenBy (unseenBy_writeHiLo (h, l) i) hs hmfhi hmflo s, ?mthi, ?mtlo, ?pair⟩
  case mthi =>
    rintro rs rfl
    rfl
  case mtlo =>
    rintro rs rfl
    rfl
  case pair =>
    intro hs hmthi hmtlo
    cases i with
    | mthi rs => exact absurd rfl (hmthi rs)
    | mtlo rs => exact absurd rfl (hmtlo rs)
    | mult | multu | divu | div => rfl
    | _ => cases hs

end Sys2Proof.Machine
end

section
/-! PROOFS. The statements about one step (spec 60_exceptions.md R180 to R187, 10_state.md R34, 20_memory.md R52). -/

namespace Sys2Proof.Machine

/-! ### The step, as its fetch, decode and execution answer (R180, R187) -/

theorem step_of_halted {s : State} (h : s.halted = true) : step s = .next s := if_pos h

theorem step_of_basesNotDistinct {s : State} (hrun : s.halted = false) (hb : s.mem.basesDistinct = false) :
    step s = .refused .basesNotDistinct := by
  simp [step, hrun, hb]

theorem step_of_decode_error {s : State} {w : Word} {e : DecodeError} (hrun : s.halted = false)
    (hb : s.mem.basesDistinct = true) (hf : s.fetch = .ok w) (hd : decode w = .error e) :
    step s = .fault (.unknownInstruction w) := by
  have hfd : s.beginStep.fetchDecode = .error (.unknownInstruction w) := by
    have hf' : s.beginStep.fetch = .ok w := hf
    simp only [State.fetchDecode, hf', hd]
  simp [step, hrun, hb, hfd]

theorem step_of_exec_next {s u : State} {i : Instr} (hs : AboutToRun s i) (h : exec i s.beginStep = .next u) :
    step s = .next u.postDispatch := by
  rw [step_of_aboutToRun hs, h, finishStep]

theorem step_of_exec_fault {s : State} {i : Instr} {f : Fault} (hs : AboutToRun s i)
    (h : exec i s.beginStep = .fault f) : step s = .fault f := by
  rw [step_of_aboutToRun hs, h, finishStep]

/-- The only way a state about to execute an instruction can step on. -/
theorem exec_next_of_step_next {s t : State} {i : Instr} (hs : AboutToRun s i) (h : step s = .next t) :
    ∃ u, exec i s.beginStep = .next u ∧ t = u.postDispatch := by
  rw [step_of_aboutToRun hs] at h
  cases hx : exec i s.beginStep with
  | next u =>
    rw [hx] at h
    exact ⟨u, rfl, (Host.Outcome.next.inj h).symm⟩
  | fault f => rw [hx] at h; cases h
  | refused r => rw [hx] at h; cases h

/-- The only refusal a step can answer. -/
theorem step_refused_cases {s : State} {r : Refusal} (h : step s = .refused r) :
    s.halted = false ∧ s.mem.basesDistinct = false := by
  unfold step at h
  split at h
  · cases h
  · next hrun =>
    split at h
    · split at h
      · cases h
      · next i _ =>
        cases hx : exec i s.beginStep with
        | next u => rw [hx] at h; cases h
        | fault f => rw [hx] at h; cases h
        | refused r' => exact absurd hx (exec_ne_refused i _ r')
    · next hb => exact ⟨by simpa using hrun, by simpa using hb⟩

/-- Settles O15: `step_of_exec_next` and `step_of_exec_fault`, whose begin of the step and post-dispatch update are
the two record updates the statement writes out. -/
theorem stepRunsTheDecodedInstruction : Obligations.StepRunsTheDecodedInstruction :=
  fun _ _ hs => ⟨fun _ ht => step_of_exec_next hs ht, fun _ hf => step_of_exec_fault hs hf⟩

/-- Settles O16: the fetch's own check of `pc`, then its read, then the decode; each failure is the step's. -/
theorem fetchChecksComeInOrder : Obligations.FetchChecksComeInOrder := by
  intro s hrun hb
  refine ⟨fun hmis => step_of_fetch_error hrun hb (if_neg hmis),
    fun hal => ⟨fun f hf => ?fetch, fun w e hw he => ?decode⟩⟩
  case fetch => exact step_of_fetch_error hrun hb ((State.fetch_of_aligned hal).trans hf)
  case decode => exact step_of_decode_error hrun hb ((State.fetch_of_aligned hal).trans hw) he

/-- Settles O17: a halted core's step answers the same state, so by induction the host's run does; the model's run
ends at once. -/
theorem haltedCoreNeverChanges : Obligations.HaltedCoreNeverChanges := by
  intro k s h
  refine ⟨step_of_halted h, ?hostRun, run_of_halted k h⟩
  case hostRun =>
    induction k with
    | zero => rfl
    | succ k ih => rw [core_run_succ k (step_of_halted h), ih]

/-- Settles O18: power-on tests its configuration, a running core's step its bases, and no instruction is refused. -/
theorem indistinctBasesAreRefused : Obligations.IndistinctBasesAreRefused := by
  refine ⟨fun c hc => ?illFormed, fun c hc => if_pos hc, fun s => step_of_basesNotDistinct,
    fun s r => step_refused_cases⟩
  case illFormed => exact if_neg (by simp [hc])

/-! ### `pc` after a step (R34, R150 to R155) -/

theorem exec_pc_of_ne_control {i : Instr} {s t : State} (hs : shapeOf i ≠ .control) (h : exec i s = .next t) :
    t.pc = s.pc ∧ t.jump = s.jump := by
  cases hshape : shapeOf i with
  | register =>
    obtain ⟨r, v, -, rfl⟩ := exec_register_next hshape h
    exact ⟨s.writeReg_pc r v, s.writeReg_jump r v⟩
  | overflow =>
    obtain ⟨r, v, c, -, rfl⟩ := exec_overflow_next hshape h
    simp
  | hilo =>
    obtain ⟨p, rfl⟩ := exec_hilo_next hshape h
    exact ⟨rfl, rfl⟩
  | halt =>
    obtain ⟨c, e, rfl⟩ := exec_halt_next hshape h
    exact ⟨s.raiseIf_pc c e, s.raiseIf_jump c e⟩
  | control => exact absurd hshape hs
  | store =>
    obtain ⟨m, a, v, -, rfl⟩ := exec_store_next hshape h
    exact ⟨rfl, rfl⟩

theorem pcAfter_of_ne_control {i : Instr} (s : State) (hs : shapeOf i ≠ .control) : pcAfter s i = s.pc + 4#32 := by
  cases i with
  | jr | jalr | j | beq | bne | beql => exact absurd rfl hs
  | _ => rfl

/-- Where the post-dispatch update of an executed instruction leaves `pc`. -/
theorem exec_postDispatch_pc {i : Instr} {s t : State} (hj : s.jump = false) (h : exec i s = .next t) :
    t.postDispatch.pc = pcAfter s i := by
  by_cases hs : shapeOf i = .control
  case neg =>
    obtain ⟨hpc, hjump⟩ := exec_pc_of_ne_control hs h
    rw [pcAfter_of_ne_control s hs, State.postDispatch_pc, hpc, hjump, hj]
    rfl
  case pos =>
    cases i with
    | jr rs | jalr rd rs =>
      cases h
      rfl
    | j target =>
      cases h
      exact jumpTarget_eq s.pc target
    | beq rs rt imm | beql rs rt imm | bne rs rt imm =>
      cases h
      simp only [pcAfter, ← branchTarget_eq]
      split
      · simp [nextPc, hj]
      · simp [nextPc, hj]
    | _ => cases hs

theorem pcAfter_beginStep (s : State) (i : Instr) : pcAfter s.beginStep i = pcAfter s i := by
  cases i <;> rfl

theorem step_pc {s t : State} {i : Instr} (hs : AboutToRun s i) (h : step s = .next t) : t.pc = pcAfter s i := by
  obtain ⟨u, hu, rfl⟩ := exec_next_of_step_next hs h
  rw [exec_postDispatch_pc s.beginStep_jump hu, pcAfter_beginStep]

/-- Settles O19: `step_pc`; the post-dispatch update clears the flag. -/
theorem pcAfterStepIsTargetOrNext : Obligations.PcAfterStepIsTargetOrNext := by
  intro s t i hs h
  refine ⟨step_pc hs h, ?flag⟩
  case flag =>
    obtain ⟨u, -, rfl⟩ := exec_next_of_step_next hs h
    exact u.postDispatch_jump

/-! ### Halting (R37, R38, R182, R183) -/

/-- The overflow test of the model, in the words of `haltCause`. -/
theorem ite_fitsInt32 (n : Int) (e : Exception) :
    (if FitsInt32 n then none else some e) = if outsideInt32 n then some e else none := by
  by_cases hn : FitsInt32 n
  · rw [if_pos hn, if_neg (by simp [(outsideInt32_eq_false_iff n).mpr hn])]
  · rw [if_neg hn, if_pos ((outsideInt32_eq_true_iff n).mpr hn)]

/-- A raise under a condition is one cause, or none. -/
theorem State.raiseIf_status (s : State) {c : Bool} {e : Exception} {o : Option Exception}
    (ho : o = if c then some e else none) :
    (s.raiseIf c e).halted = (o.isSome || s.halted) ∧ (s.raiseIf c e).exception = o.getD s.exception := by
  subst ho
  cases c <;> exact ⟨rfl, rfl⟩

theorem State.writeReg_raiseIf_status (s : State) (r : Reg) (v : Word) {c : Bool} {e : Exception} {o : Option Exception}
    (ho : o = if c then some e else none) :
    ((s.writeReg r v).raiseIf c e).halted = (o.isSome || s.halted) ∧
      ((s.writeReg r v).raiseIf c e).exception = o.getD s.exception := by
  rw [State.raiseIf_writeReg, State.writeReg_halted, State.writeReg_exception]
  exact s.raiseIf_status ho

theorem haltCause_of_shape {i : Instr} (s : State) (ho : shapeOf i ≠ .overflow) (hh : shapeOf i ≠ .halt) :
    haltCause s i = none := by
  cases i with
  | add | sub | addi => exact absurd rfl ho
  | syscall | brk | tge | tgeu | tlt | tltu | teq | tne => exact absurd rfl hh
  | _ => rfl

theorem exec_status_of_shape {i : Instr} {s t : State} (h : exec i s = .next t) (ho : shapeOf i ≠ .overflow)
    (hh : shapeOf i ≠ .halt) : t.halted = s.halted ∧ t.exception = s.exception := by
  cases hshape : shapeOf i with
  | register =>
    obtain ⟨r, v, -, rfl⟩ := exec_register_next hshape h
    exact ⟨s.writeReg_halted r v, s.writeReg_exception r v⟩
  | overflow => exact absurd hshape ho
  | hilo =>
    obtain ⟨p, rfl⟩ := exec_hilo_next hshape h
    exact ⟨rfl, rfl⟩
  | halt => exact absurd hshape hh
  | control =>
    obtain rfl | ⟨p, rfl⟩ | ⟨r, v, p, -, rfl⟩ := exec_control_next hshape h
    · exact ⟨rfl, rfl⟩
    · exact ⟨rfl, rfl⟩
    · exact ⟨s.writeReg_halted r v, s.writeReg_exception r v⟩
  | store =>
    obtain ⟨m, a, v, -, rfl⟩ := exec_store_next hshape h
    exact ⟨rfl, rfl⟩

/-- What an instruction does to `halted` and `exception` is its cause in `haltCause`: the overflow tests and the
traps' comparisons of the model are the conditions written there. -/
theorem exec_status {i : Instr} {s t : State} (h : exec i s = .next t) :
    t.halted = ((haltCause s i).isSome || s.halted) ∧ t.exception = (haltCause s i).getD s.exception := by
  cases i with
  | add rd rs rt =>
    cases h
    exact s.writeReg_raiseIf_status rd _ (ite_fitsInt32 ..)
  | sub rd rs rt =>
    cases h
    exact s.writeReg_raiseIf_status rd _ (ite_fitsInt32 ..)
  | addi rt rs imm =>
    cases h
    refine s.writeReg_raiseIf_status rt _ ?_
    rw [addOverflows, signExtend16_toInt]
    exact ite_fitsInt32 ..
  | syscall =>
    simp only [exec, execSyscall] at h
    split at h
    · next hv0 =>
      cases h
      simp [haltCause, hv0]
    · cases h
  | brk =>
    cases h
    exact ⟨rfl, rfl⟩
  | tge rs rt | tgeu rs rt | tlt rs rt | tltu rs rt | teq rs rt =>
    cases h
    refine s.raiseIf_status ?_
    simp only [haltCause, geSigned, geUnsigned, lessSigned, lessUnsigned, decide_eq_true_eq, beq_iff_eq]
  | tne rs rt =>
    cases h
    refine s.raiseIf_status ?_
    simp only [haltCause, bne_iff_ne, ne_eq, ite_not]
  | _ => exact exec_status_of_shape h nofun nofun

theorem haltCause_beginStep (s : State) (i : Instr) : haltCause s.beginStep i = haltCause s i := by
  cases i <;> rfl

/-- No jump or branch halts. -/
theorem pcAfter_of_haltCause {s : State} {i : Instr} {e : Exception} (h : haltCause s i = some e) :
    pcAfter s i = s.pc + 4#32 := by
  refine pcAfter_of_ne_control s fun hs => ?_
  rw [haltCause_of_shape s (by rw [hs]; decide) (by rw [hs]; decide)] at h
  cases h

/-- Settles O46: `exec_status` at the start of the step, whose core runs, and `step_pc` where there is a cause. -/
theorem stepHaltsExactlyOnListedCauses : Obligations.StepHaltsExactlyOnListedCauses := by
  intro s t i hs h
  have hpc := step_pc hs h
  obtain ⟨u, hu, rfl⟩ := exec_next_of_step_next hs h
  obtain ⟨hhalted, hexc⟩ := exec_status hu
  rw [haltCause_beginStep, State.beginStep_halted, hs.running] at hhalted
  rw [haltCause_beginStep, State.beginStep_exception] at hexc
  refine ⟨fun e he => ⟨?halts, ?records, ?advances⟩, fun hnone => ⟨?runs, ?keeps⟩⟩
  case halts => rw [State.postDispatch_halted, hhalted, he]; rfl
  case records => rw [State.postDispatch_exception, hexc, he]; rfl
  case advances => rw [hpc, pcAfter_of_haltCause he]
  case runs => rw [State.postDispatch_halted, hhalted, hnone]; rfl
  case keeps => rw [State.postDispatch_exception, hexc, hnone]; rfl

/-! ### Invariants (10_state.md, 20_memory.md R52, R58) -/

/-- What every instruction keeps: the parameters and the bases; no buffer shrinks; the memory's canonical form and the
stored slot of register 0 stay. -/
theorem exec_keeps {i : Instr} {s t : State} (h : exec i s = .next t) :
    t.cfg = s.cfg ∧ (∀ seg, t.mem.base seg = s.mem.base seg) ∧
      (∀ seg, (s.mem.buffer seg).len ≤ (t.mem.buffer seg).len) ∧ (s.mem.wf = true → t.mem.wf = true) ∧
      t.regs[0] = s.regs[0] := by
  obtain ⟨r, v, rfl⟩ | ⟨p, rfl⟩ | ⟨r, v, rfl⟩ | ⟨e, rfl⟩ | ⟨r, v, a, rfl⟩ | ⟨a, v, hw⟩ := exec_next_cases h
  case inr.inr.inr.inr.inr =>
    obtain ⟨m, hm, rfl⟩ := State.writeMem_ok hw
    obtain ⟨seg, -, hst⟩ := Memory.write_ok hm
    refine ⟨rfl, hst.base, fun seg' => ?grows, hst.wf, rfl⟩
    case grows =>
      by_cases hseg : seg' = seg
      · exact hseg ▸ hst.grows
      · exact Nat.le_of_eq (congrArg Buffer.len (hst.other seg' hseg)).symm
  all_goals simp

/-- An exception is recorded only by an instruction that halts the core. -/
theorem exec_exception {i : Instr} {s t : State} (h : exec i s = .next t) (hs : s.halted = false → s.exception = .none)
    (ht : t.halted = false) : t.exception = .none := by
  obtain ⟨hhalted, hexc⟩ := exec_status h
  rw [ht] at hhalted
  obtain ⟨hcause, hrun⟩ := Bool.or_eq_false_iff.mp hhalted.symm
  have hnone : haltCause s i = none := by simpa using hcause
  rw [hexc, hnone, Option.getD_none, hs hrun]

/-- Settles O47: the five fields are kept by the instruction (`exec_keeps`, `exec_exception`), and the post-dispatch
update touches `pc` and the flag only. -/
theorem everyStepKeepsTheInvariant : Obligations.EveryStepKeepsTheInvariant := by
  intro s t hs h
  obtain ⟨-, rfl⟩ | ⟨hrun, hb, i, u, -, hu, rfl⟩ := step_next_cases h
  case inl => exact hs
  case inr =>
    obtain ⟨-, hbase, -, hwf, hzero⟩ := exec_keeps hu
    exact {
      memWf := hwf hs.memWf
      basesDistinct := (Memory.basesDistinct_congr hbase).trans hb
      jumpDown := rfl
      exceptionOnlyHalted := fun ht => exec_exception (s := s.beginStep) (t := u) hu hs.exceptionOnlyHalted ht
      zeroSlot := hzero.trans hs.zeroSlot }

/-- Settles O49: `exec_keeps` for a running core; a halted core's step changes nothing. -/
theorem stepsKeepBasesAndNeverShrinkBuffers : Obligations.StepsKeepBasesAndNeverShrinkBuffers := by
  intro s t h
  obtain ⟨-, rfl⟩ | ⟨hrun, -, i, u, -, hu, rfl⟩ := step_next_cases h
  case inl => exact ⟨rfl, fun _ => rfl, fun _ => Nat.le_refl _, id⟩
  case inr =>
    obtain ⟨hcfg, hbase, hlen, -, -⟩ := exec_keeps hu
    exact ⟨hcfg, hbase, hlen, fun hh => absurd hh (by simp [hrun])⟩

end Sys2Proof.Machine
end

section
/-! PROOFS. The statements about segments and memory (spec 20_memory.md R52 to R60, R73), and those of the load and
the store over them (47_load_store.md). -/

namespace Sys2Proof.Machine

/-! ### Resolution (R53) -/

theorem forall_segment {p : Segment → Prop} : (∀ seg, p seg) ↔ p .text ∧ p .data ∧ p .heap ∧ p .stack := by
  refine ⟨fun h => ⟨h _, h _, h _, h _⟩, fun ⟨ht, hd, hh, hs⟩ seg => ?_⟩
  cases seg
  · exact ht
  · exact hd
  · exact hh
  · exact hs

/-- Over distinct bases, the greatest base not above an address is that of one segment. -/
theorem Memory.resolve_ok_iff {m : Memory} (hb : m.basesDistinct = true) (a : Word) (seg : Segment) :
    m.resolve a = .ok seg ↔
      (m.base seg).toNat ≤ a.toNat ∧
        ∀ seg', (m.base seg').toNat ≤ a.toNat → (m.base seg').toNat ≤ (m.base seg).toNat := by
  refine ⟨Memory.resolve_ok, fun ⟨hle, hmax⟩ => ?_⟩
  cases hr : m.resolve a with
  | error f =>
    obtain ⟨-, hbelow⟩ := (m.resolve_error_iff a f).mp hr
    exact absurd (hbelow seg) (by omega)
  | ok seg' =>
    obtain ⟨hle', hmax'⟩ := Memory.resolve_ok hr
    exact congrArg Except.ok (Memory.base_inj hb (Nat.le_antisymm (hmax seg' hle') (hmax' seg hle)))

/-- The intervals of the default bases (R53; D12 to D14). -/
theorem reset_resolve_iff (a : Word) :
    (State.reset.mem.resolve a = .ok .text ↔ 0x00400000 ≤ a.toNat ∧ a.toNat < 0x10000000) ∧
    (State.reset.mem.resolve a = .ok .data ↔ 0x10000000 ≤ a.toNat ∧ a.toNat < 0x10040000) ∧
    (State.reset.mem.resolve a = .ok .heap ↔ 0x10040000 ≤ a.toNat ∧ a.toNat < 0x40000000) ∧
    (State.reset.mem.resolve a = .ok .stack ↔ 0x40000000 ≤ a.toNat) := by
  have hb : State.reset.mem.basesDistinct = true := by decide
  have htext : (State.reset.mem.base .text).toNat = 0x00400000 := rfl
  have hdata : (State.reset.mem.base .data).toNat = 0x10000000 := rfl
  have hheap : (State.reset.mem.base .heap).toNat = 0x10040000 := rfl
  have hstack : (State.reset.mem.base .stack).toNat = 0x40000000 := rfl
  simp only [Memory.resolve_ok_iff hb, forall_segment, htext, hdata, hheap, hstack]
  refine ⟨?_, ?_, ?_, ?_⟩ <;> omega

/-- Settles O2: `Memory.resolve_ok_iff`, `Memory.resolve_error_iff`, and the first at the four default bases. -/
theorem resolveByGreatestBaseNotAbove : Obligations.ResolveByGreatestBaseNotAbove :=
  ⟨fun _ a seg hb => Memory.resolve_ok_iff hb a seg, fun m a => (m.resolve_error_iff a _).trans (and_iff_right rfl),
    reset_resolve_iff⟩

/-! ### Bytes of a buffer (R58) -/

/-- Settles O5: each clause is one range of the index in `Buffer.get_set`. -/
theorem byteWriteGrowsWithZeroFill : Obligations.ByteWriteGrowsWithZeroFill := by
  intro b i v hb
  refine ⟨b.set_len i v, b.get_set_self hb i v, fun j hne hlt => ?kept, fun j hge hlt => ?fill, Buffer.wf_set hb i v⟩
  case kept => rw [Buffer.get_set hb, if_neg hne, if_pos hlt]
  case fill => rw [Buffer.get_set hb, if_neg (by omega), if_neg (by omega), if_pos hlt]

/-! ### What a write stores, and reading it back (R59, R60, R73) -/

theorem Memory.write_storedAt {m m' : Memory} {top : Word} {w : Width} {a v : Word} {seg : Segment}
    (hs : m.resolve a = .ok seg) (h : m.write top w a v = .ok m') :
    StoredAt m m' top seg a 0 (splitBytes w.bytes v) := by
  obtain ⟨seg', hs', hst⟩ := Memory.write_ok h
  rw [hs] at hs'
  cases hs'
  exact hst

/-- The bytes of a value put together give its low `8n` bits back. -/
theorem assembleBytes_splitBytes (w : Width) (v : Word) :
    assembleBytes (splitBytes w.bytes v) = (v.setWidth (8 * w.bytes)).setWidth 32 := by
  cases w with
  | byte =>
    apply BitVec.eq_of_getLsbD_eq
    intro i hi
    simp [splitBytes, assembleBytes, Width.bytes]
  | half =>
    apply BitVec.eq_of_getLsbD_eq
    intro i hi
    simp only [splitBytes, assembleBytes, Width.bytes, List.foldl, BitVec.getLsbD_or, BitVec.getLsbD_shiftLeft,
      BitVec.getLsbD_setWidth, BitVec.getLsbD_extractLsb', BitVec.getLsbD_zero]
    by_cases hlow : i < 8
    · simp [hlow, hi, show i < 8 * 2 by omega]
    · by_cases hhigh : i < 16
      · simp [hlow, hi, hhigh, show i - 8 < 8 by omega, show i - 8 < 32 by omega, show 8 + (i - 8) = i by omega]
      · simp [hlow, hhigh, show ¬ i - 8 < 8 by omega]
  | word => rw [Width.bytes, assembleBytes_splitBytes_word, BitVec.setWidth_eq, BitVec.setWidth_eq]

theorem Memory.read_of_storedAt {m m' : Memory} {top : Word} {seg : Segment} {a v : Word} {w : Width}
    (hs : m.resolve a = .ok seg) (hwf : m.wf = true) (hst : StoredAt m m' top seg a 0 (splitBytes w.bytes v)) :
    m'.read top w a = .ok (assembleBytes (splitBytes w.bytes v)) := by
  have hbytes : m'.readBytes top seg a 0 (splitBytes w.bytes v).length = .ok (splitBytes w.bytes v) := by
    refine Memory.readBytes_of_forall fun j hj => ?_
    obtain ⟨i, hi, hget⟩ := hst.stored hwf (fun _ => (Memory.resolve_ok hs).1) j hj
    exact (m'.readByte_ok_iff ..).mpr ⟨i, (Memory.index_congr hst.base ..).trans hi, hget⟩
  rw [splitBytes_length] at hbytes
  simp only [Memory.read, Memory.resolve_congr hst.base, hs, hbytes]

/-- Settles O6: the read finds the bytes stored, and they put together are the value's low bits. -/
theorem writeThenReadRoundTrip : Obligations.WriteThenReadRoundTrip := by
  intro m m' top w a v hwf h
  obtain ⟨seg, hs, hst⟩ := Memory.write_ok h
  rw [Memory.read_of_storedAt hs hwf hst, assembleBytes_splitBytes]

/-- Settles O7: `Memory.write_of_resolve`, `Memory.write_above`, and a failed resolution for an address below every
base. -/
theorem writeCompletesExactlyWhereStorable : Obligations.WriteCompletesExactlyWhereStorable :=
  fun _ top w _ v => ⟨fun _ hs hst => Memory.write_of_resolve hs hst, fun hs h => Memory.write_above hs h,
    fun hbelow => Memory.write_of_resolve_error (Memory.resolve_below hbelow) top w v⟩

/-- What a completed write leaves of a canonical memory: `StoredAt` of the value's bytes, and the new length. -/
theorem Memory.write_effect {m m' : Memory} {top : Word} {w : Width} {a v : Word} {seg : Segment} (hwf : m.wf = true)
    (hs : m.resolve a = .ok seg) (h : m.write top w a v = .ok m') :
    (∀ seg', m'.base seg' = m.base seg') ∧
    (∀ seg', seg' ≠ seg → m'.buffer seg' = m.buffer seg') ∧
    (seg ≠ .stack → (m'.buffer seg).len = max (m.buffer seg).len (a.toNat + w.bytes - (m.base seg).toNat)) ∧
    (seg = .stack → (m'.buffer seg).len = max (m.buffer seg).len (top.toNat - a.toNat + 1)) ∧
    (∀ k, k < w.bytes → ∃ i, m.index top seg (a.toNat + k) = .ok i ∧
      (m'.buffer seg).get i = some (v.extractLsb' (8 * (w.bytes - 1 - k)) 8)) ∧
    (∀ i, (∀ k, k < w.bytes → m.index top seg (a.toNat + k) ≠ .ok i) →
      (m'.buffer seg).get i = (m.buffer seg).get i ∨
        ((m.buffer seg).get i = none ∧ (m'.buffer seg).get i = some 0#8)) := by
  have hst := Memory.write_storedAt hs h
  have hlen := Memory.write_len hs h
  refine ⟨hst.base, hst.other, fun hne => by rw [hlen, if_neg hne], fun he => by rw [hlen, if_pos he],
    fun k hk => ?stored, fun i hi => ?kept⟩
  case stored =>
    have hk' : k < (splitBytes w.bytes v).length := by rwa [splitBytes_length]
    obtain ⟨i, hi, hget⟩ := hst.stored hwf (fun _ => (Memory.resolve_ok hs).1) k hk'
    rw [Nat.zero_add] at hi
    exact ⟨i, hi, by rw [hget, splitBytes_getElem]⟩
  case kept =>
    refine hst.kept hwf i fun j hj => ?_
    rw [splitBytes_length] at hj
    rw [Nat.zero_add]
    exact hi j hj

/-- Settles O8: the three cases of the byte index, and `Memory.write_effect`. -/
theorem writeTouchesOnlyItsBytes : Obligations.WriteTouchesOnlyItsBytes := by
  refine ⟨fun m top seg b => ⟨fun hne _ => m.index_of_ne_stack top hne b, fun hle => if_pos hle,
    fun hlt => if_neg (by omega)⟩, fun m m' top w a v seg hwf hs h => Memory.write_effect hwf hs h⟩

/-- Settles O9: the raw load stores bytes through the accessor, the ELF load copies segments; both keep the form. -/
theorem hostLoadsKeepCanonicalMemory : Obligations.HostLoadsKeepCanonicalMemory := by
  intro s t bytes hwf
  refine ⟨fun h => ?raw, fun h => ?elf⟩
  case raw =>
    unfold State.rawLoad at h
    split at h
    · next u hu =>
      cases h
      exact storeBytes_wf hwf hu
    · cases h
  case elf =>
    obtain ⟨image, m, -, -, hm, rfl⟩ := State.elfLoad_next h
    exact (copySegments_frame hm).1 ((s.mem.withDataAddress_wf _).trans hwf)

/-! ### The load (R170) -/

theorem Memory.read_word {m : Memory} {top a : Word} {seg : Segment} {b0 b1 b2 b3 : Byte} (hs : m.resolve a = .ok seg)
    (h0 : m.readByte top seg a 0 = .ok b0) (h1 : m.readByte top seg a 1 = .ok b1)
    (h2 : m.readByte top seg a 2 = .ok b2) (h3 : m.readByte top seg a 3 = .ok b3) :
    m.read top .word a = .ok (b0 ++ b1 ++ b2 ++ b3) := by
  have hbytes : m.readBytes top seg a 0 4 = .ok [b0, b1, b2, b3] := by simp [Memory.readBytes, h0, h1, h2, h3]
  simp only [Memory.read, hs, Width.bytes, hbytes, assembleBytes_four]

/-- Settles O35: each of the four bytes is read at its index, and `lw` writes what they make together. -/
theorem loadWordReadsFourBytes : Obligations.LoadWordReadsFourBytes := by
  intro s rt rs imm a
  refine ⟨effectiveAddress_eq _ _, ?_⟩
  intro seg i0 i1 i2 i3 b0 b1 b2 b3 at? hs h0 h1 h2 h3 hb0 hb1 hb2 hb3
  have hbyte {k i b} (hi : at? k = .ok i) (hb : (s.mem.buffer seg).get i = some b) :
      s.mem.readByte s.cfg.stackTopByte seg a k = .ok b := (Memory.readByte_ok_iff ..).mpr ⟨i, hi, hb⟩
  exact exec_lw_of_readMem_ok (Memory.read_word hs (hbyte h0 hb0) (hbyte h1 hb1) (hbyte h2 hb2) (hbyte h3 hb3)) rt

/-- The only way a byte of an access has no index (R55). -/
theorem Memory.index_error_iff (m : Memory) (top : Word) (seg : Segment) (n : Nat) (f : Fault) :
    m.index top seg n = .error f ↔ seg = .stack ∧ top.toNat < n ∧ f = .stackAboveTop n := by
  by_cases hseg : seg = .stack
  · subst hseg
    by_cases hn : n ≤ top.toNat
    · simp [Memory.index, hn]
    · simp [Memory.index, hn, Nat.lt_of_not_le hn, eq_comm]
  · simp [m.index_of_ne_stack top hseg n, hseg]

theorem Memory.readByte_of_index_error {m : Memory} {top : Word} {seg : Segment} {a : Word} {k : Nat} {f : Fault}
    (h : m.index top seg (a.toNat + k) = .error f) : m.readByte top seg a k = .error f := by
  simp only [Memory.readByte, h]

/-- A `lw` fails as its first failing byte does. -/
theorem exec_lw_of_readByte_error {s : State} {rs : Reg} {imm : Half} {seg : Segment} {k : Nat} {f : Fault}
    (hs : s.mem.resolve (effectiveAddress (s.readReg rs) imm) = .ok seg) (hk : k < 4)
    (hbefore : ∀ j, j < k →
      ∃ v, s.mem.readByte s.cfg.stackTopByte seg (effectiveAddress (s.readReg rs) imm) j = .ok v)
    (hf : s.mem.readByte s.cfg.stackTopByte seg (effectiveAddress (s.readReg rs) imm) k = .error f) (rt : Reg) :
    exec (.lw rt imm rs) s = .fault f := by
  refine exec_lw_of_readMem_error ?_ rt
  have hbytes := Memory.readBytes_fault (n := 0) (by simpa using hbefore) (by simpa using hf) 4 hk
  simp only [State.readMem, Memory.read, hs, Width.bytes, hbytes]

/-- Settles O36: every byte before byte `k` exists, so byte `k`'s failure, of either kind, is the instruction's. -/
theorem loadWordIsFatalAtFirstMissingByte : Obligations.LoadWordIsFatalAtFirstMissingByte := by
  intro s rt rs imm seg k a at? hs hk hbefore
  have hpresent : ∀ j, j < k → ∃ v, s.mem.readByte s.cfg.stackTopByte seg a j = .ok v := fun j hj => by
    obtain ⟨i, hi, hlt⟩ := hbefore j hj
    exact ⟨_, (Memory.readByte_ok_iff ..).mpr ⟨i, hi, Buffer.get_of_lt hlt⟩⟩
  refine ⟨fun i hi hlen => ?past, fun f hf => ⟨?kind, ?above⟩⟩
  case past => exact exec_lw_of_readByte_error hs hk hpresent (Memory.readByte_of_len_le hi hlen) rt
  case kind => exact ((Memory.index_error_iff ..).mp hf).2.2
  case above => exact exec_lw_of_readByte_error hs hk hpresent (Memory.readByte_of_index_error hf) rt

/-! ### The store, and what is read after it (R171, R71) -/

/-- Settles O37: `Memory.write_effect` at the effective address where the write completes, `Memory.write_above` where
a byte lies above the stack top. -/
theorem storeWordPlacesFourBytesAndNoOther : Obligations.StoreWordPlacesFourBytesAndNoOther := by
  intro s rt rs imm a top
  refine ⟨effectiveAddress_eq _ _, fun hs habove => ?above, fun seg hwf hs hst => ?stored⟩
  case above =>
    have hlast : top.toNat + 1 < a.toNat + Width.word.bytes := Nat.succ_lt_succ habove
    exact exec_sw_of_write_error (Memory.write_above hs hlast)
  case stored =>
    have hlast : seg = .stack → a.toNat + Width.word.bytes ≤ top.toNat + 1 := fun he => Nat.succ_le_succ (hst he)
    obtain ⟨m, hm⟩ := Memory.write_of_resolve (v := s.readReg rt) hs hlast
    exact ⟨m, exec_sw_of_write_ok hm, Memory.write_effect hwf hs hm⟩

theorem readMem_of_exec_sw {s t : State} {rt rs : Reg} {imm : Half} (hwf : s.mem.wf = true)
    (h : exec (.sw rt imm rs) s = .next t) :
    t.readMem .word (effectiveAddress (s.readReg rs) imm) = .ok (s.readReg rt) := by
  obtain ⟨m, hm, rfl⟩ := exec_sw_next h
  obtain ⟨seg, hs, hst⟩ := Memory.write_ok hm
  exact (Memory.read_of_storedAt hs hwf hst).trans (congrArg Except.ok (assembleBytes_splitBytes_word _))

/-- Settles O38: the load reads at the store's address, where `readMem_of_exec_sw` says the stored word stands. -/
theorem loadAfterStoreGivesStoredWord : Obligations.LoadAfterStoreGivesStoredWord := by
  intro s t rt rs rt' rs' imm imm' hwf h ha
  exact exec_lw_of_readMem_ok (by rw [ha]; exact readMem_of_exec_sw hwf h) rt'

/-- Settles O50: a fetch reads through the same accessor as the load. -/
theorem fetchSeesTheStoredWord : Obligations.FetchSeesTheStoredWord := by
  intro s t rt rs imm hwf h haligned
  have hread := readMem_of_exec_sw hwf h
  rw [State.fetch_of_aligned haligned]
  exact hread

end Sys2Proof.Machine
end

section
/-! PROOFS. The results of the instructions (spec 40_shift_move.md to 46_alu_immediate.md): one equation for each
instruction whose result is restated, then the value functions' laws. -/

namespace Sys2Proof.Machine

/-! ### Shifts and rotates (R100 to R105) -/

theorem exec_srl (rd rt : Reg) (shamt : Shamt) (rs : Reg) (s : State) :
    exec (.srl rd rt shamt rs) s = .next (s.writeReg rd
      (if rs = 0#5 then s.readReg rt >>> shamt.toNat else (s.readReg rt).rotateRight shamt.toNat)) := by
  rw [← rotateRight_eq _ shamt.isLt]
  rfl

theorem exec_sllv (rd rt rs : Reg) (s : State) :
    exec (.sllv rd rt rs) s = .next (s.writeReg rd (s.readReg rt <<< ((s.readReg rs).toNat % 32))) := by
  rw [← shiftAmount_eq]
  rfl

theorem exec_srlv (rd rt rs : Reg) (shamt : Shamt) (s : State) :
    exec (.srlv rd rt rs shamt) s = .next (s.writeReg rd
      (if shamt = 1#5 then (s.readReg rt).rotateRight ((s.readReg rs).toNat % 32)
        else s.readReg rt >>> ((s.readReg rs).toNat % 32))) := by
  rw [← rotateRight_eq _ (Nat.mod_lt _ (by decide)), ← shiftAmount_eq]
  rfl

theorem exec_srav (rd rt rs : Reg) (s : State) :
    exec (.srav rd rt rs) s = .next (s.writeReg rd ((s.readReg rt).sshiftRight ((s.readReg rs).toNat % 32))) := by
  rw [← shiftAmount_eq]
  rfl

/-- Settles O21: the equations above, `srl` and `srlv` in the branch their selector field picks. -/
theorem shiftAndRotateResults : Obligations.ShiftAndRotateResults := by
  intro s rd rt rs shamt
  refine ⟨rfl, ?srl, fun hrs => ?srlRotates, rfl, exec_sllv rd rt rs s, ?srlvRotates, fun hsh => ?srlv,
    exec_srav rd rt rs s⟩
  case srl => rw [exec_srl, if_pos rfl]
  case srlRotates => rw [exec_srl, if_neg hrs]
  case srlvRotates => rw [exec_srlv, if_pos rfl]
  case srlv => rw [exec_srlv, if_neg hsh]

/-! ### The system instructions (R110, R111) -/

theorem exec_syscall_exit {s : State} (h : s.readReg 2#5 = 10#32) : exec .syscall s = .next (s.takeException .none) :=
  if_pos h

theorem exec_syscall_unknown {s : State} (h : s.readReg 2#5 ≠ 10#32) :
    exec .syscall s = .fault (.unknownSyscall (s.readReg 2#5)) := if_neg h

theorem exec_brk (s : State) : exec .brk s = .next (s.takeException .breakpoint) := rfl

/-- Settles O23: the three equations above; in a step they act on the state with the flag down, and `pc` advances
after. -/
theorem syscallExitAndBreakHalt : Obligations.SyscallExitAndBreakHalt :=
  ⟨fun s => ⟨exec_syscall_exit, exec_syscall_unknown, exec_brk s⟩,
    fun s hs hv0 => step_of_exec_next hs (exec_syscall_exit (s := s.beginStep) hv0),
    fun s hs => step_of_exec_next hs (exec_brk s.beginStep)⟩

/-! ### `HI` and `LO`: moves and divisions (R115 to R118, R121, R122) -/

/-- Settles O24: each move is its meaning, and the half not moved is written back. -/
theorem hiLoMoves : Obligations.HiLoMoves := fun _ _ => ⟨rfl, rfl, rfl, rfl⟩

theorem exec_div_of_runs {s : State} {rs rt : Reg}
    (h : ¬ (s.readReg rs = 0x80000000#32 ∧ s.readReg rt = 0xFFFFFFFF#32) ∨ s.cfg.divOverflow = .wrap) :
    exec (.div rs rt) s = .next (s.writeHiLo (divSigned (s.readReg rs) (s.readReg rt))) := by
  refine if_neg fun hc => ?_
  obtain ⟨hov, hfatal⟩ := Bool.and_eq_true_iff.mp hc
  rcases h with h | h
  · exact h ((divOverflows_eq_true_iff _ _).mp hov)
  · rw [h] at hfatal
    cases hfatal

theorem exec_div_fatal {s : State} {rs rt : Reg} (ha : s.readReg rs = 0x80000000#32)
    (hb : s.readReg rt = 0xFFFFFFFF#32) (hc : s.cfg.divOverflow = .fatal) :
    exec (.div rs rt) s = .fault (.divideOverflow s.pc) := by
  refine if_pos (Bool.and_eq_true_iff.mpr ⟨(divOverflows_eq_true_iff _ _).mpr ⟨ha, hb⟩, ?_⟩)
  rw [hc]
  rfl

/-- Truncated division: the remainder is smaller than the divisor and has the dividend's sign. -/
theorem divSigned_spec {a b : Word} (hb : b ≠ 0#32) (ho : ¬ (a = 0x80000000#32 ∧ b = 0xFFFFFFFF#32)) :
    a.toInt = (divSigned a b).2.toInt * b.toInt + (divSigned a b).1.toInt ∧
      (divSigned a b).1.toInt.natAbs < b.toInt.natAbs ∧
      ((divSigned a b).1 = 0#32 ∨ ((divSigned a b).1.toInt < 0 ↔ a.toInt < 0)) := by
  obtain ⟨hq, hr⟩ := divSigned_toInt a b hb ho
  refine ⟨?eq, ?bound, ?sign⟩
  case eq => rw [hq, hr, Int.tdiv_mul_add_tmod]
  case bound =>
    rw [hr, Int.natAbs_tmod]
    exact Nat.mod_lt _ (Int.natAbs_pos.mpr (toInt_ne_zero hb))
  case sign =>
    by_cases hz : (divSigned a b).1 = 0#32
    · exact .inl hz
    · right
      have hne := toInt_ne_zero hz
      rw [hr] at hne ⊢
      rcases Int.lt_or_le a.toInt 0 with hneg | hpos
      · have := Int.tmod_nonneg b.toInt (a := -a.toInt) (by omega)
        rw [Int.neg_tmod] at this
        omega
      · have := Int.tmod_nonneg b.toInt hpos
        omega

/-- Settles O26: `exec_div_of_runs` with `divSigned` at a zero divisor, at an ordinary pair and at the overflowing
one; `exec_div_fatal` for the last under DIV_OVERFLOW = fatal. -/
theorem signedDivisionQuotientRemainder : Obligations.SignedDivisionQuotientRemainder := by
  intro s rs rt
  refine ⟨fun hzero => ?zero, fun hne ho => ⟨_, _, exec_div_of_runs (.inl ho), divSigned_spec hne ho⟩,
    fun ha hb => ⟨fun hwrap => ?wraps, exec_div_fatal ha hb⟩⟩
  case zero =>
    rw [exec_div_of_runs (.inl (by rw [hzero]; simp)), hzero, divSigned_zero]
    rfl
  case wraps =>
    rw [exec_div_of_runs (.inr hwrap), ha, hb, divSigned_overflow]
    rfl

theorem exec_divu (rs rt : Reg) (s : State) :
    exec (.divu rs rt) s = .next (s.writeHiLo (divUnsigned (s.readReg rs) (s.readReg rt))) := rfl

/-- Settles O27: `divUnsigned_toNat` gives the library's quotient and remainder. -/
theorem unsignedDivisionQuotientRemainder : Obligations.UnsignedDivisionQuotientRemainder := by
  intro s rs rt
  refine ⟨fun hzero => ?zero, fun hne => ⟨_, _, exec_divu rs rt s, ?spec⟩⟩
  case zero =>
    rw [exec_divu, hzero, divUnsigned_zero]
    rfl
  case spec =>
    obtain ⟨hq, hr⟩ := divUnsigned_toNat (s.readReg rs) (s.readReg rt) hne
    have hpos : 0 < (s.readReg rt).toNat := Nat.pos_of_ne_zero fun h => hne (BitVec.eq_of_toNat_eq h)
    rw [hq, hr]
    exact ⟨(Nat.div_add_mod' _ _).symm, Nat.mod_lt _ hpos⟩

/-! ### Arithmetic and logic (R125 to R134, R160 to R162) -/

theorem exec_add (rd rs rt : Reg) (s : State) :
    exec (.add rd rs rt) s = .next
      ((s.writeReg rd (BitVec.ofInt 32 ((s.readReg rs).toInt + (s.readReg rt).toInt))).raiseIf
        (outsideInt32 ((s.readReg rs).toInt + (s.readReg rt).toInt)) .integerOverflow) := by
  rw [← add_eq_ofInt]
  rfl

theorem exec_sub (rd rs rt : Reg) (s : State) :
    exec (.sub rd rs rt) s = .next
      ((s.writeReg rd (BitVec.ofInt 32 ((s.readReg rs).toInt - (s.readReg rt).toInt))).raiseIf
        (outsideInt32 ((s.readReg rs).toInt - (s.readReg rt).toInt)) .integerOverflow) := by
  rw [← sub_eq_ofInt]
  rfl

theorem exec_addi (rt rs : Reg) (imm : Half) (s : State) :
    exec (.addi rt rs imm) s = .next
      ((s.writeReg rt (BitVec.ofInt 32 ((s.readReg rs).toInt + imm.toInt))).raiseIf
        (outsideInt32 ((s.readReg rs).toInt + imm.toInt)) .integerOverflow) := by
  rw [← signExtend16_toInt, ← add_eq_ofInt]
  rfl

theorem raiseIf_of_fits {n : Int} (s : State) (h : FitsInt32 n) : s.raiseIf (outsideInt32 n) .integerOverflow = s := by
  rw [(outsideInt32_eq_false_iff n).mpr h, State.raiseIf_false]

theorem raiseIf_of_not_fits {n : Int} (s : State) (h : ¬ FitsInt32 n) :
    s.raiseIf (outsideInt32 n) .integerOverflow = { s with halted := true, exception := .integerOverflow } := by
  rw [(outsideInt32_eq_true_iff n).mpr h]
  rfl

/-- Settles O28: the three equations above, their raise decided by whether the exact result fits. -/
theorem signedArithmeticCommitsThenHaltsOnOverflow : Obligations.SignedArithmeticCommitsThenHaltsOnOverflow := by
  intro s d rs rt imm a b
  refine ⟨fun h => ?_, fun h => ?_, fun h => ?_, fun h => ?_, fun h => ?_, fun h => ?_⟩
  · rw [exec_add, raiseIf_of_fits _ h]
  · rw [exec_add, raiseIf_of_not_fits _ h]
  · rw [exec_sub, raiseIf_of_fits _ h]
  · rw [exec_sub, raiseIf_of_not_fits _ h]
  · rw [exec_addi, raiseIf_of_fits _ h]
  · rw [exec_addi, raiseIf_of_not_fits _ h]

theorem exec_addu (rd rs rt : Reg) (s : State) :
    exec (.addu rd rs rt) s = .next (s.writeReg rd (s.readReg rs + s.readReg rt)) := rfl

theorem exec_subu (rd rs rt : Reg) (s : State) :
    exec (.subu rd rs rt) s = .next (s.writeReg rd (s.readReg rs - s.readReg rt)) := rfl

theorem exec_addiu (rt rs : Reg) (imm : Half) (s : State) :
    exec (.addiu rt rs imm) s = .next (s.writeReg rt (s.readReg rs + signExtend16 imm)) := rfl

theorem exec_andi (rt rs : Reg) (imm : Half) (s : State) :
    exec (.andi rt rs imm) s = .next (s.writeReg rt (s.readReg rs &&& zeroExtend16 imm)) := rfl

theorem sub_eq_ofInt_toNat (a b : Word) : a - b = BitVec.ofInt 32 ((a.toNat : Int) - b.toNat) := by
  rw [Int.sub_eq_add_neg, BitVec.ofInt_add, BitVec.ofInt_neg, BitVec.ofInt_natCast, BitVec.ofInt_natCast,
    BitVec.ofNat_toNat, BitVec.ofNat_toNat, BitVec.setWidth_eq, BitVec.setWidth_eq, BitVec.sub_eq_add_neg]

/-- A zero-extended mask clears the upper half. -/
theorem and_zeroExtend16 (a : Word) (imm : Half) : a &&& zeroExtend16 imm = 0#16 ++ (a.extractLsb' 0 16 &&& imm) := by
  calc a &&& zeroExtend16 imm
      = (a.extractLsb' 16 16 ++ a.extractLsb' 0 16) &&& (0#16 ++ imm) := by
        rw [zeroExtend16_eq, BitVec.extractLsb'_append_extractLsb' (w := 16) (len := 16)]
    _ = 0#16 ++ (a.extractLsb' 0 16 &&& imm) := by rw [BitVec.and_append, BitVec.and_zero]

/-- Settles O29: the equations above, with each sum, difference and mask in the statement's words. -/
theorem wrappingAndBitwiseResults : Obligations.WrappingAndBitwiseResults := by
  intro s rd rs rt imm a b
  refine ⟨?addu, ?subu, rfl, rfl, rfl, rfl, ?addiu, ?andi⟩
  case addu => rw [exec_addu, BitVec.add_def]
  case subu => rw [exec_subu, sub_eq_ofInt_toNat]
  case addiu => rw [exec_addiu, ← effectiveAddress, effectiveAddress_eq]
  case andi => rw [exec_andi, and_zeroExtend16]

theorem exec_slt (rd rs rt : Reg) (s : State) :
    exec (.slt rd rs rt) s = .next (s.writeReg rd (boolWord (lessSigned (s.readReg rs) (s.readReg rt)))) := rfl

theorem exec_sltu (rd rs rt : Reg) (s : State) :
    exec (.sltu rd rs rt) s = .next (s.writeReg rd (boolWord (lessUnsigned (s.readReg rs) (s.readReg rt)))) := rfl

theorem boolWord_decide (p : Prop) [Decidable p] : boolWord (decide p) = if p then 1#32 else 0#32 := by
  by_cases hp : p <;> simp [boolWord, hp]

/-- Settles O30: `boolWord_decide` at each comparison. -/
theorem setOnLessThanResults : Obligations.SetOnLessThanResults := by
  intro s rd rs rt
  refine ⟨?slt, ?sltu⟩
  case slt => rw [exec_slt, lessSigned, boolWord_decide]
  case sltu => rw [exec_sltu, lessUnsigned, boolWord_decide]

/-! ### Traps (R140 to R145) -/

theorem exec_trap_of_true {i : Instr} {s : State} {c : Bool} (h : exec i s = .next (s.raiseIf c .trap))
    (hc : c = true) : exec i s = .next { s with halted := true, exception := .trap } := by
  rw [h, hc]
  rfl

theorem exec_trap_of_false {i : Instr} {s : State} {c : Bool} (h : exec i s = .next (s.raiseIf c .trap))
    (hc : c = false) : exec i s = .next s := by
  rw [h, hc, State.raiseIf_false]

/-- Settles O31: each trap raises under its comparison, of which one holds and the opposite one fails. -/
theorem trapsHaltOnTheirComparison : Obligations.TrapsHaltOnTheirComparison := by
  intro s rs rt a b trapped
  refine ⟨fun h => ⟨?_, ?_⟩, fun h => ⟨?_, ?_⟩, fun h => ⟨?_, ?_⟩, fun h => ⟨?_, ?_⟩, fun h => ⟨?_, ?_⟩,
    fun h => ⟨?_, ?_⟩⟩
  · exact exec_trap_of_true (i := .tge rs rt) rfl (decide_eq_true h)
  · exact exec_trap_of_false (i := .tlt rs rt) rfl (decide_eq_false (Int.not_lt.mpr h))
  · exact exec_trap_of_false (i := .tge rs rt) rfl (decide_eq_false (Int.not_le.mpr h))
  · exact exec_trap_of_true (i := .tlt rs rt) rfl (decide_eq_true h)
  · exact exec_trap_of_true (i := .tgeu rs rt) rfl (decide_eq_true h)
  · exact exec_trap_of_false (i := .tltu rs rt) rfl (decide_eq_false (Nat.not_lt.mpr h))
  · exact exec_trap_of_false (i := .tgeu rs rt) rfl (decide_eq_false (Nat.not_le.mpr h))
  · exact exec_trap_of_true (i := .tltu rs rt) rfl (decide_eq_true h)
  · exact exec_trap_of_true (i := .teq rs rt) rfl (beq_iff_eq.mpr h)
  · exact exec_trap_of_false (i := .tne rs rt) rfl (bne_eq_false_iff_eq.mpr h)
  · exact exec_trap_of_false (i := .teq rs rt) rfl (beq_eq_false_iff_ne.mpr h)
  · exact exec_trap_of_true (i := .tne rs rt) rfl (bne_iff_ne.mpr h)

/-! ### Jumps and branches (R150 to R155) -/

theorem exec_j (target : Target) (s : State) : exec (.j target) s = .next (s.jumpTo (jumpTarget s.pc target)) := rfl

/-- Settles O32: each jump is its meaning, with `j`'s target put together from its fields (`jumpTarget_eq`). -/
theorem jumpResults : Obligations.JumpResults := by
  intro s rd rs target
  refine ⟨rfl, rfl, ?j⟩
  case j =>
    rw [exec_j, jumpTarget_eq]
    rfl

theorem exec_beq_of_eq {s : State} {rs rt : Reg} (h : s.readReg rs = s.readReg rt) (imm : Half) :
    exec (.beq rs rt imm) s = .next (s.jumpTo (branchTarget s.pc imm)) := congrArg Host.Outcome.next (if_pos h)

theorem exec_beq_of_ne {s : State} {rs rt : Reg} (h : s.readReg rs ≠ s.readReg rt) (imm : Half) :
    exec (.beq rs rt imm) s = .next s := congrArg Host.Outcome.next (if_neg h)

theorem exec_bne_of_eq {s : State} {rs rt : Reg} (h : s.readReg rs = s.readReg rt) (imm : Half) :
    exec (.bne rs rt imm) s = .next s := congrArg Host.Outcome.next (if_pos h)

theorem exec_bne_of_ne {s : State} {rs rt : Reg} (h : s.readReg rs ≠ s.readReg rt) (imm : Half) :
    exec (.bne rs rt imm) s = .next (s.jumpTo (branchTarget s.pc imm)) := congrArg Host.Outcome.next (if_neg h)

/-- Nothing is annulled: `beql` is `beq` (R155). -/
theorem exec_beql (rs rt : Reg) (imm : Half) (s : State) : exec (.beql rs rt imm) s = exec (.beq rs rt imm) s := rfl

theorem step_of_exec_jumpTo {s : State} {i : Instr} {p : Word} (hs : AboutToRun s i)
    (h : exec i s.beginStep = .next (s.beginStep.jumpTo p)) : step s = .next { s with pc := p, jump := false } :=
  step_of_exec_next hs h

theorem step_of_exec_same {s : State} {i : Instr} (hs : AboutToRun s i) (h : exec i s.beginStep = .next s.beginStep) :
    step s = .next { s with pc := s.pc + 4#32, jump := false } :=
  step_of_exec_next hs h

/-- Settles O33: the equations of `beq` and `bne` (and `beql`, which is `beq`) on either side of the comparison, in
the state and at the start of its step. -/
theorem branchesTakeOrFallThrough : Obligations.BranchesTakeOrFallThrough := by
  intro s rs rt imm
  simp only [← branchTarget_eq, exec_beql]
  refine ⟨fun heq => ?equal, fun hne => ?unequal⟩
  case equal =>
    have heq' : s.beginStep.readReg rs = s.beginStep.readReg rt := heq
    exact ⟨exec_beq_of_eq heq imm, exec_bne_of_eq heq imm, exec_beq_of_eq heq imm,
      fun hs => step_of_exec_jumpTo hs (exec_beq_of_eq heq' imm),
      fun hs => step_of_exec_same hs (exec_bne_of_eq heq' imm),
      fun hs => step_of_exec_jumpTo hs ((exec_beql ..).trans (exec_beq_of_eq heq' imm))⟩
  case unequal =>
    have hne' : s.beginStep.readReg rs ≠ s.beginStep.readReg rt := hne
    exact ⟨exec_beq_of_ne hne imm, exec_bne_of_ne hne imm, exec_beq_of_ne hne imm,
      fun hs => step_of_exec_same hs (exec_beq_of_ne hne' imm),
      fun hs => step_of_exec_jumpTo hs (exec_bne_of_ne hne' imm),
      fun hs => step_of_exec_same hs ((exec_beql ..).trans (exec_beq_of_ne hne' imm))⟩

/-! ### Idioms (R217, R218) -/

theorem signExtend16_low (imm : Half) : (signExtend16 imm).extractLsb' 0 16 = imm := by
  apply BitVec.eq_of_getLsbD_eq
  intro i hi
  have hi32 : i < 32 := by omega
  simp only [signExtend16, BitVec.getLsbD_extractLsb', BitVec.getLsbD_signExtend, Nat.zero_add, hi, hi32, if_true,
    decide_true, Bool.true_and]

/-- Settles O51: `lui` keeps the low half of what `addiu` wrote, which is the immediate. -/
theorem addiuThenLuiBuildsConstant : Obligations.AddiuThenLuiBuildsConstant := by
  intro s rt hi lo hrt
  refine ⟨_, _, exec_addiu rt 0#5 lo s, exec_lui_append rt hi _, ?_⟩
  rw [State.readReg_writeReg_self _ _ hrt, State.readReg_writeReg_self _ _ hrt, State.readReg_zero, BitVec.zero_add,
    signExtend16_low]

theorem exec_jr (rs : Reg) (s : State) : exec (.jr rs) s = .next (s.jumpTo (s.readReg rs)) := rfl

theorem exec_jalr (rd rs : Reg) (s : State) :
    exec (.jalr rd rs) s = .next ((s.writeReg rd (nextPc s.pc)).jumpTo (s.readReg rs)) := rfl

/-- Settles O52: the call's step leaves the link in `rd`, and the return's goes to what `rd` holds. -/
theorem callLinksAndReturnResumes : Obligations.CallLinksAndReturnResumes := by
  intro s u rd rs hrd hcall hret
  have hlink : ((s.beginStep.writeReg rd (nextPc s.pc)).jumpTo (s.readReg rs)).postDispatch.readReg rd = s.pc + 4#32 :=
    State.readReg_writeReg_self _ _ hrd
  refine ⟨_, step_of_exec_next hcall (exec_jalr rd rs s.beginStep), rfl, hlink, fun hkept => ?resumes⟩
  case resumes =>
    have hr : u.readReg rd = s.pc + 4#32 := hkept.trans hlink
    rw [step_of_exec_jumpTo hret (exec_jr rd u.beginStep), State.beginStep_readReg, hr]

/-! ### What can be fatal (R185) -/

/-- Every way a read can fail. -/
theorem Memory.read_error {m : Memory} {top : Word} {w : Width} {a : Word} {f : Fault} (h : m.read top w a = .error f) :
    f = .invalidAddress a ∨ f = .readOutOfBounds a ∨ ∃ b, f = .stackAboveTop b := by
  unfold Memory.read at h
  split at h
  · next g hg =>
    cases h
    exact .inl ((m.resolve_error_iff a _).mp hg).1
  · split at h
    · next g hg =>
      cases h
      exact .inr (Memory.readBytes_error hg)
    · cases h

/-- Every way a write can fail. -/
theorem Memory.write_error {m : Memory} {top : Word} {w : Width} {a v : Word} {f : Fault}
    (h : m.write top w a v = .error f) : f = .invalidAddress a ∨ ∃ b, f = .stackAboveTop b := by
  unfold Memory.write at h
  split at h
  · next g hg =>
    cases h
    exact .inl ((m.resolve_error_iff a _).mp hg).1
  · exact .inr (Memory.writeBytes_error h)

theorem exec_lw_fault {s : State} {rt rs : Reg} {imm : Half} {f : Fault} (h : exec (.lw rt imm rs) s = .fault f) :
    s.readMem .word (effectiveAddress (s.readReg rs) imm) = .error f := by
  cases hr : s.readMem .word (effectiveAddress (s.readReg rs) imm) with
  | ok v => rw [exec_lw_of_readMem_ok hr] at h; cases h
  | error g => rw [exec_lw_of_readMem_error hr] at h; cases h; rfl

theorem exec_sw_fault {s : State} {rt rs : Reg} {imm : Half} {f : Fault} (h : exec (.sw rt imm rs) s = .fault f) :
    s.mem.write s.cfg.stackTopByte .word (effectiveAddress (s.readReg rs) imm) (s.readReg rt) = .error f := by
  cases hw : s.mem.write s.cfg.stackTopByte .word (effectiveAddress (s.readReg rs) imm) (s.readReg rt) with
  | ok m => rw [exec_sw_of_write_ok hw] at h; cases h
  | error g => rw [exec_sw_of_write_error hw] at h; cases h; rfl

theorem exec_syscall_fault {s : State} {f : Fault} (h : exec .syscall s = .fault f) :
    s.readReg 2#5 ≠ 10#32 ∧ f = .unknownSyscall (s.readReg 2#5) := by
  by_cases hv0 : s.readReg 2#5 = 10#32
  · rw [exec_syscall_exit hv0] at h
    cases h
  · rw [exec_syscall_unknown hv0] at h
    cases h
    exact ⟨hv0, rfl⟩

theorem exec_div_fault {s : State} {rs rt : Reg} {f : Fault} (h : exec (.div rs rt) s = .fault f) :
    s.cfg.divOverflow = .fatal ∧ s.readReg rs = 0x80000000#32 ∧ s.readReg rt = 0xFFFFFFFF#32 ∧
      f = .divideOverflow s.pc := by
  by_cases ho : s.readReg rs = 0x80000000#32 ∧ s.readReg rt = 0xFFFFFFFF#32
  · cases hc : s.cfg.divOverflow with
    | wrap => rw [exec_div_of_runs (.inr hc)] at h; cases h
    | fatal =>
      rw [exec_div_fatal ho.1 ho.2 hc] at h
      cases h
      exact ⟨rfl, ho.1, ho.2, rfl⟩
  · rw [exec_div_of_runs (.inl ho)] at h
    cases h

/-- Settles O20: the four inversions above; every other instruction answers a next state by its meaning. -/
theorem onlyFourInstructionsCanBeFatal : Obligations.OnlyFourInstructionsCanBeFatal := by
  refine ⟨exec_ne_refused, fun i s f h => ?_⟩
  cases i with
  | lw rt imm rs => exact .inl ⟨rt, imm, rs, rfl, Memory.read_error (exec_lw_fault h)⟩
  | sw rt imm rs => exact .inr (.inl ⟨rt, imm, rs, rfl, Memory.write_error (exec_sw_fault h)⟩)
  | syscall => exact .inr (.inr (.inl ⟨rfl, exec_syscall_fault h⟩))
  | div rs rt => exact .inr (.inr (.inr ⟨rs, rt, rfl, exec_div_fault h⟩))
  | _ => cases h

end Sys2Proof.Machine
end

section
/-! PROOFS. The statements about reset, the host's loads and the observation surface (spec 70_reset_and_hazards.md,
10_state.md R42, R43). -/

namespace Sys2Proof.Machine

/-! ### Power-on and reset (R43, R200, R201) -/

theorem State.powerOn_readReg (c : Config) (r : Reg) :
    (State.powerOn c).readReg r = if r = 28#5 then c.gpReset else if r = 29#5 then c.spReset else 0#32 := by
  by_cases hr : r = 0#5
  · subst hr
    rfl
  · have hgp : 28 = r.toNat ↔ r = 28#5 := by rw [← BitVec.toNat_inj, eq_comm]; rfl
    have hsp : 29 = r.toNat ↔ r = 29#5 := by rw [← BitVec.toNat_inj, eq_comm]; rfl
    simp only [State.readReg_of_ne _ hr, State.powerOn, Vector.getElem_set, Vector.getElem_replicate, hgp, hsp]
    by_cases h28 : r = 28#5
    · subst h28
      rfl
    · simp only [h28, if_false]

theorem State.powerOn_inv {c : Config} (h : c.wellFormed = true) : (State.powerOn c).Inv where
  memWf := rfl
  basesDistinct := h
  jumpDown := rfl
  exceptionOnlyHalted _ := rfl
  zeroSlot := rfl

/-- Settles O48: `State.powerOn_inv`; a host reset's core is that of a power-on, over the memory it kept. -/
theorem resetStatesHaveTheInvariant : Obligations.ResetStatesHaveTheInvariant :=
  ⟨State.powerOn_inv (by decide), fun _ => State.powerOn_inv, fun _ h =>
    { memWf := h.memWf, basesDistinct := h.basesDistinct, jumpDown := rfl, exceptionOnlyHalted := fun _ => rfl,
      zeroSlot := rfl }⟩

theorem State.powerOn_readReg_other (c : Config) {r : Reg} (hgp : r ≠ 28#5) (hsp : r ≠ 29#5) :
    (State.powerOn c).readReg r = 0#32 := by
  rw [State.powerOn_readReg, if_neg hgp, if_neg hsp]

/-- Settles O53: the values of `State.powerOn` at the default parameters. -/
theorem resetValues : Obligations.ResetValues :=
  ⟨rfl, rfl, rfl, rfl, rfl, rfl, rfl, rfl, fun _ => State.powerOn_readReg_other _, rfl, rfl, rfl, rfl, rfl,
    forall_segment.mpr ⟨rfl, rfl, rfl, rfl⟩, rfl, rfl⟩

/-- Settles O54: a host reset is a power-on under the state's parameters, over its memory. -/
theorem hostResetKeepsMemory : Obligations.HostResetKeepsMemory :=
  fun s => ⟨rfl, rfl, rfl, rfl, rfl, rfl, rfl, rfl, State.powerOn_readReg s.cfg 28#5, State.powerOn_readReg s.cfg 29#5,
    fun _ => State.powerOn_readReg_other s.cfg⟩

/-! ### The raw load (R203) -/

/-- Below the data base, the addresses from the text base on are in the text segment. -/
theorem reset_resolve_text_add {j : Nat} (hj : j < 0x0FC00000) :
    State.reset.mem.resolve (State.reset.mem.textBase + BitVec.ofNat 32 j) = .ok .text := by
  refine (reset_resolve_iff _).1.mpr ?_
  have hbase : State.reset.mem.textBase = 0x00400000#32 := rfl
  rw [hbase, BitVec.toNat_add, BitVec.toNat_ofNat, BitVec.toNat_ofNat]
  omega

theorem State.rawLoad_of_storeBytes {s t : State} {bytes : List Byte}
    (h : storeBytes s.mem.textBase bytes s = .ok t) : s.rawLoad bytes = .next t := by
  simp only [State.rawLoad, h]

/-- Settles O55: the byte stores are one run of consecutive bytes of the empty text buffer (`storeBytes_text`). -/
theorem rawLoadFillsTheTextBuffer : Obligations.RawLoadFillsTheTextBuffer := by
  intro bytes hlen
  have hbase : State.reset.mem.textBase.toNat = 0x00400000 := rfl
  have hstore := storeBytes_text (bs := bytes) (a := State.reset.mem.textBase) (s := State.reset)
    (fun j hj => reset_resolve_text_add (Nat.lt_of_lt_of_le hj hlen)) (by rw [hbase]; omega) (Nat.le_refl _)
  rw [Nat.sub_self] at hstore
  refine ⟨_, State.rawLoad_of_storeBytes hstore, rfl, ?length, fun k hk => ?byte⟩
  case length =>
    have hempty : State.reset.mem.text.len = 0 := rfl
    simp only [Buffer.setMany_len, hempty]
    split
    · next hnil => simp [hnil]
    · omega
  case byte =>
    have hwf : State.reset.mem.text.wf = true := rfl
    rw [Buffer.get_setMany hwf, if_pos (by omega), Nat.sub_zero, List.getElem?_eq_getElem hk]

/-! ### The ELF load (R206 to R209) -/

theorem ElfHeader.valid_iff (h : ElfHeader) :
    h.valid = true ↔
      h.ident = [0x7F#8, 0x45#8, 0x4C#8, 0x46#8] ∧ h.cls = 1#32 ∧ h.endianness = 2#32 ∧ h.headerVersion = 1#32 ∧
      h.osAbi = 0#32 ∧ h.type = 2#32 ∧ h.machine = 8#32 ∧ h.version = 1#32 ∧ h.phoff = 0x34#32 ∧ h.ehsize = 52#32 ∧
      h.phentsize = 0x20#32 ∧ h.shentsize = 0x28#32 := by
  simp only [ElfHeader.valid, Bool.and_eq_true, beq_iff_eq, and_assoc]

theorem parseElf_of_invalid {file : List Byte} {h : ElfHeader} (hp : parseElfHeader file = some h)
    (hv : ¬ h.valid = true) : parseElf file = none := by
  simp only [parseElf, hp, Option.bind_eq_bind, Option.bind_some, if_neg hv]

/-- Settles O56: a header that fails a condition is not valid, so the file does not parse. -/
theorem elfValidationRefusesMismatch : Obligations.ElfValidationRefusesMismatch := by
  intro s file h hp hmismatch
  have hnone := parseElf_of_invalid hp (mt h.valid_iff.mp hmismatch)
  simp only [State.elfLoad, hnone]

theorem Memory.withDataAddress_other (m : Memory) (a : Option Word) :
    (m.withDataAddress a).heap = m.heap ∧ (m.withDataAddress a).stack = m.stack := by
  cases a <;> exact ⟨rfl, rfl⟩

/-- Settles O57: the load's own updates are `pc`, the data base and memory, and the copies keep bases, heap and stack
(`copySegments_frame`). -/
theorem elfLoadChangesOnlyMemoryAndPc : Obligations.ElfLoadChangesOnlyMemoryAndPc := by
  intro s t file h
  obtain ⟨image, m, hp, -, hm, rfl⟩ := State.elfLoad_next h
  obtain ⟨-, hbase, hheap, hstack⟩ := copySegments_frame hm
  obtain ⟨hheap', hstack'⟩ := s.mem.withDataAddress_other image.dataAddress
  refine ⟨image, hp, rfl, ?dataBase, fun seg hseg => ?otherBase, hheap.trans hheap', hstack.trans hstack'⟩
  case dataBase => rw [hbase, Memory.withDataAddress_base, if_pos rfl]; rfl
  case otherBase => rw [hbase, Memory.withDataAddress_base, if_neg hseg]

/-- The buffer a copy leaves: the file's bytes over the grown buffer. -/
theorem get_setMany_grow {b : Buffer} (hb : b.wf = true) (off n i : Nat) (bs : List Byte) :
    (Buffer.setMany off bs (b.grow n)).get i =
      if off ≤ i ∧ i < off + bs.length then bs[i - off]?
      else if i < b.len then b.get i
      else if i < (Buffer.setMany off bs (b.grow n)).len then some 0#8 else none := by
  rw [Buffer.get_setMany (Buffer.wf_grow hb n), Buffer.get_grow hb, Buffer.setMany_len, Buffer.grow_len]
  by_cases hin : off ≤ i ∧ i < off + bs.length
  · rw [if_pos hin, if_pos hin]
  · rw [if_neg hin, if_neg hin]
    by_cases hold : i < b.len
    · rw [if_pos (by omega), if_pos hold, if_pos hold]
    · cases bs with
      | nil => grind
      | cons v vs => grind

/-- Settles O58: a copy leaves one buffer, whose bytes are those of `get_setMany_grow`, in the three ranges of the
index. -/
theorem elfSegmentCopyFillsAndZeroes : Obligations.ElfSegmentCopyFillsAndZeroes := by
  intro file h m
  refine ⟨fun ht => ?skipped, fun seg ht hs => ⟨fun hseg hf => copySegment_completes ht hs hseg hf, ?copied⟩⟩
  case skipped => exact if_neg ht
  case copied =>
    intro m' hwf hc off
    obtain ⟨hne, -⟩ | ⟨-, seg', hseg, hs', hcopy⟩ := copySegment_next hc
    · exact absurd ht hne
    rw [hs] at hs'
    cases hs'
    obtain ⟨bs, hbs, rfl⟩ := copyInto_next hcopy
    obtain ⟨hlen, hbytes⟩ := fileBytes_some hbs
    have hget := get_setMany_grow ((Memory.wf_iff m).mp hwf seg) off (off + h.memsz.toNat) (bs := bs)
    rw [hlen] at hget
    simp only [Memory.base_setBuffer, Memory.buffer_setBuffer, if_true]
    refine ⟨hseg, fun _ => trivial, fun seg' hne => if_neg hne, ?length, fun k hk => ?byte, fun i hi hold => ?kept,
      fun i hi hnew hlt => ?zero⟩
    case length =>
      rw [Buffer.setMany_len, Buffer.grow_len]
      split
      · next hnil =>
        have hzero : h.filesz.toNat = 0 := by rw [← hlen, hnil, List.length_nil]
        omega
      · omega
    case byte => rw [hget, if_pos (by omega), Nat.add_sub_cancel_left, hbytes k hk]
    case kept => rw [hget, if_neg (by omega), if_pos hold]
    case zero => rw [hget, if_neg (by omega), if_neg (by omega), if_pos hlt]

/-! ### Observation (R42) -/

theorem State.observeRegs_values (s : State) :
    s.observeRegs.map Prod.snd =
      (List.range 32).map (fun i => s.readReg (BitVec.ofNat 5 i)) ++ [s.pc, s.hi, s.lo] := rfl

/-- Settles O59: the names are closed data; the values are the register file's in index order, then the three others.
-/
theorem observationListsThirtyFivePairs : Obligations.ObservationListsThirtyFivePairs := by
  intro s
  refine ⟨rfl, fun r => ?value, rfl⟩
  case value =>
    have hr : r.toNat < 32 := r.isLt
    rw [State.observeRegs_values, List.getElem?_append_left (by simpa using hr), List.getElem?_map,
      List.getElem?_range hr, Option.map_some, BitVec.ofNat_toNat, BitVec.setWidth_eq]

end Sys2Proof.Machine
end

section
/-! PROOFS. The statement about runs (spec 60_exceptions.md R195, 70_reset_and_hazards.md R221): what the first step
says of the whole run, that a run ends in one way, and the self-loops. -/

namespace Sys2Proof.Machine

/-! ### The run and its first step -/

theorem runEndsWith_of_halted {s : State} (h : s.halted = true) (o : Host.Outcome State Fault Refusal) :
    RunEndsWith s o ↔ o = .next s := by
  constructor
  · rintro ⟨k, hk, -⟩
    rw [← hk, run_of_halted k h]
  · rintro rfl
    exact ⟨0, rfl, h⟩

/-- A running core's run has not ended before its first step. -/
theorem runEndsWith_iff_succ {s : State} (h : s.halted = false) (o : Host.Outcome State Fault Refusal) :
    RunEndsWith s o ↔ ∃ k, run (k + 1) s = o ∧ endsRun o = true := by
  constructor
  · rintro ⟨k, hk, hend⟩
    cases k with
    | zero =>
      rw [← hk] at hend
      exact absurd hend (by simp [endsRun, h])
    | succ k => exact ⟨k, hk, hend⟩
  · rintro ⟨k, hk, hend⟩
    exact ⟨k + 1, hk, hend⟩

theorem runEndsWith_of_step_next {s t : State} (h : s.halted = false) (hs : step s = .next t)
    (o : Host.Outcome State Fault Refusal) : RunEndsWith s o ↔ RunEndsWith t o := by
  rw [runEndsWith_iff_succ h]
  simp only [run_succ_of_next _ h hs]
  exact Iff.rfl

theorem runsForever_of_step_next {s t : State} (h : s.halted = false) (hs : step s = .next t) :
    RunsForever s ↔ RunsForever t := by
  refine ⟨fun hf k => ?fromSucc, fun hf k => ?toSucc⟩
  case fromSucc => rw [← run_succ_of_next k h hs]; exact hf (k + 1)
  case toSucc =>
    cases k with
    | zero => exact h
    | succ k => rw [run_succ_of_next k h hs]; exact hf k

/-- A running core whose run is over after one step, with whatever budget. -/
theorem runEndsWith_of_run_succ {s : State} {e : Host.Outcome State Fault Refusal} (h : s.halted = false)
    (hrun : ∀ k, run (k + 1) s = e) (hend : endsRun e = true) (o : Host.Outcome State Fault Refusal) :
    RunEndsWith s o ↔ o = e := by
  rw [runEndsWith_iff_succ h]
  constructor
  · rintro ⟨k, hk, -⟩
    rw [← hk, hrun]
  · rintro rfl
    exact ⟨0, hrun 0, hend⟩

/-! ### One end, or none -/

theorem runEndsWith_unique {s : State} {o o' : Host.Outcome State Fault Refusal} (h : RunEndsWith s o)
    (h' : RunEndsWith s o') : o = o' := by
  obtain ⟨k, rfl, hend⟩ := h
  obtain ⟨k', rfl, hend'⟩ := h'
  rw [← run_add k' hend, ← run_add k hend', Nat.add_comm]

theorem runsForever_iff (s : State) : RunsForever s ↔ ∀ o, ¬ RunEndsWith s o := by
  constructor
  · rintro hf o ⟨k, rfl, hend⟩
    exact absurd (hf k) (by simp [hend])
  · intro hnone k
    exact Bool.eq_false_iff.mpr fun hend => hnone _ ⟨k, rfl, hend⟩

/-! ### Self-loops (R221) -/

/-- What holds of running states only, and after a step where it held before, keeps the run going. -/
theorem runsForever_of_invariant {P : State → Prop} (hrun : ∀ s, P s → s.halted = false)
    (hstep : ∀ s, P s → ∃ t, step s = .next t ∧ P t) {s : State} (hs : P s) : RunsForever s := by
  intro k
  induction k generalizing s with
  | zero => exact hrun s hs
  | succ k ih =>
    obtain ⟨t, ht, hPt⟩ := hstep s hs
    rw [run_succ_of_next k (hrun s hs) ht]
    exact ih hPt

theorem AboutToRun.beginStep {s : State} {i : Instr} (h : AboutToRun s i) : AboutToRun s.beginStep i :=
  ⟨h.running, h.distinct, h.aligned, h.decodes⟩

/-- A displacement of -1 word leads back to the branch itself. -/
theorem branchTarget_self (pc : Word) : branchTarget pc 0xFFFF#16 = pc := by
  have hback : 4#32 + (signExtend16 0xFFFF#16 <<< 2) = 0#32 := by decide
  rw [branchTarget, BitVec.add_assoc, hback, BitVec.add_zero]

theorem runsForever_of_beq_self {s : State} {rs rt : Reg} (hs : AboutToRun s (.beq rs rt 0xFFFF#16))
    (heq : s.readReg rs = s.readReg rt) : RunsForever s := by
  refine runsForever_of_invariant
    (P := fun s => AboutToRun s (.beq rs rt 0xFFFF#16) ∧ s.readReg rs = s.readReg rt) (fun u hu => hu.1.running)
    (fun u ⟨hu, hueq⟩ => ⟨u.beginStep, ?_, hu.beginStep, hueq⟩) ⟨hs, heq⟩
  have hexec := exec_beq_of_eq (s := u.beginStep) hueq 0xFFFF#16
  rw [branchTarget_self] at hexec
  exact step_of_exec_jumpTo hu hexec

theorem runsForever_of_jr_self {s : State} {rs : Reg} (hs : AboutToRun s (.jr rs)) (heq : s.readReg rs = s.pc) :
    RunsForever s := by
  refine runsForever_of_invariant (P := fun s => AboutToRun s (.jr rs) ∧ s.readReg rs = s.pc)
    (fun u hu => hu.1.running) (fun u ⟨hu, hueq⟩ => ⟨u.beginStep, ?_, hu.beginStep, hueq⟩) ⟨hs, heq⟩
  have hexec := exec_jr rs u.beginStep
  rw [State.beginStep_readReg, hueq] at hexec
  exact step_of_exec_jumpTo hu hexec

/-- Settles O60: the lemmas above, the step's three answers of a running core each through its own. -/
theorem runEndsHaltedOrFatalElseNever : Obligations.RunEndsHaltedOrFatalElseNever := by
  refine ⟨fun s => runEndsWith_of_halted, fun s hrun => ⟨fun t ht => ?next, fun f hf => ?fault, fun r hr => ?refused⟩,
    fun s o o' => runEndsWith_unique, fun s t h => ?halted, runsForever_iff, fun s rs rt => runsForever_of_beq_self,
    fun s rs => runsForever_of_jr_self⟩
  case next => exact ⟨runEndsWith_of_step_next hrun ht, runsForever_of_step_next hrun ht⟩
  case fault => exact runEndsWith_of_run_succ hrun (fun k => run_succ_of_fault k hrun hf) rfl
  case refused => exact runEndsWith_of_run_succ hrun (fun k => run_succ_of_refused k hrun hr) rfl
  case halted =>
    obtain ⟨k, -, hend⟩ := h
    exact hend

end Sys2Proof.Machine
end
